-- ==== Sys2Proof/Word.lean ====
section
/-! DEFINITION. The widths every file uses: bytes and 32-bit words (R7 of spec/00_scope.md). -/

namespace Sys2Proof

/-- A byte (R7). -/
abbrev Byte := BitVec 8

/-- A word of 32 bits (R7); `+` and `-` wrap modulo 2^32. -/
abbrev Word := BitVec 32

end Sys2Proof
end

