-- ==== Sys2Proof/Config.lean ====
section
/-! DEFINITION. What the source fixes (R5), what it leaves to the implementation (R6), and the free values of the spec
(spec/93_implementation_defined.md, treatment "any value"). -/

namespace Sys2Proof

/-- The five stores of bytes of the BFE: the payload space and the four buffers (R43 to R47). -/
inductive Region where
  /-- PAYLOAD, R47. -/
  | payload
  /-- RAW_CMD_BUF, R43. -/
  | rawCmdBuf
  /-- RAW_RESP_HDR, R44. -/
  | rawRespHdr
  /-- ACK_BUF, R45. -/
  | ackBuf
  /-- RAW_RESP_PAYLOAD, R46. -/
  | rawRespPayload
deriving DecidableEq, Repr

namespace Config

/-- IMAGE_BYTES (R5). -/
abbrev imageBytes : Nat := 134400
/-- IMAGE_CHUNK (R5). -/
abbrev imageChunk : Nat := 8192
/-- FW_CHUNK_MAX (R5). -/
abbrev fwChunkMax : Nat := 8184
/-- FW_HDR_BYTES (R5). -/
abbrev fwHdrBytes : Nat := 8
/-- RAW_CMD_BYTES (R5). -/
abbrev rawCmdBytes : Nat := 68
/-- MAGIC_BUSY (R5). -/
abbrev magicBusy : Byte := 0xE0#8
/-- MAGIC_TERM (R5). -/
abbrev magicTerm : Byte := 0xA0#8
/-- MAGIC_TAIL (R5). -/
abbrev magicTail : Byte := 0xE0#8

/-- The free part of PAYLOAD_BYTES (R6: OPEN). Log 5. -/
opaque payloadSpare : Nat

/-- PAYLOAD_BYTES (R6, U6): any number with 134,400 ≤ PAYLOAD_BYTES ≤ 2^32 − 1. The remainder of `payloadSpare`
runs through exactly the numbers that keep it in that range. -/
def payloadBytes : Nat := payloadSpare % (2 ^ 32 - imageBytes) + imageBytes

/-- RX_TIMEOUT_RESET (R6, U4): the reset value of RX_TIMEOUT, any 32-bit value. Log 5. -/
opaque rxTimeoutReset : Word

/-- TICK_PERIOD (R6, U5): the time between two ticks. No rule depends on it, and nothing in the model reads it. -/
opaque tickPeriod : Nat

/-- What byte `a` of a store reads as while nothing has written it since the `n`-th reset (R43 to R47, R240, U7, U8: any
value). A free value: `freeByte region n a`. Log 3. -/
opaque freeByte : Region → Nat → Nat → Byte

/-- The read data of the `n`-th access answered with `herr = 1` (R63, U10: any value). A free value. Log 10. -/
opaque freeReadData : Nat → Word

end Config

end Sys2Proof
end

