-- ==== Sys2Proof/Syntax.lean ====
section
/-! DEFINITION. The instructions of this hardware: the six commands of BFE command set 1 (R82 of spec/30_encoding.md). -/

namespace Sys2Proof

/-- A command, one constructor per row of spec/opcode_table.json. -/
inductive Instr where
  /-- NOP (R186). -/
  | nop
  /-- SEND_IMAGE (R181). -/
  | sendImage
  /-- UPDATE_FW (R182). -/
  | updateFw
  /-- RAW_CMD k (R183); `k` is the command word's ARG field, R81. -/
  | rawCmd (k : BitVec 8)
  /-- ABORT (R184). -/
  | abort
  /-- QUIT (R185). -/
  | quit
deriving DecidableEq, Repr

end Sys2Proof
end

