-- ==== Sys2Proof/WellFormed.lean ====
section
/-! DEFINITION. The ARG constraints of R82: what makes a command one that a word can carry. -/

namespace Sys2Proof

/-- ARG of RAW_CMD is a count of at most 68 bytes (R82). -/
def rawCountOk (k : BitVec 8) : Bool := decide (k.toNat ≤ Config.rawCmdBytes)

/-- A command meets its row's ARG constraint (R82). Only RAW_CMD has an argument. -/
def wellFormed : Instr → Bool
  | .nop => true
  | .sendImage => true
  | .updateFw => true
  | .rawCmd k => rawCountOk k
  | .abort => true
  | .quit => true

end Sys2Proof
end

