-- ==== Sys2Proof/Decode.lean ====
section
/-! DEFINITION. Command words: fields (R81), decoding (R82, R83), encoding, and the opcode table as rows (R82). -/

namespace Sys2Proof

/-- OP, bits [3:0] (R81). -/
def opField (w : Word) : BitVec 4 := w.extractLsb' 0 4
/-- The reserved bits [7:4] (R81). -/
def reservedLow (w : Word) : BitVec 4 := w.extractLsb' 4 4
/-- ARG, bits [15:8] (R81). -/
def argField (w : Word) : BitVec 8 := w.extractLsb' 8 8
/-- The reserved bits [31:16] (R81). -/
def reservedHigh (w : Word) : BitVec 16 := w.extractLsb' 16 16

/-- The four kinds of illegal word of R83. -/
inductive IllegalWord where
  /-- w[7:4] ≠ 0 or w[31:16] ≠ 0. -/
  | reservedBitsSet
  /-- OP from 0x6 to 0xF. -/
  | opReserved
  /-- ARG ≠ 0 with an OP other than RAW_CMD. -/
  | argNotZero
  /-- RAW_CMD with ARG from 69 to 255. -/
  | rawCountTooLarge
deriving DecidableEq, Repr

/-- A command without an argument: ARG must be 0 (R82). -/
def plainCommand (arg : BitVec 8) (i : Instr) : Except IllegalWord Instr :=
  if arg = 0#8 then .ok i else .error .argNotZero

/-- The decoder (R81 to R83), total on all words. A word of several illegal kinds is named by the first that applies in
this order; the machine treats all four alike (R187). Log 25. -/
def decode (w : Word) : Except IllegalWord Instr :=
  if reservedLow w ≠ 0#4 ∨ reservedHigh w ≠ 0#16 then .error .reservedBitsSet
  else
    match (opField w).toNat with
    | 0 => plainCommand (argField w) .nop
    | 1 => plainCommand (argField w) .sendImage
    | 2 => plainCommand (argField w) .updateFw
    | 3 => if rawCountOk (argField w) then .ok (.rawCmd (argField w)) else .error .rawCountTooLarge
    | 4 => plainCommand (argField w) .abort
    | 5 => plainCommand (argField w) .quit
    | _ => .error .opReserved

/-- The OP of a command (R82). -/
def opOf : Instr → BitVec 4
  | .nop => 0x0#4
  | .sendImage => 0x1#4
  | .updateFw => 0x2#4
  | .rawCmd _ => 0x3#4
  | .abort => 0x4#4
  | .quit => 0x5#4

/-- The ARG of a command (R81, R82). -/
def argOf : Instr → BitVec 8
  | .nop => 0#8
  | .sendImage => 0#8
  | .updateFw => 0#8
  | .rawCmd k => k
  | .abort => 0#8
  | .quit => 0#8

/-- The command word of a command, from the field layout of R81, most significant field first. -/
def encode (i : Instr) : Word := 0#16 ++ argOf i ++ 0#4 ++ opOf i

/-- A row of the opcode table (R82): a word selects it when `w & mask = value`. -/
structure TableRow where
  value : Word
  mask  : Word
deriving DecidableEq, Repr

/-- The word selects the row (R82), the RAW_CMD bound apart. -/
def TableRow.selects (r : TableRow) (w : Word) : Bool := decide (w &&& r.mask = r.value)

/-- The row of a command (R82). -/
def rowOf : Instr → TableRow
  | .nop => ⟨0x00000000#32, 0xFFFFFFFF#32⟩
  | .sendImage => ⟨0x00000001#32, 0xFFFFFFFF#32⟩
  | .updateFw => ⟨0x00000002#32, 0xFFFFFFFF#32⟩
  | .rawCmd _ => ⟨0x00000003#32, 0xFFFF00FF#32⟩
  | .abort => ⟨0x00000004#32, 0xFFFFFFFF#32⟩
  | .quit => ⟨0x00000005#32, 0xFFFFFFFF#32⟩

/-- The six rows in the table's order (R82). -/
def opcodeTable : List TableRow :=
  [rowOf .nop, rowOf .sendImage, rowOf .updateFw, rowOf (.rawCmd 0#8), rowOf .abort, rowOf .quit]

/-- The command that the decoder reads from a word given by its bits as spec/opcode_table.json numbers them. Every command
is exactly one 32-bit word (R80), so bits above bit 31 make it no command. -/
def decodeTableWord (nbits w : Nat) : Option Instr :=
  if w % 2 ^ nbits < 2 ^ 32 then (decode (BitVec.ofNat 32 (w % 2 ^ nbits))).toOption else none

end Sys2Proof
end

