-- ==== Sys2Proof/Machine/State.lean ====
section
/-! DEFINITION. The machine's state (spec/10_state.md), the inputs of a clock cycle (R150), the reasons a step can stop, and
the state right after reset (R240). -/

namespace Sys2Proof.Machine

/-- PHASE, the Transfer Engine's state (R21). The encodings 6 and 7 are never written (U14) and have no constructor. -/
inductive Phase where
  | idle
  | sending
  | awaitAck
  | awaitFinalAck
  | complete
  | failed
deriving DecidableEq, Repr

/-- The three kinds of transfer that OPKIND names (R22); its fourth value NONE is `none` of `Option Kind`. -/
inductive Kind where
  | image
  | firmware
  | raw
deriving DecidableEq, Repr

/-- CHAN, the BFE's view of the Channel (R23). The encoding 3 is never written (U14) and has no constructor. -/
inductive Chan where
  | closed
  | opened
  | closing
deriving DecidableEq, Repr

/-- RESULT, the outcome of the last transfer (R37). The encodings 7 to 15 are never written (U14). -/
inductive ResultCode where
  | none
  | ok
  | connectionError
  | shortRead
  | timeout
  | invalidChunkBoundary
  | aborted
deriving DecidableEq, Repr

/-- CMD_ERR_CAUSE (R38, R215). The encodings 5 to 7 are never written (U14). -/
inductive Cause where
  | none
  | illegal
  | busy
  | failedState
  | length
deriving DecidableEq, Repr

/-- The written bytes of a store: address and byte, addresses strictly rising. An address that is not listed has not been
written since reset; what it reads as is a free value (`State.readByte`). Log 4. -/
abbrev Memory := List Host.Cell

/-- hsize (R150). -/
inductive Size where
  | byte
  | word
deriving DecidableEq, Repr

/-- A host bus access (R150): hwrite, hsize, haddr and, for a write, hwdata. -/
inductive HostAccess where
  | read (size : Size) (addr : BitVec 12)
  | write (size : Size) (addr : BitVec 12) (data : Word)
deriving DecidableEq, Repr

/-- A payload-port write (R61, R150): paddr and pwdata. -/
structure PayloadWrite where
  addr : Word
  data : Byte
deriving DecidableEq, Repr

/-- The inputs of one clock cycle (R150, R152): what the environment does in it. -/
structure CycleInput where
  /-- rst. -/
  rst : Bool
  /-- link_up. -/
  linkUp : Bool
  /-- The bytes of the device that enter RXQ, first to arrive first; they are there for this cycle's RX step (log 7). -/
  arriving : List Byte
  /-- tx_err. -/
  txErr : Bool
  /-- tx_ready. -/
  txReady : Bool
  /-- tick. -/
  tick : Bool
  /-- The host bus access of the cycle, if hsel is 1. -/
  host : Option HostAccess
  /-- The payload-port write of the cycle, if pwe is 1. -/
  payloadWrite : Option PayloadWrite
deriving DecidableEq, Repr

/-- The answer on the host bus (R150): herr, and hrdata of a read. -/
structure BusResponse where
  err  : Bool
  data : Option Word
deriving DecidableEq, Repr

/-- The whole state: engine registers, buffers, payload space, environment state (R20), and the model's own fields. -/
structure State where
  /-- PHASE (R21). -/
  phase : Phase
  /-- OPKIND (R22); `none` is NONE. -/
  opkind : Option Kind
  /-- CHAN (R23). -/
  chan : Chan
  /-- TOTAL_LEN (R24). -/
  totalLen : Word
  /-- OFFSET (R25). -/
  offset : Word
  /-- CHUNK_IDX (R26). -/
  chunkIdx : Word
  /-- CHUNK_LEN (R27). -/
  chunkLen : BitVec 14
  /-- LAST_CHUNK (R28). -/
  lastChunk : Bool
  /-- TX_POS (R29). -/
  txPos : BitVec 14
  /-- FRAME_LEN (R29). -/
  frameLen : BitVec 14
  /-- RX_STAGE (R30). -/
  rxStage : BitVec 2
  /-- RX_NEED (R31). -/
  rxNeed : BitVec 8
  /-- RX_GOT (R32). -/
  rxGot : BitVec 8
  /-- RX_TIMER (R33). -/
  rxTimer : Word
  /-- ACK_POS (R34). -/
  ackPos : BitVec 4
  /-- TX_COUNT (R35). -/
  txCount : Word
  /-- RX_COUNT (R36). -/
  rxCount : Word
  /-- RESULT (R37). -/
  result : ResultCode
  /-- CMD_ERR (R38). -/
  cmdErr : Bool
  /-- CMD_ERR_CAUSE (R38). -/
  cmdErrCause : Cause
  /-- ABORT_PENDING (R39). -/
  abortPending : Bool
  /-- FW_LEN (R40). -/
  fwLen : Word
  /-- RX_TIMEOUT (R41). -/
  rxTimeout : Word
  /-- RAW_RESP_LEN (R42). -/
  rawRespLen : BitVec 8
  /-- RAW_K (R42). -/
  rawK : BitVec 7
  /-- RAW_CMD_BUF (R43). -/
  rawCmdBuf : Memory
  /-- RAW_RESP_HDR (R44). -/
  rawRespHdr : Memory
  /-- ACK_BUF (R45). -/
  ackBuf : Memory
  /-- RAW_RESP_PAYLOAD (R46). -/
  rawRespPayload : Memory
  /-- PAYLOAD (R47). -/
  payload : Memory
  /-- link_up, the value of the last cycle (R48). -/
  linkUp : Bool
  /-- RXQ, oldest byte first (R48). -/
  rxq : List Byte
  /-- TXH, the wire TX history (R48). -/
  txh : List Byte
  /-- RXH, the wire RX history (R48). -/
  rxh : List Byte
  /-- The model's own: the inputs of the coming cycles, next first (log 1). -/
  inputs : List CycleInput
  /-- The model's own: the answer to the last cycle's host access, if it had one (log 12). -/
  busResp : Option BusResponse
  /-- The model's own: reset cycles so far; unwritten bytes are drawn anew at each (log 3). -/
  resets : Nat
  /-- The model's own: bus errors answered so far; each has read data of its own (log 10). -/
  busErrors : Nat
deriving DecidableEq, Repr

/-- A fault: an engine function was used outside the domain its rule gives it. No state that the invariant of Safety.lean
admits does this, and no state reached from reset. All are safe: the model stops where the spec says nothing (log 14). -/
inductive Fault where
  /-- Raised by the engine's TX and RX steps in a busy phase with OPKIND = NONE: R110, R116 and R144 name no such case. Safe. -/
  | noTransferKind
  /-- Raised by `frame_byte(p)` with p ≥ frame_len(): R116 defines it for 0 ≤ p < frame_len(). Safe. -/
  | positionOutsideFrame
  /-- Raised by the ack table for a (kind, phase, stage) that R95 gives no entry. Safe. -/
  | noAckRow
  /-- Raised by the engine's access to a byte outside its store (R43 to R47). Safe. -/
  | addressOutside
deriving DecidableEq, Repr

/-- A refusal: something the model does not admit. -/
inductive Refusal where
  /-- An instruction with no meaning in the model, by its mnemonic. No instruction has this. Safe. -/
  | notModelled (mnemonic : String)
  /-- Raised by a host access that R63 does not admit: "A model refuses a host program that makes an access that is not
  admitted" (U11). Safe. -/
  | accessNotAdmitted
  /-- Raised by a payload-port write below TOTAL_LEN during an image or firmware transfer (R244: "it refuses it"; U12). Safe. -/
  | payloadWriteDuringTransfer
  /-- Raised by a host write to RAW_CMD_BUF while a raw frame is being sent (R244, U12). Safe. -/
  | rawBufWriteWhileSending
deriving DecidableEq, Repr

/-- The machine right after reset (R240). The environment state of R48, which reset does not write, and the model's own
fields are at the values of logs 6 and 20. -/
def State.reset : State where
  phase := .idle
  opkind := none
  chan := .closing
  totalLen := 0
  offset := 0
  chunkIdx := 0
  chunkLen := 0
  lastChunk := false
  txPos := 0
  frameLen := 0
  rxStage := 0
  rxNeed := 0
  rxGot := 0
  rxTimer := 0
  ackPos := 0
  txCount := 0
  rxCount := 0
  result := .none
  cmdErr := false
  cmdErrCause := .none
  abortPending := false
  fwLen := 0
  rxTimeout := Config.rxTimeoutReset
  rawRespLen := 0
  rawK := 0
  rawCmdBuf := []
  rawRespHdr := []
  ackBuf := []
  rawRespPayload := []
  payload := []
  linkUp := false
  rxq := []
  txh := []
  rxh := []
  inputs := []
  busResp := none
  resets := 0
  busErrors := 0

end Sys2Proof.Machine
end

