-- ==== Sys2Proof/Machine/Ops.lean ====
section
/-! DEFINITION. The named operations: bytes of the five stores, failure and the return from it (R210, R222), the end of a
transfer (R147), acceptance and rejection of a command (R180, R214), reset (R240). -/

namespace Sys2Proof.Machine

/-! ### A store of bytes as a sorted list -/

/-- The byte written at an address, `none` where nothing has been written. -/
def Memory.get? : Memory → Nat → Option Byte
  | [], _ => none
  | (k, v) :: m, a => if k = a then some v else Memory.get? m a

/-- Write one byte, keeping the addresses strictly rising. -/
def Memory.write : Memory → Nat → Byte → Memory
  | [], a, b => [(a, b)]
  | (k, v) :: m, a, b =>
    if a < k then (a, b) :: (k, v) :: m
    else if a = k then (a, b) :: m
    else (k, v) :: Memory.write m a b

/-- The addresses are strictly rising and at least `lo`. -/
def Memory.wfFrom (lo : Nat) : Memory → Bool
  | [] => true
  | (k, _) :: m => decide (lo ≤ k) && Memory.wfFrom (k + 1) m

/-- The canonical form: addresses strictly rising. Log 4. -/
def Memory.wf (m : Memory) : Bool := Memory.wfFrom 0 m

/-! ### The five stores of R43 to R47 -/

/-- `a < PAYLOAD_BYTES` (R61). The first disjunct is implied by the second (R6) and lets small addresses be decided
without the open parameter; `inPayload_iff` in Laws/Memory.lean proves the two readings equal. -/
def inPayload (a : Nat) : Bool := decide (a < Config.imageBytes) || decide (a < Config.payloadBytes)

/-- `L > PAYLOAD_BYTES` (R180); `exceedsPayload_iff` in Laws/Memory.lean proves this reading equal to it. -/
def exceedsPayload (len : Nat) : Bool :=
  decide (Config.imageBytes < len) && decide (Config.payloadBytes < len)

/-- The address lies in the store (R43 to R47). -/
def Region.holds : Region → Nat → Bool
  | .payload, a => inPayload a
  | .rawCmdBuf, a => decide (a < Config.rawCmdBytes)
  | .rawRespHdr, a => decide (a < 4)
  | .ackBuf, a => decide (a < 12)
  | .rawRespPayload, a => decide (a < 255)

/-- The written bytes of a store. -/
def State.mem (s : State) : Region → Memory
  | .payload => s.payload
  | .rawCmdBuf => s.rawCmdBuf
  | .rawRespHdr => s.rawRespHdr
  | .ackBuf => s.ackBuf
  | .rawRespPayload => s.rawRespPayload

/-- The state with a store's written bytes replaced. -/
def State.setMem (s : State) (r : Region) (m : Memory) : State :=
  match r with
  | .payload => { s with payload := m }
  | .rawCmdBuf => { s with rawCmdBuf := m }
  | .rawRespHdr => { s with rawRespHdr := m }
  | .ackBuf => { s with ackBuf := m }
  | .rawRespPayload => { s with rawRespPayload := m }

/-- One byte of a store: the byte last written, or the free value of a byte not written since the last reset (R43 to
R47, U7, U8). Log 3. -/
def State.readByte (s : State) (r : Region) (a : Nat) : Byte :=
  (Memory.get? (s.mem r) a).getD (Config.freeByte r s.resets a)

/-- One byte of a store written. -/
def State.writeByte (s : State) (r : Region) (a : Nat) (b : Byte) : State :=
  s.setMem r (Memory.write (s.mem r) a b)

/-- The engine's read of a byte, `MemRead` of R8; an address outside the store is a fault (R60 has the engine never make
one). -/
def loadByte (r : Region) (a : Nat) (s : State) : Except Fault Byte :=
  if Region.holds r a then .ok (s.readByte r a) else .error .addressOutside

/-- The engine's write of a byte of a buffer, `BUF[i] <- b` of R8; an index outside the buffer is a fault. -/
def storeByte (r : Region) (a : Nat) (b : Byte) (s : State) : Except Fault State :=
  if Region.holds r a then .ok (s.writeByte r a b) else .error .addressOutside

/-! ### Failure, the end of a transfer, and the way out -/

/-- An operation is in flight, "busy" (R21). -/
def Phase.busy : Phase → Bool
  | .sending => true
  | .awaitAck => true
  | .awaitFinalAck => true
  | .idle => false
  | .complete => false
  | .failed => false

/-- PHASE ∈ {AWAIT_ACK, AWAIT_FINAL_ACK} (R143, R149). -/
def Phase.awaiting : Phase → Bool
  | .awaitAck => true
  | .awaitFinalAck => true
  | .idle => false
  | .sending => false
  | .complete => false
  | .failed => false

/-- `raise Fail(code)`, failure entry (R210): nothing else is saved or changed. -/
def fail (code : ResultCode) (s : State) : State :=
  { s with phase := .failed, result := code, abortPending := false }

/-- The way out of FAILED, and of the resting phases: what QUIT does (R185, R222). -/
def leaveSession (s : State) : State :=
  { s with
    phase := .idle
    opkind := none
    abortPending := false
    chan := if s.chan = .opened then .closing else s.chan }

/-- `finish(code)`: the transfer ends with the channel in step (R147). -/
def finish (code : ResultCode) (s : State) : State :=
  { s with phase := .complete, result := code, abortPending := false }

/-! ### Acceptance and rejection of a command -/

/-- `raise Reject(cause)` (R214). -/
def reject (cause : Cause) (s : State) : State :=
  { s with cmdErr := true, cmdErrCause := cause }

/-- An accepted command clears CMD_ERR and CMD_ERR_CAUSE (R180, R38). -/
def accept (s : State) : State :=
  { s with cmdErr := false, cmdErrCause := .none }

/-- Dispatch after the checks of R180: a command with a cause for rejection is rejected, any other is accepted and its
rule executed. -/
def runCommand (cause : Cause) (body : State → State) (s : State) : Host.Outcome State Fault Refusal :=
  match cause with
  | .none => .next (body (accept s))
  | .illegal => .next (reject .illegal s)
  | .busy => .next (reject .busy s)
  | .failedState => .next (reject .failedState s)
  | .length => .next (reject .length s)

/-! ### Reset -/

/-- The reset cycle (R240, R241): every register at its reset value, the buffers and the payload space unspecified anew.
The environment state of R48 is the transport's and stays (log 9). -/
def resetEvent (s : State) : State :=
  { State.reset with
    linkUp := s.linkUp
    rxq := s.rxq
    txh := s.txh
    rxh := s.rxh
    inputs := s.inputs
    resets := s.resets + 1
    busErrors := s.busErrors }

end Sys2Proof.Machine
end

