-- ==== Sys2Proof/Machine/Session.lean ====
section
/-! DEFINITION. The Session Controller's other commands: ABORT, QUIT, NOP (R184 to R186). -/

namespace Sys2Proof.Machine

/-- What an accepted ABORT does (R184): it is recorded only while an operation is in flight. -/
def requestAbort (s : State) : State :=
  if s.phase.busy then { s with abortPending := true } else s

/-- ABORT (R184): accepted in every phase. -/
def execAbort (s : State) : Host.Outcome State Fault Refusal := runCommand .none requestAbort s

/-- The check of R180 for QUIT: BUSY. -/
def quitCause (s : State) : Cause := if s.phase.busy then .busy else .none

/-- QUIT (R185). -/
def execQuit (s : State) : Host.Outcome State Fault Refusal := runCommand (quitCause s) leaveSession s

/-- NOP (R186): accepted in every phase, nothing beyond the acceptance. -/
def execNop (s : State) : Host.Outcome State Fault Refusal := runCommand .none id s

end Sys2Proof.Machine
end

