-- ==== Sys2Proof/Machine/Flags.lean ====
section
/-! DEFINITION. The numeric codes of the named values (R21 to R23, R37, R38), the host registers made of fields (R42, R52,
R53), and the computation of LAST_CHUNK and of the timeout code (R111, R212). -/

namespace Sys2Proof.Machine

/-- PHASE as its 3 bits (R21). -/
def Phase.code : Phase → BitVec 3
  | .idle => 0
  | .sending => 1
  | .awaitAck => 2
  | .awaitFinalAck => 3
  | .complete => 4
  | .failed => 5

/-- OPKIND as its 2 bits (R22). -/
def kindCode : Option Kind → BitVec 2
  | none => 0
  | some .image => 1
  | some .firmware => 2
  | some .raw => 3

/-- CHAN as its 2 bits (R23). -/
def Chan.code : Chan → BitVec 2
  | .closed => 0
  | .opened => 1
  | .closing => 2

/-- RESULT as its 4 bits (R37). -/
def ResultCode.code : ResultCode → BitVec 4
  | .none => 0
  | .ok => 1
  | .connectionError => 2
  | .shortRead => 3
  | .timeout => 4
  | .invalidChunkBoundary => 5
  | .aborted => 6

/-- CMD_ERR_CAUSE as its 3 bits (R38). -/
def Cause.code : Cause → BitVec 3
  | .none => 0
  | .illegal => 1
  | .busy => 2
  | .failedState => 3
  | .length => 4

/-- STATUS (R52), its fields from bit 31 down; LINK_UP is the live input. -/
def statusWord (s : State) : Word :=
  0#7 ++ BitVec.ofBool s.linkUp ++ 0#1 ++ s.cmdErrCause.code ++ 0#3 ++ BitVec.ofBool s.cmdErr ++ 0#2
    ++ BitVec.ofBool s.lastChunk ++ BitVec.ofBool s.abortPending ++ 0#2 ++ s.chan.code ++ 0#2
    ++ kindCode s.opkind ++ 0#1 ++ s.phase.code

/-- FRAMEPOS (R53), its fields from bit 31 down. -/
def framePosWord (s : State) : Word := 0#2 ++ s.frameLen ++ 0#2 ++ s.txPos

/-- RXSTAT (R53), its fields from bit 31 down. -/
def rxStatWord (s : State) : Word := 0#4 ++ s.ackPos ++ s.rxGot ++ s.rxNeed ++ 0#6 ++ s.rxStage

/-- RAWSTAT (R42), its fields from bit 31 down. -/
def rawStatWord (s : State) : Word := 0#9 ++ s.rawK ++ 0#8 ++ s.rawRespLen

/-- LAST_CHUNK of a chunk of `len` bytes (R28, R111): OFFSET + len = TOTAL_LEN. -/
def lastFlag (len : Nat) (s : State) : Bool := decide (s.offset + BitVec.ofNat 32 len = s.totalLen)

/-- The code of an expired stage (R212): TIMEOUT when the stage has received nothing, SHORT_READ otherwise. -/
def expiryCode (rxGot : BitVec 8) : ResultCode := if rxGot = 0 then .timeout else .shortRead

end Sys2Proof.Machine
end

