-- ==== Sys2Proof/Machine/Codec.lean ====
section
/-! DEFINITION. The Frame Codec (spec/40_frame_codec.md): partition, chunk length, firmware header, frame bytes, the ack
table (R95), and the inverse of the firmware frame. -/

namespace Sys2Proof.Machine

/-- `max(kind)` (R110). -/
def Kind.maxChunk : Kind → Nat
  | .image => Config.imageChunk
  | .firmware => Config.fwChunkMax
  | .raw => Config.rawCmdBytes

/-- `ceil(a / b)` for b > 0 (R7). -/
def ceilDiv (a b : Nat) : Nat := (a + b - 1) / b

/-- `partition(kind, L)`, the chunk lengths of a payload of L bytes (R110). -/
def partition (k : Kind) (len : Nat) : List Nat :=
  match ceilDiv len k.maxChunk with
  | 0 => []
  | n + 1 => List.replicate n k.maxChunk ++ [len - n * k.maxChunk]

/-- `chunk_len()`, the length of the next chunk (R111); the 32-bit difference is that of R7. -/
def chunkLenOf (k : Kind) (s : State) : Nat := min k.maxChunk (s.totalLen - s.offset).toNat

/-- `magic1(len)`, the first magic byte of a firmware frame (R113). -/
def magic1 (len : Nat) : Byte := if len = Config.fwChunkMax then Config.magicBusy else Config.magicTerm

/-- A 32-bit value as four bytes, least significant first (R65). -/
def le32 (v : Word) : List Byte :=
  [v.extractLsb' 0 8, v.extractLsb' 8 8, v.extractLsb' 16 8, v.extractLsb' 24 8]

/-- `fw_header(len)`, the eight header bytes of a firmware frame (R114, R88). -/
def fwHeader (len : Nat) : List Byte :=
  [magic1 len, magic1 len, Config.magicTail, Config.magicTail] ++ le32 (BitVec.ofNat 32 (len + Config.fwHdrBytes))

/-- `frame_len()` (R116), from the chunk's length. -/
def frameLenOf (k : Kind) (chunkLen : BitVec 14) : BitVec 14 :=
  match k with
  | .image => chunkLen
  | .firmware => chunkLen + BitVec.ofNat 14 Config.fwHdrBytes
  | .raw => BitVec.ofNat 14 Config.rawCmdBytes

/-- `raw_byte(p)` (R117): the buffer's byte below RAW_K, zero from there on. -/
def rawByte (p : Nat) (s : State) : Except Fault Byte :=
  if p < s.rawK.toNat then loadByte .rawCmdBuf p s else .ok 0

/-- The payload offset `OFFSET + p`, a 32-bit sum (R116, R7). -/
def payloadAddr (s : State) (p : Nat) : Nat := (s.offset + BitVec.ofNat 32 p).toNat

/-- `frame_byte(p)`, byte p of the current frame (R116), defined for p < frame_len(). -/
def frameByte (k : Kind) (p : Nat) (s : State) : Except Fault Byte :=
  if p < (frameLenOf k s.chunkLen).toNat then
    match k with
    | .image => loadByte .payload (payloadAddr s p) s
    | .firmware =>
      match (fwHeader s.chunkLen.toNat)[p]? with
      | some b => .ok b
      | none => loadByte .payload (payloadAddr s (p - Config.fwHdrBytes)) s
    | .raw => rawByte p s
  else .error .positionOutsideFrame

/-- `ack_len(kind, phase, stage)`, the ack table (R95, R92 to R94); `none` where the table has no entry. -/
def ackLen (k : Kind) (ph : Phase) (stage : Nat) (rawRespLen : BitVec 8) : Option (BitVec 8) :=
  match ph with
  | .awaitAck =>
    match k, stage with
    | .image, 0 => some 5
    | .image, 1 => some 2
    | .firmware, 0 => some 5
    | .firmware, 1 => some 2
    | .raw, 0 => some 4
    | .raw, 1 => some 1
    | .raw, 2 => if rawRespLen = 0 then none else some rawRespLen
    | _, _ => none
  | .awaitFinalAck =>
    match k, stage with
    | .image, 0 => some 5
    | .image, 1 => some 7
    | _, _ => none
  | .idle => none
  | .sending => none
  | .complete => none
  | .failed => none

/-- `ack_stages(kind, phase)` (R95). -/
def ackStages (k : Kind) (ph : Phase) (rawRespLen : BitVec 8) : Option Nat :=
  match ph with
  | .awaitAck =>
    match k with
    | .image => some 2
    | .firmware => some 2
    | .raw => some (if rawRespLen = 0 then 2 else 3)
  | .awaitFinalAck =>
    match k with
    | .image => some 2
    | .firmware => none
    | .raw => none
  | .idle => none
  | .sending => none
  | .complete => none
  | .failed => none

/-! ### The inverse of the firmware frame, and what a whole transfer puts on the wire -/

/-- A firmware frame of a payload slice: header and payload (R88). -/
def fwFrame (slice : List Byte) : List Byte := fwHeader slice.length ++ slice

/-- What `decode_fw_frame` gives for a valid frame (R119). -/
structure FwFrame where
  last    : Bool
  size    : Nat
  payload : List Byte
deriving DecidableEq, Repr

/-- `decode_fw_frame(bytes)` (R119); `none` is valid = false. -/
def decodeFwFrame (f : List Byte) : Option FwFrame :=
  match f with
  | m0 :: m1 :: m2 :: m3 :: s0 :: s1 :: s2 :: s3 :: rest =>
    let size := (s3 ++ s2 ++ s1 ++ s0 : BitVec 32).toNat
    if m0 = m1 ∧ (m0 = Config.magicBusy ∨ m0 = Config.magicTerm) ∧ m2 = Config.magicTail ∧ m3 = Config.magicTail
        ∧ 9 ≤ size ∧ size ≤ 8192 ∧ f.length = size ∧ (m0 = Config.magicBusy ↔ size = 8192) then
      some { last := decide (m0 = Config.magicTerm), size := size, payload := rest }
    else none
  | _ => none

/-- The TX bytes of a completed transfer of L payload bytes (R120). -/
def wireTxTotal (k : Kind) (len : Nat) : Nat :=
  match k with
  | .image => len
  | .firmware => len + Config.fwHdrBytes * ceilDiv len Config.fwChunkMax
  | .raw => Config.rawCmdBytes

/-- The RX bytes of a completed transfer of L payload bytes with raw response length N (R120). -/
def wireRxTotal (k : Kind) (len respLen : Nat) : Nat :=
  match k with
  | .image => 7 * ceilDiv len Config.imageChunk + 12
  | .firmware => 7 * ceilDiv len Config.fwChunkMax
  | .raw => 4 + 1 + respLen

end Sys2Proof.Machine
end

