-- ==== Sys2Proof/Machine/Engine.lean ====
section
/-! DEFINITION. The Transfer Engine (spec/41_transfer_engine.md): its outputs, TX step, RX step, tick, and the continuations
they invoke; the link events and the transport error (spec/60_exceptions.md). -/

namespace Sys2Proof.Machine

/-! ### Outputs (R151) -/

/-- `tx_valid`. -/
def txValid (s : State) : Bool := decide (s.phase = .sending) && decide (s.chan = .opened)

/-- `rx_ready`. -/
def rxReady (s : State) : Bool :=
  s.phase.awaiting && decide (s.chan = .opened) && decide (s.rxGot.toNat < s.rxNeed.toNat)

/-- `close_req`. -/
def closeReq (s : State) : Bool := decide (s.chan = .closing)

/-- `tx_data`: `frame_byte(TX_POS)` when tx_valid = 1; otherwise any value and not sampled (R151, U18), so none is given.
Log 17. -/
def txData (s : State) : Option Byte :=
  if txValid s then s.opkind.bind fun k => (frameByte k s.txPos.toNat s).toOption else none

/-! ### Ack sequences and stages -/

/-- `begin_stage(st)` (R142). -/
def beginStage (k : Kind) (st : Nat) (s : State) : Except Fault State :=
  match ackLen k s.phase st s.rawRespLen with
  | some n =>
    .ok { s with rxStage := BitVec.ofNat 2 st, rxNeed := n, rxGot := 0, rxTimer := s.rxTimeout }
  | none => .error .noAckRow

/-- `begin_sequence(ph)` (R142). -/
def beginSequence (k : Kind) (ph : Phase) (s : State) : Except Fault State :=
  beginStage k 0 { s with phase := ph, ackPos := 0 }

/-- `frame_sent()` (R141). -/
def frameSent (k : Kind) (s : State) : Except Fault State := beginSequence k .awaitAck s

/-! ### Chunks -/

/-- The length check of chunk setup (R148): `len = 0 or len > max(OPKIND)`. -/
def badChunkLen (k : Kind) (len : Nat) : Bool := decide (len = 0) || decide (k.maxChunk < len)

/-- `setup_chunk()` (R148). -/
def setupChunk (k : Kind) (s : State) : State :=
  let len := chunkLenOf k s
  if badChunkLen k len then fail .invalidChunkBoundary s
  else
    { s with
      chunkLen := BitVec.ofNat 14 len
      lastChunk := lastFlag len s
      frameLen := frameLenOf k (BitVec.ofNat 14 len)
      txPos := 0
      phase := .sending }

/-- The progress registers move past the acknowledged chunk (R146, R25, R26). -/
def ackChunk (s : State) : State :=
  { s with offset := s.offset + s.chunkLen.setWidth 32, chunkIdx := s.chunkIdx + 1 }

/-- After a chunk's ack, the progress registers already moved on (R146): a raw transfer ends; after the last chunk an image
reads its final ack and a firmware ends; otherwise a pending abort ends the transfer or the next chunk is set up. -/
def chunkAcked (k : Kind) (s : State) : Except Fault State :=
  if k = .raw then .ok (finish .ok s)
  else if s.offset = s.totalLen then
    if k = .image then beginSequence k .awaitFinalAck s else .ok (finish .ok s)
  else if s.abortPending then .ok (finish .aborted s)
  else .ok (setupChunk k s)

/-- `sequence_done()` (R146). -/
def sequenceDone (k : Kind) (s : State) : Except Fault State :=
  if s.phase = .awaitFinalAck then .ok (finish .ok s) else chunkAcked k (ackChunk s)

/-- `stage_done()` (R145). -/
def stageDone (k : Kind) (s : State) : Except Fault State :=
  match ackStages k s.phase s.rawRespLen with
  | some n => if s.rxStage.toNat + 1 < n then beginStage k (s.rxStage.toNat + 1) s else sequenceDone k s
  | none => .error .noAckRow

/-! ### The TX step -/

/-- The byte is handed to the transport: `TxEmit` and the counters (R140). -/
def emitByte (b : Byte) (s : State) : State :=
  { s with txh := s.txh ++ [b], txCount := s.txCount + 1, txPos := s.txPos + 1 }

/-- The TX step (R140). -/
def txStep (k : Kind) (s : State) : Except Fault State :=
  match frameByte k s.txPos.toNat s with
  | .error f => .error f
  | .ok b =>
    let t := emitByte b s
    if t.txPos = t.frameLen then frameSent k t else .ok t

/-- The TX step of a cycle (R140, R220): taken when the byte was handshaken with the start-of-cycle outputs
(`handshake`) and the step's guard still holds. -/
def txEvent (handshake : Bool) (s : State) : Except Fault State :=
  if handshake && txValid s then
    match s.opkind with
    | some k => txStep k s
    | none => .error .noTransferKind
  else .ok s

/-! ### The RX step -/

/-- `store_ack_byte(b)` (R144). -/
def storeAckByte (k : Kind) (b : Byte) (s : State) : Except Fault State :=
  match k with
  | .image => storeByte .ackBuf s.ackPos.toNat b { s with ackPos := s.ackPos + 1 }
  | .firmware => storeByte .ackBuf s.ackPos.toNat b { s with ackPos := s.ackPos + 1 }
  | .raw =>
    match s.rxStage.toNat with
    | 0 => storeByte .rawRespHdr s.rxGot.toNat b s
    | 1 => .ok { s with rawRespLen := b }
    | 2 => storeByte .rawRespPayload s.rxGot.toNat b s
    | _ => .error .noAckRow

/-- The byte is taken from the transport: `RxTake` and the byte count (R143). -/
def takeByte (b : Byte) (rest : List Byte) (s : State) : State :=
  { s with rxq := rest, rxh := s.rxh ++ [b], rxCount := s.rxCount + 1 }

/-- RX_GOT counts the byte, and a stage with all its bytes is done (R143). -/
def countByte (k : Kind) (s : State) : Except Fault State :=
  let t := { s with rxGot := s.rxGot + 1 }
  if t.rxGot = t.rxNeed then stageDone k t else .ok t

/-- The RX step (R143). -/
def rxStep (k : Kind) (b : Byte) (rest : List Byte) (s : State) : Except Fault State :=
  match storeAckByte k b (takeByte b rest s) with
  | .error f => .error f
  | .ok t => countByte k t

/-- The RX step of a cycle (R143, R220): taken when rx_ready was 1 at the start of the cycle (`ready`), RXQ is not empty,
and the step's guard still holds. -/
def rxEvent (ready : Bool) (s : State) : Except Fault State :=
  match s.rxq with
  | [] => .ok s
  | b :: rest =>
    if ready && rxReady s then
      match s.opkind with
      | some k => rxStep k b rest s
      | none => .error .noTransferKind
    else .ok s

/-! ### The tick, the link and the transport error -/

/-- The tick step (R149, R212). -/
def tickStep (s : State) : State :=
  if s.phase.awaiting then
    if s.rxTimer = 0 then fail (expiryCode s.rxGot) s else { s with rxTimer := s.rxTimer - 1 }
  else s

/-- The tick of a cycle. -/
def tickEvent (tick : Bool) (s : State) : State := if tick then tickStep s else s

/-- Link loss and close completion (R218); the transport's part, the emptied RXQ, is `environmentEvent`. -/
def linkDown (s : State) : State :=
  match s.chan with
  | .opened =>
    if s.phase.busy then fail .connectionError { s with chan := .closed } else { s with chan := .closed }
  | .closing => { s with chan := .closed }
  | .closed => s

/-- Link open (R219). -/
def linkOpen (s : State) : State :=
  if s.chan = .closed ∧ s.phase ≠ .failed then { s with chan := .opened } else s

/-- The link event of a cycle (R220). -/
def linkEvent (s : State) : State := if s.linkUp then linkOpen s else linkDown s

/-- The transport error of a cycle (R216). -/
def txErrEvent (txErr : Bool) (s : State) : State :=
  if txErr && decide (s.phase = .sending) then fail .connectionError s else s

end Sys2Proof.Machine
end

