-- ==== Sys2Proof/Machine/Transfer.lean ====
section
/-! DEFINITION. The commands that start a transfer: SEND_IMAGE, UPDATE_FW, RAW_CMD (R180 to R183, R188). -/

namespace Sys2Proof.Machine

/-- The fresh TransferState that an accepted transfer command loads (R188). -/
def freshTransfer (k : Kind) (total : Word) (s : State) : State :=
  { s with
    opkind := some k
    totalLen := total
    offset := 0
    chunkIdx := 0
    chunkLen := 0
    lastChunk := false
    txPos := 0
    frameLen := 0
    rxStage := 0
    rxNeed := 0
    rxGot := 0
    rxTimer := 0
    ackPos := 0
    txCount := 0
    rxCount := 0
    result := .none
    abortPending := false }

/-- `start_transfer(kind, total)` (R188). -/
def startTransfer (k : Kind) (total : Word) (s : State) : State :=
  let t := freshTransfer k total s
  if t.chan ≠ .opened then fail .connectionError t
  else if total = 0 then finish .ok t
  else setupChunk k t

/-- The checks of R180 that every transfer command makes: BUSY, then FAILED_STATE. -/
def transferCause (s : State) : Cause :=
  if s.phase.busy then .busy else if s.phase = .failed then .failedState else .none

/-- The checks of R180 for UPDATE_FW: those of every transfer command, then LENGTH. -/
def updateFwCause (s : State) : Cause :=
  if transferCause s = .none ∧ exceedsPayload s.fwLen.toNat = true then .length else transferCause s

/-- The checks of R180 for RAW_CMD k: ILLEGAL for a count above 68 (R183, R187), then those of every transfer command. -/
def rawCmdCause (k : BitVec 8) (s : State) : Cause :=
  if rawCountOk k then transferCause s else .illegal

/-- SEND_IMAGE (R181). -/
def execSendImage (s : State) : Host.Outcome State Fault Refusal :=
  runCommand (transferCause s) (startTransfer .image (BitVec.ofNat 32 Config.imageBytes)) s

/-- UPDATE_FW (R182): FW_LEN is read once, here. -/
def execUpdateFw (s : State) : Host.Outcome State Fault Refusal :=
  runCommand (updateFwCause s) (startTransfer .firmware s.fwLen) s

/-- What an accepted RAW_CMD k does (R183): RAW_K and RAW_RESP_LEN, then the transfer. -/
def startRaw (k : BitVec 8) (s : State) : State :=
  startTransfer .raw (BitVec.ofNat 32 Config.rawCmdBytes) { s with rawK := k.setWidth 7, rawRespLen := 0 }

/-- RAW_CMD k (R183). -/
def execRawCmd (k : BitVec 8) (s : State) : Host.Outcome State Fault Refusal :=
  runCommand (rawCmdCause k s) (startRaw k) s

end Sys2Proof.Machine
end

