-- ==== Sys2Proof/Machine/Dispatch.lean ====
section
/-! DEFINITION. One arm per command (R180). -/

namespace Sys2Proof.Machine

def exec (i : Instr) (s : State) : Host.Outcome State Fault Refusal :=
  match i with
  | .nop => Sys2Proof.Machine.execNop s
  | .sendImage => Sys2Proof.Machine.execSendImage s
  | .updateFw => Sys2Proof.Machine.execUpdateFw s
  | .rawCmd k => Sys2Proof.Machine.execRawCmd k s
  | .abort => Sys2Proof.Machine.execAbort s
  | .quit => Sys2Proof.Machine.execQuit s

end Sys2Proof.Machine
end

