-- ==== Sys2Proof/Machine/Operands.lean ====
section
/-! DEFINITION. The operands of the host bus: which register, byte or word an access names (R51, R63), what it reads (R51 to
R54, R66, R189) and how a word falls into bytes (R66). -/

namespace Sys2Proof.Machine

/-- The host registers of R51, in the order of their offsets. -/
inductive Reg where
  | cmd
  | status
  | result
  | totalLen
  | offset
  | chunkIdx
  | chunkLen
  | framePos
  | rxStat
  | rxTimer
  | txCount
  | rxCount
  | fwLen
  | rxTimeout
  | rawStat
deriving DecidableEq, Repr

/-- The register at a byte offset (R51). -/
def regAt? : Nat → Option Reg
  | 0x000 => some .cmd
  | 0x004 => some .status
  | 0x008 => some .result
  | 0x00C => some .totalLen
  | 0x010 => some .offset
  | 0x014 => some .chunkIdx
  | 0x018 => some .chunkLen
  | 0x01C => some .framePos
  | 0x020 => some .rxStat
  | 0x024 => some .rxTimer
  | 0x028 => some .txCount
  | 0x02C => some .rxCount
  | 0x030 => some .fwLen
  | 0x034 => some .rxTimeout
  | 0x038 => some .rawStat
  | _ => none

/-- The host offset of a buffer's first byte and the buffer's length (R43 to R46, R51). The payload space is not in the
host register space (R61, R62). -/
def hostBuffers : List (Region × Nat × Nat) :=
  [(.rawCmdBuf, 0x040, 68), (.rawRespHdr, 0x088, 4), (.ackBuf, 0x090, 12), (.rawRespPayload, 0x100, 255)]

/-- The buffer that `n` bytes from offset `a` lie wholly inside, with the index of the first (R63). -/
def bufferAt? (a n : Nat) : Option (Region × Nat) :=
  (hostBuffers.find? fun b => decide (b.2.1 ≤ a) && decide (a + n ≤ b.2.1 + b.2.2)).map
    fun b => (b.1, a - b.2.1)

/-- What an admitted access names (R63): a register, a byte of a buffer, or a word of a buffer from an index on. -/
inductive Target where
  | reg (r : Reg)
  | byte (r : Region) (i : Nat)
  | word (r : Region) (i : Nat)
deriving DecidableEq, Repr

/-- What an access names; `none` where R63 does not admit it. -/
def target? (size : Size) (addr : BitVec 12) : Option Target :=
  match size with
  | .byte => (bufferAt? addr.toNat 1).map fun p => .byte p.1 p.2
  | .word =>
    if addr.toNat % 4 = 0 then
      match regAt? addr.toNat with
      | some r => some (.reg r)
      | none => (bufferAt? addr.toNat 4).map fun p => .word p.1 p.2
    else none

/-- The target of a bus access (R63). -/
def HostAccess.target? : HostAccess → Option Target
  | .read size addr => Machine.target? size addr
  | .write size addr _ => Machine.target? size addr

/-- What a register reads as (R51 to R54): bits that no field names read 0, CMD reads 0. -/
def regRead (r : Reg) (s : State) : Word :=
  match r with
  | .cmd => 0
  | .status => statusWord s
  | .result => s.result.code.setWidth 32
  | .totalLen => s.totalLen
  | .offset => s.offset
  | .chunkIdx => s.chunkIdx
  | .chunkLen => s.chunkLen.setWidth 32
  | .framePos => framePosWord s
  | .rxStat => rxStatWord s
  | .rxTimer => s.rxTimer
  | .txCount => s.txCount
  | .rxCount => s.rxCount
  | .fwLen => s.fwLen
  | .rxTimeout => s.rxTimeout
  | .rawStat => rawStatWord s

/-- Byte lane `j` of a word: bits [8j+7:8j] (R66). -/
def lane (w : Word) (j : Nat) : Byte := w.extractLsb' (8 * j) 8

/-- hrdata of a read (R189): a register's value, a byte in bits [7:0], a little-endian word of four bytes (R66). -/
def targetRead (t : Target) (s : State) : Word :=
  match t with
  | .reg r => regRead r s
  | .byte r i => (s.readByte r i).setWidth 32
  | .word r i => s.readByte r (i + 3) ++ s.readByte r (i + 2) ++ s.readByte r (i + 1) ++ s.readByte r i

/-- Four bytes of a buffer written from a word, byte `i + j` from lane `j` (R66). -/
def writeWord (r : Region) (i : Nat) (w : Word) (s : State) : State :=
  (((s.writeByte r i (lane w 0)).writeByte r (i + 1) (lane w 1)).writeByte r (i + 2) (lane w 2)).writeByte r (i + 3) (lane w 3)

end Sys2Proof.Machine
end

