-- ==== Sys2Proof/Machine/HostBus.lean ====
section
/-! DEFINITION. The host's side of a cycle: command dispatch (R180, R187), register and buffer accesses (R189, R190), the bus
error (R63), the payload port (R61), and the accesses that the spec tells a model to refuse (R63, R244). -/

namespace Sys2Proof.Machine

/-- A word written to CMD (R180): an illegal word is rejected (R187), a legal one runs its command. -/
def dispatch (w : Word) (s : State) : Host.Outcome State Fault Refusal :=
  match decode w with
  | .ok i => exec i s
  | .error _ => .next (reject .illegal s)

/-- A host write of an admitted target (R190, R54): CMD dispatches, FW_LEN and RX_TIMEOUT take the data, RAW_CMD_BUF takes its
bytes, everything else is read-only. A byte write takes bits [7:0] (log 13). -/
def hostWrite (t : Target) (data : Word) (s : State) : Host.Outcome State Fault Refusal :=
  match t with
  | .reg .cmd => dispatch data s
  | .reg .fwLen => .next { s with fwLen := data }
  | .reg .rxTimeout => .next { s with rxTimeout := data }
  | .byte .rawCmdBuf i => .next (s.writeByte .rawCmdBuf i (lane data 0))
  | .word .rawCmdBuf i => .next (writeWord .rawCmdBuf i data s)
  | .reg _ => .next s
  | .byte _ _ => .next s
  | .word _ _ => .next s

/-- The bus error (R63): herr = 1, read data of any value, and no state changed. Log 10. -/
def busError (a : HostAccess) (s : State) : State :=
  match a with
  | .read _ _ =>
    { s with busResp := some ⟨true, some (Config.freeReadData s.busErrors)⟩, busErrors := s.busErrors + 1 }
  | .write _ _ _ => { s with busResp := some ⟨true, none⟩, busErrors := s.busErrors + 1 }

/-- What the hardware does on a host access (R63, R189, R190): an access that is not admitted gets a bus error. -/
def busAccess (a : HostAccess) (s : State) : Host.Outcome State Fault Refusal :=
  match a.target?, a with
  | some t, .read _ _ => .next { s with busResp := some ⟨false, some (targetRead t s)⟩ }
  | some t, .write _ _ data => hostWrite t data { s with busResp := some ⟨false, none⟩ }
  | none, _ => .next (busError a s)

/-- The target is a byte or word of RAW_CMD_BUF. -/
def Target.inRawCmdBuf : Target → Bool
  | .byte .rawCmdBuf _ => true
  | .word .rawCmdBuf _ => true
  | _ => false

/-- RAW_CMD_BUF must not be written: OPKIND = RAW and PHASE = SENDING (R244). -/
def rawBufLocked (s : State) : Bool := decide (s.opkind = some .raw) && decide (s.phase = .sending)

/-- A payload offset that must not be written: below TOTAL_LEN during an image or firmware transfer (R244). -/
def payloadLocked (a : Word) (s : State) : Bool :=
  (decide (s.opkind = some .image) || decide (s.opkind = some .firmware)) && s.phase.busy
    && decide (a.toNat < s.totalLen.toNat)

/-- Why a model does not admit a host access in this state, if it does not: R63 (not an admitted access), R244 (a hazard).
Log 11. -/
def accessRefusal? (a : HostAccess) (s : State) : Option Refusal :=
  match a.target?, a with
  | none, _ => some .accessNotAdmitted
  | some t, .write _ _ _ => if t.inRawCmdBuf && rawBufLocked s then some .rawBufWriteWhileSending else none
  | some _, .read _ _ => none

/-- The host bus access of a cycle (R220). -/
def hostEvent (access : Option HostAccess) (s : State) : Host.Outcome State Fault Refusal :=
  match access with
  | none => .next s
  | some a =>
    match accessRefusal? a s with
    | some r => .refused r
    | none => busAccess a s

/-- What the hardware does on a payload-port write (R61): outside the payload space nothing changes. -/
def payloadPort (w : PayloadWrite) (s : State) : State :=
  if inPayload w.addr.toNat then s.writeByte .payload w.addr.toNat w.data else s

/-- The payload-port write of a cycle (R220), refused where R244 tells a model to. Log 11. -/
def payloadEvent (write : Option PayloadWrite) (s : State) : Host.Outcome State Fault Refusal :=
  match write with
  | none => .next s
  | some w => if payloadLocked w.addr s then .refused .payloadWriteDuringTransfer else .next (payloadPort w s)

end Sys2Proof.Machine
end

