-- ==== Sys2Proof/Machine/Cycle.lean ====
section
/-! DEFINITION. One clock cycle: the environment's inputs and then the events in the order of R220. -/

namespace Sys2Proof.Machine

/-- A cycle in which the environment does nothing: no reset, no byte, no tick, no access, the link as it was. -/
def quietInput (linkUp : Bool) : CycleInput where
  rst := false
  linkUp := linkUp
  arriving := []
  txErr := false
  txReady := false
  tick := false
  host := none
  payloadWrite := none

/-- The inputs of the next cycle: the next of the list, a quiet cycle when the list is at its end. Log 1. -/
def nextInput (s : State) : CycleInput :=
  match s.inputs with
  | [] => quietInput s.linkUp
  | i :: _ => i

/-- The state with the next cycle's inputs consumed, and no answer on the bus yet. -/
def consumeInput (s : State) : State := { s with inputs := s.inputs.tail, busResp := none }

/-- The transport's part of a cycle (R48, R152): link_up takes its value; with the link up the arriving bytes join RXQ, with
the link down RXQ is empty. Logs 7 and 8. -/
def environmentEvent (inp : CycleInput) (s : State) : State :=
  { s with linkUp := inp.linkUp, rxq := if inp.linkUp then s.rxq ++ inp.arriving else [] }

/-- Events 2 to 6 of R220 on the state at the start of the cycle: link, transport error, RX step, TX step, tick. The
handshakes are computed from that state (R151), and a byte is not sent with tx_err = 1. -/
def engineEvents (inp : CycleInput) (s : State) : Except Fault State :=
  match rxEvent (rxReady s) (txErrEvent inp.txErr (linkEvent s)) with
  | .error f => .error f
  | .ok a =>
    match txEvent (txValid s && inp.txReady && !inp.txErr) a with
    | .error f => .error f
    | .ok b => .ok (tickEvent inp.tick b)

/-- Events 7 and 8 of R220: the host bus access, then the payload-port write. -/
def hostEvents (inp : CycleInput) (s : State) : Host.Outcome State Fault Refusal :=
  match hostEvent inp.host s with
  | .next t => payloadEvent inp.payloadWrite t
  | .fault f => .fault f
  | .refused r => .refused r

/-- A clock cycle with the given inputs (R220). Reset is first, and nothing of the BFE's happens beside it. -/
def cycle (inp : CycleInput) (s : State) : Host.Outcome State Fault Refusal :=
  let s0 := environmentEvent inp s
  if inp.rst then .next (resetEvent s0)
  else
    match engineEvents inp s0 with
    | .error f => .fault f
    | .ok s6 => hostEvents inp s6

end Sys2Proof.Machine
end

