-- ==== Sys2Proof/Machine/HostProgram.lean ====
section
/-! DEFINITION. Host programs (R84, R85): the lines of the host assembler and its pseudo-instructions, as the accesses they
make. -/

namespace Sys2Proof.Machine

/-- A line of a host program (R84). -/
inductive HostLine where
  /-- `wr OFFSET, VALUE`: a 4-byte host write. -/
  | wr (offset : BitVec 12) (value : Word)
  /-- `wrb OFFSET, VALUE`: a 1-byte host write to a buffer. -/
  | wrb (offset : BitVec 12) (value : Byte)
  /-- `rd OFFSET`: a 4-byte host read. -/
  | rd (offset : BitVec 12)
  /-- `rdb OFFSET`: a 1-byte host read. -/
  | rdb (offset : BitVec 12)
  /-- `pw ADDR, BYTE`: a payload-port write. -/
  | pw (addr : Word) (value : Byte)
deriving DecidableEq, Repr

/-- The line's access put into a cycle, the cycle's other inputs as they are. -/
def HostLine.drive (l : HostLine) (inp : CycleInput) : CycleInput :=
  match l with
  | .wr o v => { inp with host := some (.write .word o v) }
  | .wrb o v => { inp with host := some (.write .byte o (v.setWidth 32)) }
  | .rd o => { inp with host := some (.read .word o) }
  | .rdb o => { inp with host := some (.read .byte o) }
  | .pw a v => { inp with payloadWrite := some ⟨a, v⟩ }

/-- A command written as its mnemonic stands for the write of its word to CMD (R84). -/
def commandLine (i : Instr) : HostLine := .wr 0x000 (encode i)

/-- `send_image` (R85). -/
def sendImageLines : List HostLine := [commandLine .sendImage]

/-- `update_fw L` (R85). -/
def updateFwLines (len : Word) : List HostLine := [.wr 0x030 len, commandLine .updateFw]

/-- The byte writes of `raw` from index `i` on (R85). -/
def rawByteLines (i : Nat) : List Byte → List HostLine
  | [] => []
  | b :: bs => .wrb (BitVec.ofNat 12 (0x040 + i)) b :: rawByteLines (i + 1) bs

/-- `raw b0 … b(k−1)` (R85), for at most 68 bytes. -/
def rawLines (bs : List Byte) : List HostLine :=
  rawByteLines 0 bs ++ [commandLine (.rawCmd (BitVec.ofNat 8 bs.length))]

/-- `abort` (R85). -/
def abortLines : List HostLine := [commandLine .abort]

/-- `quit` (R85). -/
def quitLines : List HostLine := [commandLine .quit]

/-- `load_payload a, b0 … bn` (R85). -/
def loadPayloadLines (a : Word) : List Byte → List HostLine
  | [] => []
  | b :: bs => .pw a b :: loadPayloadLines (a + 1) bs

/-- `wait_idle` (R85) repeats `rd STATUS`: the line it repeats. -/
def waitIdleLine : HostLine := .rd 0x004

/-- `wait_idle` (R85) ends when STATUS[2:0] ∉ {1, 2, 3}. -/
def waitIdleDone (status : Word) : Bool :=
  let p := status.extractLsb' 0 3
  !(decide (p = 1) || decide (p = 2) || decide (p = 3))

end Sys2Proof.Machine
end

