-- ==== Sys2Proof/Machine/Step.lean ====
section
/-! DEFINITION. One step of the machine is one clock cycle (R220), with the inputs that State holds for it (log 1). -/

namespace Sys2Proof.Machine

/-- One clock cycle. -/
def step (s : State) : Host.Outcome State Fault Refusal := cycle (nextInput s) (consumeInput s)

/-- The state whose next cycle brings the host write of the word `w` to CMD, with the link as it is and nothing else: that
is how a command comes to run (R80). The bits above `nbits` are zero. Log 2. -/
def State.withFetchWord (s : State) (nbits w : Nat) : State :=
  { s with
    inputs := (HostLine.wr 0x000 (BitVec.ofNat 32 (w % 2 ^ nbits))).drive (quietInput s.linkUp) :: s.inputs }

end Sys2Proof.Machine
end

