-- ==== Sys2Proof/Machine/Run.lean ====
section
/-! DEFINITION. Runs of one operation and of a session (R252), and what the caller gets back from one (R191). -/

namespace Sys2Proof.Machine

/-- The command that the host writes to CMD in the next cycle, if the cycle is no reset (R80, R180). -/
def commandOf? (s : State) : Option Instr :=
  if (nextInput s).rst then none
  else
    match (nextInput s).host with
    | some (.write .word a w) => if a = 0x000 then (decode w).toOption else none
    | _ => none

/-- The command accepted in the next cycle, with the state after the cycle (R180, R38: an accepted command leaves CMD_ERR
at 0). -/
def accepted? (s : State) : Option (Instr × State) :=
  match commandOf? s, step s with
  | some i, .next t => if t.cmdErr then none else some (i, t)
  | _, _ => none

/-- The three commands that start an operation (R181 to R183). -/
def startsTransfer : Instr → Bool
  | .nop => false
  | .sendImage => true
  | .updateFw => true
  | .rawCmd _ => true
  | .abort => false
  | .quit => false

/-- PHASE ∈ {COMPLETE, FAILED}: where a run of one operation ends (R252). -/
def runEnded (s : State) : Bool := decide (s.phase = .complete) || decide (s.phase = .failed)

/-- The state after the engine's events of the next cycle, before its host accesses (R220); none in a reset cycle. -/
def afterEngine? (s : State) : Option State :=
  if (nextInput s).rst then none
  else (engineEvents (nextInput s) (environmentEvent (nextInput s) (consumeInput s))).toOption

/-- The end of the operation in flight, within `n` cycles (R252). It is judged before the host's access of each cycle, since
that access may already be the next command (R220). An operation that a reset abandons has no end (R241). -/
def operationEndWithin : Nat → State → Option State
  | n, s =>
    if runEnded s then some s
    else
      match n, s.phase.busy, afterEngine? s with
      | n + 1, true, some u =>
        if runEnded u then some u
        else
          match step s with
          | .next t => operationEndWithin n t
          | _ => none
      | _, _, _ => none

/-- The run of the operation that the next cycle's command starts, with at most `n` cycles after it (R252): the state at its
end; none where the cycle accepts no transfer command or the operation has not ended by then. -/
def operationEnd (n : Nat) (s : State) : Option State :=
  match accepted? s with
  | some (i, t) => if startsTransfer i then operationEndWithin n t else none
  | none => none

/-- The first state with CHAN = CLOSED within `n` cycles. -/
def closedWithin : Nat → State → Option State
  | n, s =>
    if s.chan = .closed then some s
    else
      match n, step s with
      | n + 1, .next t => closedWithin n t
      | _, _ => none

/-- The end of the session that the next cycle's QUIT ends, with at most `n` cycles after it (R252): QUIT has been accepted and
CHAN is CLOSED. -/
def sessionEnd (n : Nat) (s : State) : Option State :=
  match accepted? s with
  | some (.quit, t) => closedWithin n t
  | _ => none

/-- What the caller gets back (R191), with the wire histories (R252). -/
structure RunOutcome where
  result   : ResultCode
  offset   : Word
  chunkIdx : Word
  respHdr  : List Byte
  respLen  : BitVec 8
  response : List Byte
  txh      : List Byte
  rxh      : List Byte
deriving DecidableEq, Repr

/-- The outcome read from the state at the end of a run (R191, R252). -/
def outcomeOf (s : State) : RunOutcome where
  result := s.result
  offset := s.offset
  chunkIdx := s.chunkIdx
  respHdr := (List.range 4).map fun i => s.readByte .rawRespHdr i
  respLen := s.rawRespLen
  response := (List.range s.rawRespLen.toNat).map fun i => s.readByte .rawRespPayload i
  txh := s.txh
  rxh := s.rxh

/-- The outcome of a run of one operation (R252). -/
def operationOutcome (n : Nat) (s : State) : Option RunOutcome := (operationEnd n s).map outcomeOf

end Sys2Proof.Machine
end

