-- ==== Sys2Proof/Safety.lean ====
section
/-! DEFINITION. What statements speak of: the invariants of R56 and the ones they rest on, reachable states, and the
bytes a transfer has put on the wire (R86 to R90). -/

namespace Sys2Proof.Safety

open Sys2Proof.Machine

/-! ### Invariants -/

/-- The invariants that R56 lists. Its last one, at most one operation in flight, is in the shape of State: there is one
PHASE and one OPKIND. -/
structure ListedInvariants (s : State) : Prop where
  offset_le : s.offset.toNat ≤ s.totalLen.toNat
  chunk : s.phase = .sending ∨ s.phase = .awaitAck →
    1 ≤ s.chunkLen.toNat ∧ s.offset.toNat + s.chunkLen.toNat ≤ s.totalLen.toNat ∧ s.txPos.toNat ≤ s.frameLen.toNat
  awaiting : s.phase = .awaitAck ∨ s.phase = .awaitFinalAck →
    s.txPos = s.frameLen ∧ s.rxGot.toNat < s.rxNeed.toNat
  finalAck : s.phase = .awaitFinalAck → s.opkind = some .image ∧ s.offset.toNat = Config.imageBytes
  progress : ∀ k, k ≠ .raw → s.opkind = some k → s.phase ≠ .failed →
    s.offset.toNat = ((partition k s.totalLen.toNat).take s.chunkIdx.toNat).sum

/-- The written bytes of a store are in canonical form and inside the store. -/
structure StoreOk (r : Region) (m : Memory) : Prop where
  canonical : Memory.wf m = true
  inside : ∀ c ∈ m, Region.holds r c.1 = true

/-- The ranges that R27, R29, R30, R32, R34 and R42 give the counters. -/
structure RangesOk (s : State) : Prop where
  chunkLen : s.chunkLen.toNat ≤ 8192
  frameLen : s.frameLen.toNat ≤ 8192
  txPos : s.txPos.toNat ≤ s.frameLen.toNat
  rxStage : s.rxStage.toNat ≤ 2
  rxGot : s.rxGot.toNat ≤ s.rxNeed.toNat
  ackPos : s.ackPos.toNat ≤ 12
  rawK : s.rawK.toNat ≤ 68

/-- The outcome registers agree with PHASE (R37, R39, R147, R210) and with each other (R38). INVALID_CHUNK_BOUNDARY is
never an outcome (R213). -/
structure OutcomeOk (s : State) : Prop where
  cmdErr : s.cmdErr = false ↔ s.cmdErrCause = .none
  abortPending : s.abortPending = true → s.phase.busy = true
  inFlight : s.phase.busy = true → s.result = .none
  complete : s.phase = .complete → s.result = .ok ∨ s.result = .aborted
  failed : s.phase = .failed → s.result = .connectionError ∨ s.result = .shortRead ∨ s.result = .timeout
  never : s.result ≠ .invalidChunkBoundary

/-- TOTAL_LEN of a transfer in flight (R24, R182). -/
def TotalOk (k : Kind) (total : Word) : Prop :=
  match k with
  | .image => total.toNat = Config.imageBytes
  | .firmware => 0 < total.toNat ∧ total.toNat ≤ Config.payloadBytes
  | .raw => total.toNat = Config.rawCmdBytes

/-- The current chunk is the one that R111 computes (R27 to R29); a raw transfer has the one chunk at offset 0 (R110). -/
structure ChunkOk (k : Kind) (s : State) : Prop where
  more : s.offset.toNat < s.totalLen.toNat
  len : s.chunkLen.toNat = min k.maxChunk (s.totalLen.toNat - s.offset.toNat)
  last : s.lastChunk = decide (s.offset.toNat + s.chunkLen.toNat = s.totalLen.toNat)
  frameLen : s.frameLen = frameLenOf k s.chunkLen
  rawStart : k = .raw → s.offset = 0

/-- The bytes of the current ack sequence received so far, from the stage and RX_GOT (R95, R34). -/
def ackSoFar (k : Kind) (s : State) : Nat :=
  (match k, s.rxStage.toNat with
    | _, 0 => 0
    | .image, _ => 5
    | .firmware, _ => 5
    | .raw, 1 => 4
    | .raw, _ => 5) + s.rxGot.toNat

/-- The current receive stage is a row of the ack table (R95, R31, R34). -/
structure StageOk (k : Kind) (s : State) : Prop where
  need : ackLen k s.phase s.rxStage.toNat s.rawRespLen = some s.rxNeed
  got : s.rxGot.toNat < s.rxNeed.toNat
  sent : s.txPos = s.frameLen
  ackPos : s.ackPos.toNat = if k = .raw then 0 else ackSoFar k s

/-- An operation in flight (R21). -/
structure InFlight (k : Kind) (s : State) : Prop where
  opkind : s.opkind = some k
  chan : s.chan = .opened
  total : TotalOk k s.totalLen
  chunk : s.phase = .sending ∨ s.phase = .awaitAck → ChunkOk k s
  sending : s.phase = .sending → s.txPos.toNat < s.frameLen.toNat
  stage : s.phase.awaiting = true → StageOk k s
  finalAck : s.phase = .awaitFinalAck → k = .image ∧ s.offset = s.totalLen

/-- Header bytes per frame (R116). -/
def headerBytes : Kind → Nat
  | .image => 0
  | .firmware => Config.fwHdrBytes
  | .raw => 0

/-- The bytes sent so far in a transfer: the frames of the acknowledged chunks, and what is out of the current one. -/
def sentSoFar (k : Kind) (s : State) : Nat :=
  s.offset.toNat + headerBytes k * s.chunkIdx.toNat
    + (if s.phase = .sending ∨ s.phase = .awaitAck then s.txPos.toNat else 0)

/-- The bytes received so far in a transfer: 7 per acknowledged chunk of an image or firmware, what the current sequence has
taken, 12 at the end of an image, and the 4 + 1 + N of a raw response (R92 to R94). -/
def receivedSoFar (k : Kind) (s : State) : Nat :=
  if s.phase.awaiting then (if k = .raw then 0 else 7 * s.chunkIdx.toNat) + ackSoFar k s
  else
    match k with
    | .image => 7 * s.chunkIdx.toNat + (if s.phase = .complete ∧ s.result = .ok then 12 else 0)
    | .firmware => 7 * s.chunkIdx.toNat
    | .raw => if s.phase = .complete then 5 + s.rawRespLen.toNat else 0

/-- TX_COUNT and RX_COUNT count the bytes of the transfer modulo 2^32 (R35, R36), while it is in flight and once it is
complete; a complete transfer has its length behind it (R147), and CHUNK_IDX never passes the number of chunks (R110). -/
structure CountsOk (s : State) : Prop where
  tx : ∀ k, s.opkind = some k → s.phase.busy = true ∨ s.phase = .complete →
    s.txCount = BitVec.ofNat 32 (sentSoFar k s)
  rx : ∀ k, s.opkind = some k → s.phase.busy = true ∨ s.phase = .complete →
    s.rxCount = BitVec.ofNat 32 (receivedSoFar k s)
  done : s.phase = .complete → s.result = .ok → s.opkind ≠ none ∧ s.offset = s.totalLen
  total : ∀ k, k ≠ .firmware → s.opkind = some k → TotalOk k s.totalLen
  index : ∀ k, k ≠ .raw → s.opkind = some k → s.phase ≠ .failed →
    s.chunkIdx.toNat ≤ (partition k s.totalLen.toNat).length

/-- Everything about the BFE itself: the registers and the stores. -/
structure EngineInv (s : State) : Prop where
  listed : ListedInvariants s
  stores : ∀ r, StoreOk r (s.mem r)
  ranges : RangesOk s
  outcome : OutcomeOk s
  inFlight : s.phase.busy = true → ∃ k, InFlight k s
  counts : CountsOk s

/-- The invariant of the machine between two cycles: the engine's, and its link with the transport (R23, R48). -/
structure Inv (s : State) : Prop where
  engine : EngineInv s
  link : s.chan = .opened → s.linkUp = true
  queue : s.linkUp = false → s.rxq = []

/-- The states that a run from reset meets, whatever the environment does (R152): any list of inputs. -/
inductive Reachable : State → Prop
  | reset (inputs : List CycleInput) : Reachable { State.reset with inputs := inputs }
  | step (s t : State) : Reachable s → Machine.step s = .next t → Reachable t

/-! ### The wire -/

/-- `PAYLOAD[o] ++ … ++ PAYLOAD[o + n − 1]` (R87). -/
def payloadSlice (s : State) (o n : Nat) : List Byte :=
  (List.range n).map fun i => s.readByte .payload (o + i)

/-- The RAW frame (R90, R117): the first RAW_K bytes of RAW_CMD_BUF and zeros up to 68. -/
def rawFrame (s : State) : List Byte :=
  (List.range Config.rawCmdBytes).map fun p => if p < s.rawK.toNat then s.readByte .rawCmdBuf p else 0

/-- Frame `i` of a transfer of `total` payload bytes (R87, R88, R90): the chunk begins at `i` times the kind's maximum and has
the length of the partition (R110). -/
def frameAt (k : Kind) (s : State) (total i : Nat) : List Byte :=
  let slice := payloadSlice s (i * k.maxChunk) ((partition k total).getD i 0)
  match k with
  | .image => slice
  | .firmware => fwFrame slice
  | .raw => rawFrame s

/-- The first `n` frames of a transfer, one after another on the wire. -/
def framesUpTo (k : Kind) (s : State) (total n : Nat) : List Byte :=
  ((List.range n).map fun i => frameAt k s total i).flatten

/-- What a transfer in flight has put on the wire: the frames of the acknowledged chunks, and the part of the current frame
that is out. -/
def sentBytes (k : Kind) (s : State) : List Byte :=
  framesUpTo k s s.totalLen.toNat s.chunkIdx.toNat
    ++ (if s.phase = .sending ∨ s.phase = .awaitAck then
          (frameAt k s s.totalLen.toNat s.chunkIdx.toNat).take s.txPos.toNat
        else [])

/-- The wire TX history ends with what the transfer in flight has sent. A raw frame is compared while it is being sent; after
that the host may write RAW_CMD_BUF again (R244). -/
def WireOk (s : State) : Prop :=
  s.phase.busy = true → ∀ k, s.opkind = some k → (k = .raw → s.phase = .sending) → sentBytes k s <:+ s.txh

/-- What the engine sends at position `p` of the current frame, in plain numbers (R116, R117). -/
def frameByteValue (k : Kind) (s : State) (p : Nat) : Byte :=
  match k with
  | .image => s.readByte .payload (s.offset.toNat + p)
  | .firmware =>
    if p < 8 then (fwHeader s.chunkLen.toNat).getD p 0 else s.readByte .payload (s.offset.toNat + (p - 8))
  | .raw => if p < s.rawK.toNat then s.readByte .rawCmdBuf p else 0

/-! ### A cycle seen from its start -/

/-- The state that the events of the next cycle start from: the inputs taken, the transport's part done. -/
def started (s : State) : State := environmentEvent (nextInput s) (consumeInput s)

/-- The state after a cycle with the link up in which nothing happens to the BFE. -/
def unchanged (s : State) : State := { consumeInput s with linkUp := true }

end Sys2Proof.Safety
end

