-- ==== Sys2Proof/Certificates/Slice0/Obligations.lean ====
section
/-! DEFINITION. The statements for the provers, from the numbered rules of spec/. -/

open Sys2Proof Sys2Proof.Machine Sys2Proof.Safety

/-! ### Command words -/

/-- The words of V6, as they decode (R82, R83). -/
def Obligations.CommandWordsDecodeAsTheTableSays : Prop :=
  decode 0x00000000#32 = .ok .nop ∧ decode 0x00000001#32 = .ok .sendImage ∧ decode 0x00000002#32 = .ok .updateFw ∧
  decode 0x00000003#32 = .ok (.rawCmd 0#8) ∧ decode 0x00000303#32 = .ok (.rawCmd 3#8) ∧
  decode 0x00004403#32 = .ok (.rawCmd 68#8) ∧ decode 0x00000004#32 = .ok .abort ∧ decode 0x00000005#32 = .ok .quit ∧
  ∀ w ∈ [0x00004503#32, 0x0000FF03#32, 0x00000104#32, 0x00000006#32, 0x0000000F#32, 0x00000013#32, 0x00000083#32,
      0x00010003#32, 0x80000005#32, 0xFFFFFFFF#32], (decode w).toOption = none

/-- Encoding loses nothing: every well-formed command, with every argument, decodes back from its word (R81, R82). -/
def Obligations.DecodeOfEncodeIsTheCommand : Prop :=
  ∀ i, wellFormed i = true → decode (encode i) = .ok i

/-- R81: the fields that make a word legal, and the argument read from bits [15:8] with no change. -/
def Obligations.LegalWordsByTheirFields : Prop :=
  (∀ w : Word, (∃ i, decode w = .ok i) ↔
    w.extractLsb' 4 4 = 0#4 ∧ w.extractLsb' 16 16 = 0#16 ∧
      ((w.extractLsb' 0 4 ∈ [0x0#4, 0x1#4, 0x2#4, 0x4#4, 0x5#4] ∧ w.extractLsb' 8 8 = 0#8) ∨
        (w.extractLsb' 0 4 = 0x3#4 ∧ (w.extractLsb' 8 8).toNat ≤ 68))) ∧
  ∀ (w : Word) (k : BitVec 8), decode w = .ok (.rawCmd k) → k = w.extractLsb' 8 8

/-- R82: the row of each command; a word decodes to a command exactly when it selects the command's row; no word selects
two rows. -/
def Obligations.DecodingIsRowSelection : Prop :=
  (∀ (w : Word) (i : Instr), decode w = .ok i ↔
    w &&& (rowOf i).mask = (rowOf i).value ∧ ∀ k, i = .rawCmd k → k = w.extractLsb' 8 8 ∧ k.toNat ≤ 68) ∧
  (∀ (w : Word), ∀ r ∈ opcodeTable, ∀ q ∈ opcodeTable, r.selects w = true → q.selects w = true → r = q) ∧
  opcodeTable = [⟨0x00000000, 0xFFFFFFFF⟩, ⟨0x00000001, 0xFFFFFFFF⟩, ⟨0x00000002, 0xFFFFFFFF⟩,
    ⟨0x00000003, 0xFFFF00FF⟩, ⟨0x00000004, 0xFFFFFFFF⟩, ⟨0x00000005, 0xFFFFFFFF⟩] ∧
  rowOf .nop = ⟨0x00000000, 0xFFFFFFFF⟩ ∧ rowOf .sendImage = ⟨0x00000001, 0xFFFFFFFF⟩ ∧
  rowOf .updateFw = ⟨0x00000002, 0xFFFFFFFF⟩ ∧ (∀ k, rowOf (.rawCmd k) = ⟨0x00000003, 0xFFFF00FF⟩) ∧
  rowOf .abort = ⟨0x00000004, 0xFFFFFFFF⟩ ∧ rowOf .quit = ⟨0x00000005, 0xFFFFFFFF⟩

/-! ### Dispatch -/

/-- A cycle whose host writes the word of a command to CMD runs that command on the state after the engine's events (R180,
R220), and then does the payload-port write of the cycle. Any other access is likewise made on the state after the engine's
events. -/
def Obligations.StepRunsTheDecodedCommand : Prop :=
  (∀ (s u : State) (w : Word) (i : Instr), (nextInput s).rst = false →
    (nextInput s).host = some (.write .word 0x000#12 w) → decode w = .ok i →
    engineEvents (nextInput s) (started s) = .ok u →
    step s = match exec i { u with busResp := some ⟨false, none⟩ } with
      | .next t => payloadEvent (nextInput s).payloadWrite t
      | .fault f => .fault f
      | .refused r => .refused r) ∧
  ∀ (s u : State) (acc : HostAccess), (nextInput s).rst = false → (nextInput s).host = some acc →
    (nextInput s).payloadWrite = none → engineEvents (nextInput s) (started s) = .ok u →
    step s = hostEvent (some acc) u

/-- R187: a word that selects no row is rejected with ILLEGAL, in every phase, and changes nothing else of the machine. -/
def Obligations.IllegalWordIsRejected : Prop :=
  ∀ (s : State) (w : Word), (∀ i, decode w ≠ .ok i) →
    hostEvent (some (.write .word 0x000#12 w)) s =
      .next { s with cmdErr := true, cmdErrCause := .illegal, busResp := some ⟨false, none⟩ }

/-- R215, and the checks' order of R180: each cause with its condition; a rejection writes CMD_ERR and CMD_ERR_CAUSE only, and
an accepted command clears them (R214). The second clause speaks of the term RAW_CMD k with k above 68, which no word decodes
to; that it is rejected as its word is (R183, R187) is the model's reading (log 15). -/
def Obligations.RejectionCausesAndOrder : Prop :=
  (∀ (s : State) (w : Word), (∀ i, decode w ≠ .ok i) →
    dispatch w s = .next { s with cmdErr := true, cmdErrCause := .illegal }) ∧
  (∀ (s : State) (k : BitVec 8), 68 < k.toNat →
    exec (.rawCmd k) s = .next { s with cmdErr := true, cmdErrCause := .illegal }) ∧
  (∀ (s : State) (i : Instr), wellFormed i = true → i ≠ .nop → i ≠ .abort → s.phase.busy = true →
    exec i s = .next { s with cmdErr := true, cmdErrCause := .busy }) ∧
  (∀ (s : State) (i : Instr), wellFormed i = true → i ≠ .nop → i ≠ .abort → i ≠ .quit → s.phase = .failed →
    exec i s = .next { s with cmdErr := true, cmdErrCause := .failedState }) ∧
  (∀ s : State, s.phase = .idle ∨ s.phase = .complete → Config.payloadBytes < s.fwLen.toNat →
    exec .updateFw s = .next { s with cmdErr := true, cmdErrCause := .length }) ∧
  ∀ (s : State) (i : Instr), wellFormed i = true →
    i = .nop ∨ i = .abort ∨ (i = .quit ∧ s.phase.busy = false) ∨
      ((s.phase = .idle ∨ s.phase = .complete) ∧ (i = .updateFw → s.fwLen.toNat ≤ Config.payloadBytes)) →
    ∃ t, exec i s = .next t ∧ t.cmdErr = false ∧ t.cmdErrCause = .none

/-! ### The commands -/

/-- R186: NOP is accepted in every phase and clears CMD_ERR and CMD_ERR_CAUSE only. -/
def Obligations.NopClearsTheCommandError : Prop :=
  ∀ s : State, exec .nop s = .next { s with cmdErr := false, cmdErrCause := .none }

/-- SEND_IMAGE in IDLE or COMPLETE with an open channel (R181, R188): a fresh TransferState and the first chunk. -/
def Obligations.SendImageStartsTheFirstChunk : Prop :=
  ∀ s : State, s.phase = .idle ∨ s.phase = .complete → s.chan = .opened →
    exec .sendImage s = .next { s with
      cmdErr := false, cmdErrCause := .none, phase := .sending, opkind := some .image, totalLen := 134400, offset := 0,
      chunkIdx := 0, chunkLen := 8192, lastChunk := false, txPos := 0, frameLen := 8192, rxStage := 0, rxNeed := 0,
      rxGot := 0, rxTimer := 0, ackPos := 0, txCount := 0, rxCount := 0, result := .none, abortPending := false }

/-- UPDATE_FW of a length from 1 to PAYLOAD_BYTES (R182, R188): FW_LEN becomes TOTAL_LEN, and the first chunk has at most
8,184 bytes. -/
def Obligations.UpdateFwStartsTheFirstChunk : Prop :=
  ∀ s : State, s.phase = .idle ∨ s.phase = .complete → s.chan = .opened → 0 < s.fwLen.toNat →
    s.fwLen.toNat ≤ Config.payloadBytes →
    exec .updateFw s = .next { s with
      cmdErr := false, cmdErrCause := .none, phase := .sending, opkind := some .firmware, totalLen := s.fwLen, offset := 0,
      chunkIdx := 0, chunkLen := BitVec.ofNat 14 (min 8184 s.fwLen.toNat), lastChunk := decide (s.fwLen.toNat ≤ 8184),
      txPos := 0, frameLen := BitVec.ofNat 14 (min 8184 s.fwLen.toNat + 8), rxStage := 0, rxNeed := 0,
      rxGot := 0, rxTimer := 0, ackPos := 0, txCount := 0, rxCount := 0, result := .none, abortPending := false }

/-- UPDATE_FW of length 0 (R182, R188, D13): complete at once, nothing sent. -/
def Obligations.UpdateFwOfLengthZeroCompletes : Prop :=
  ∀ s : State, s.phase = .idle ∨ s.phase = .complete → s.chan = .opened → s.fwLen = 0 →
    exec .updateFw s = .next { s with
      cmdErr := false, cmdErrCause := .none, phase := .complete, opkind := some .firmware, totalLen := 0, offset := 0,
      chunkIdx := 0, chunkLen := 0, lastChunk := false, txPos := 0, frameLen := 0, rxStage := 0, rxNeed := 0,
      rxGot := 0, rxTimer := 0, ackPos := 0, txCount := 0, rxCount := 0, result := .ok, abortPending := false }

/-- RAW_CMD k in IDLE or COMPLETE with an open channel (R183, R188), for every k from 0 to 68. -/
def Obligations.RawCmdStartsItsFrame : Prop :=
  ∀ (s : State) (k : BitVec 8), k.toNat ≤ 68 → s.phase = .idle ∨ s.phase = .complete → s.chan = .opened →
    exec (.rawCmd k) s = .next { s with
      cmdErr := false, cmdErrCause := .none, phase := .sending, opkind := some .raw, totalLen := 68, offset := 0,
      chunkIdx := 0, chunkLen := 68, lastChunk := true, txPos := 0, frameLen := 68, rxStage := 0, rxNeed := 0,
      rxGot := 0, rxTimer := 0, ackPos := 0, txCount := 0, rxCount := 0, result := .none, abortPending := false,
      rawK := BitVec.ofNat 7 k.toNat, rawRespLen := 0 }

/-- ABORT (R184): accepted in every phase; recorded exactly while an operation is in flight. -/
def Obligations.AbortIsRecordedWhileBusy : Prop :=
  (∀ s : State, s.phase.busy = true →
    exec .abort s = .next { s with cmdErr := false, cmdErrCause := .none, abortPending := true }) ∧
  ∀ s : State, s.phase.busy = false → exec .abort s = .next { s with cmdErr := false, cmdErrCause := .none }

/-- QUIT while no operation is in flight (R185): IDLE, NONE, no pending abort, an open channel starts closing. -/
def Obligations.QuitEndsTheSession : Prop :=
  ∀ s : State, s.phase.busy = false →
    exec .quit s = .next { s with
      cmdErr := false, cmdErrCause := .none, phase := .idle, opkind := none, abortPending := false,
      chan := if s.chan = .opened then .closing else s.chan }

/-- R217: a transfer command accepted while CHAN is not OPEN loads a fresh TransferState and fails with CONNECTION_ERROR
before sending anything. -/
def Obligations.TransferWithoutAChannelFails : Prop :=
  ∀ s : State, s.phase = .idle ∨ s.phase = .complete → s.chan ≠ .opened →
    (exec .sendImage s = .next (fail .connectionError (freshTransfer .image 134400 (accept s)))) ∧
    (s.fwLen.toNat ≤ Config.payloadBytes →
      exec .updateFw s = .next (fail .connectionError (freshTransfer .firmware s.fwLen (accept s)))) ∧
    (∀ k : BitVec 8, k.toNat ≤ 68 →
      exec (.rawCmd k) s = .next (fail .connectionError
        (freshTransfer .raw 68 { accept s with rawK := BitVec.ofNat 7 k.toNat, rawRespLen := 0 })))

/-- The frame of the commands (R55, R180 to R187): no command writes a byte of any store, a configuration register of the
host, the wire or the link; only QUIT changes CHAN; only RAW_CMD changes RAW_K and RAW_RESP_LEN. -/
def Obligations.CommandsLeaveTheRestUnchanged : Prop :=
  ∀ (i : Instr) (s t : State), exec i s = .next t →
    (∀ r a, t.readByte r a = s.readByte r a) ∧ (∀ r, t.mem r = s.mem r) ∧
    t.fwLen = s.fwLen ∧ t.rxTimeout = s.rxTimeout ∧ t.linkUp = s.linkUp ∧ t.rxq = s.rxq ∧ t.txh = s.txh ∧ t.rxh = s.rxh ∧
    t.inputs = s.inputs ∧ t.busResp = s.busResp ∧ t.resets = s.resets ∧ t.busErrors = s.busErrors ∧
    (i ≠ .quit → t.chan = s.chan) ∧ ((∀ k, i ≠ .rawCmd k) → t.rawK = s.rawK ∧ t.rawRespLen = s.rawRespLen)

/-- Every command ends in a next state, on every state and operand, and a rejected one has changed nothing but the command
status (R180, R214). -/
def Obligations.EveryCommandCompletes : Prop :=
  ∀ (i : Instr) (s : State), ∃ t, exec i s = .next t ∧
    (t.cmdErr = true → t = { s with cmdErr := true, cmdErrCause := t.cmdErrCause }) ∧
    (t.cmdErr = true ↔ t.cmdErrCause ≠ .none)

/-! ### The Frame Codec -/

/-- R110: the maxima; the partition has ceil(L / max) chunks, which sum to L; every one but the last is full, and the last is
the rest, 1 to max bytes. The two fixed payloads of an image and of a raw command. -/
def Obligations.PartitionCoversThePayload : Prop :=
  Kind.image.maxChunk = 8192 ∧ Kind.firmware.maxChunk = 8184 ∧ Kind.raw.maxChunk = 68 ∧
  partition .image 134400 = List.replicate 16 8192 ++ [3328] ∧ partition .raw 68 = [68] ∧
  ∀ (k : Kind) (len : Nat),
    (partition k len).length = (len + k.maxChunk - 1) / k.maxChunk ∧
    (partition k len).sum = len ∧
    (∀ i, i + 1 < (partition k len).length → (partition k len).getD i 0 = k.maxChunk) ∧
    (∀ i, i + 1 = (partition k len).length →
      (partition k len).getD i 0 = len - i * k.maxChunk ∧
      1 ≤ (partition k len).getD i 0 ∧ (partition k len).getD i 0 ≤ k.maxChunk)

/-- R113 and R114: the eight header bytes of a chunk of 1 to 8,184 bytes. -/
def Obligations.FirmwareHeaderBytes : Prop :=
  ∀ len : Nat, 1 ≤ len → len ≤ 8184 →
    fwHeader len = [if len = 8184 then 0xE0#8 else 0xA0#8, if len = 8184 then 0xE0#8 else 0xA0#8, 0xE0#8, 0xE0#8,
      BitVec.ofNat 8 ((len + 8) % 256), BitVec.ofNat 8 ((len + 8) / 256), 0x00#8, 0x00#8]

/-- R119: decoding a firmware frame recovers what it was built from, and only frames decode. -/
def Obligations.FirmwareFrameRoundTrip : Prop :=
  (∀ p : List Byte, 1 ≤ p.length → p.length ≤ 8184 →
    decodeFwFrame (fwFrame p) = some ⟨decide (p.length < 8184), p.length + 8, p⟩) ∧
  ∀ (f : List Byte) (r : FwFrame), decodeFwFrame f = some r →
    f = fwFrame r.payload ∧ 1 ≤ r.payload.length ∧ r.payload.length ≤ 8184 ∧ r.size = r.payload.length + 8 ∧
      (r.last = true ↔ r.payload.length < 8184)

/-- R117: a raw frame is the first RAW_K bytes of RAW_CMD_BUF and zeros up to 68. -/
def Obligations.RawFrameIsPaddedWithZeros : Prop :=
  ∀ (s : State) (p : Nat), p < 68 →
    frameByte .raw p s = .ok (if p < s.rawK.toNat then s.readByte .rawCmdBuf p else 0x00#8)

/-- R95: the ack table, and that no other pair of kind and phase has an ack sequence. -/
def Obligations.AckTable : Prop :=
  (∀ n : BitVec 8, (List.range 4).map (fun st => ackLen .image .awaitAck st n) = [some 5, some 2, none, none]) ∧
  (∀ n : BitVec 8, (List.range 4).map (fun st => ackLen .image .awaitFinalAck st n) = [some 5, some 7, none, none]) ∧
  (∀ n : BitVec 8, (List.range 4).map (fun st => ackLen .firmware .awaitAck st n) = [some 5, some 2, none, none]) ∧
  (∀ n : BitVec 8, n ≠ 0 →
    (List.range 4).map (fun st => ackLen .raw .awaitAck st n) = [some 4, some 1, some n, none]) ∧
  (List.range 4).map (fun st => ackLen .raw .awaitAck st 0) = [some 4, some 1, none, none] ∧
  (∀ n : BitVec 8, ackStages .image .awaitAck n = some 2 ∧ ackStages .image .awaitFinalAck n = some 2 ∧
    ackStages .firmware .awaitAck n = some 2 ∧ ackStages .raw .awaitAck n = some (if 1 ≤ n.toNat then 3 else 2)) ∧
  ∀ (k : Kind) (ph : Phase) (st : Nat) (n : BitVec 8),
    ph.awaiting = false ∨ (ph = .awaitFinalAck ∧ k ≠ .image) → ackLen k ph st n = none ∧ ackStages k ph n = none

/-- The bytes of an image frame and of a firmware frame whose chunk lies in the payload space (R87, R88, R116). -/
def Obligations.PayloadFramesAreTheirBytes : Prop :=
  ∀ (s : State) (p : Nat), s.offset.toNat + s.chunkLen.toNat ≤ Config.payloadBytes →
    (s.chunkLen.toNat ≤ 8192 → p < s.chunkLen.toNat →
      frameByte .image p s = .ok (s.readByte .payload (s.offset.toNat + p))) ∧
    (s.chunkLen.toNat ≤ 8184 → p < 8 → frameByte .firmware p s = .ok ((fwHeader s.chunkLen.toNat).getD p 0)) ∧
    (s.chunkLen.toNat ≤ 8184 → 8 ≤ p → p < s.chunkLen.toNat + 8 →
      frameByte .firmware p s = .ok (s.readByte .payload (s.offset.toNat + (p - 8))))

/-! ### The TX step and the RX step -/

/-- R140, inside a frame: a cycle in which the transport accepts a byte sends the frame's byte at TX_POS and counts it. -/
def Obligations.TxStepSendsTheNextByte : Prop :=
  ∀ (s : State) (k : Kind), Inv s → s.phase = .sending → s.opkind = some k →
    nextInput s = { quietInput true with txReady := true } → s.txPos.toNat + 1 < s.frameLen.toNat →
    step s = .next { unchanged s with
      txh := s.txh ++ [frameByteValue k s s.txPos.toNat], txCount := s.txCount + 1, txPos := s.txPos + 1 }

/-- R140 to R142, the last byte of a frame: the ack sequence begins with its first stage and a fresh timer. -/
def Obligations.LastByteOpensTheAckSequence : Prop :=
  ∀ (s : State) (k : Kind), Inv s → s.phase = .sending → s.opkind = some k →
    nextInput s = { quietInput true with txReady := true } → s.txPos.toNat + 1 = s.frameLen.toNat →
    step s = .next { unchanged s with
      txh := s.txh ++ [frameByteValue k s s.txPos.toNat], txCount := s.txCount + 1, txPos := s.txPos + 1,
      phase := .awaitAck, ackPos := 0, rxStage := 0, rxNeed := if k = .raw then 4 else 5, rxGot := 0,
      rxTimer := s.rxTimeout }

/-- R143 and R144, inside a stage: a byte of RXQ is taken, counted and stored; nothing else happens. -/
def Obligations.RxStepStoresTheByte : Prop :=
  ∀ (s : State) (b : Byte) (q : List Byte), Inv s → s.phase.awaiting = true → nextInput s = quietInput true →
    s.rxq = b :: q → s.rxGot.toNat + 1 < s.rxNeed.toNat →
    (s.opkind = some .image ∨ s.opkind = some .firmware →
      step s = .next { unchanged s with
        rxq := q, rxh := s.rxh ++ [b], rxCount := s.rxCount + 1, rxGot := s.rxGot + 1,
        ackBuf := Memory.write s.ackBuf s.ackPos.toNat b, ackPos := s.ackPos + 1 }) ∧
    (s.opkind = some .raw → s.rxStage = 0 →
      step s = .next { unchanged s with
        rxq := q, rxh := s.rxh ++ [b], rxCount := s.rxCount + 1, rxGot := s.rxGot + 1,
        rawRespHdr := Memory.write s.rawRespHdr s.rxGot.toNat b }) ∧
    (s.opkind = some .raw → s.rxStage = 2 →
      step s = .next { unchanged s with
        rxq := q, rxh := s.rxh ++ [b], rxCount := s.rxCount + 1, rxGot := s.rxGot + 1,
        rawRespPayload := Memory.write s.rawRespPayload s.rxGot.toNat b })

/-- R145 for image and firmware: the fifth byte of the first stage opens the second, of 2 bytes after a chunk and of 7 at the
end of an image (R92 to R95), with a fresh timer (R142). A tick of the same cycle comes after the byte and counts against the
second stage (R220): it takes one from the fresh timer, and with RX_TIMEOUT = 0 it fails the second stage at once with TIMEOUT
(R149, V8). -/
def Obligations.FirstStageOpensTheSecond : Prop :=
  ∀ (s : State) (b : Byte) (q : List Byte) (tick : Bool), Inv s → s.phase.awaiting = true →
    nextInput s = { quietInput true with tick := tick } →
    s.rxq = b :: q → s.opkind = some .image ∨ s.opkind = some .firmware → s.rxStage = 0 → s.rxGot.toNat + 1 = 5 →
    (tick = false → step s = .next { unchanged s with
      rxq := q, rxh := s.rxh ++ [b], rxCount := s.rxCount + 1,
      ackBuf := Memory.write s.ackBuf s.ackPos.toNat b, ackPos := s.ackPos + 1,
      rxStage := 1, rxNeed := if s.phase = .awaitFinalAck then 7 else 2, rxGot := 0, rxTimer := s.rxTimeout }) ∧
    (tick = true → s.rxTimeout ≠ 0 → step s = .next { unchanged s with
      rxq := q, rxh := s.rxh ++ [b], rxCount := s.rxCount + 1,
      ackBuf := Memory.write s.ackBuf s.ackPos.toNat b, ackPos := s.ackPos + 1,
      rxStage := 1, rxNeed := if s.phase = .awaitFinalAck then 7 else 2, rxGot := 0, rxTimer := s.rxTimeout - 1 }) ∧
    (tick = true → s.rxTimeout = 0 → step s = .next { unchanged s with
      rxq := q, rxh := s.rxh ++ [b], rxCount := s.rxCount + 1,
      ackBuf := Memory.write s.ackBuf s.ackPos.toNat b, ackPos := s.ackPos + 1,
      rxStage := 1, rxNeed := if s.phase = .awaitFinalAck then 7 else 2, rxGot := 0, rxTimer := 0,
      phase := .failed, result := .timeout, abortPending := false })

/-- R144 to R147 for a raw response, where a stage is complete: the fourth status byte opens the stage of the length byte; the
length byte N opens a stage of N bytes, and 0 ends the transfer with OK; the last response byte ends the transfer with OK,
whatever ABORT_PENDING says. -/
def Obligations.RawResponseStages : Prop :=
  ∀ (s : State) (b : Byte) (q : List Byte), Inv s → s.phase = .awaitAck → nextInput s = quietInput true →
    s.rxq = b :: q → s.opkind = some .raw →
    (s.rxStage = 0 → s.rxGot.toNat + 1 = 4 → step s = .next { unchanged s with
      rxq := q, rxh := s.rxh ++ [b], rxCount := s.rxCount + 1,
      rawRespHdr := Memory.write s.rawRespHdr 3 b,
      rxStage := 1, rxNeed := 1, rxGot := 0, rxTimer := s.rxTimeout }) ∧
    (s.rxStage = 1 → b ≠ 0 → step s = .next { unchanged s with
      rxq := q, rxh := s.rxh ++ [b], rxCount := s.rxCount + 1, rawRespLen := b,
      rxStage := 2, rxNeed := b, rxGot := 0, rxTimer := s.rxTimeout }) ∧
    (s.rxStage = 1 → b = 0 → step s = .next { unchanged s with
      rxq := q, rxh := s.rxh ++ [b], rxCount := s.rxCount + 1, rawRespLen := 0, rxGot := 1,
      offset := 68, chunkIdx := s.chunkIdx + 1, phase := .complete, result := .ok, abortPending := false }) ∧
    (s.rxStage = 2 → s.rxGot.toNat + 1 = s.rxNeed.toNat → step s = .next { unchanged s with
      rxq := q, rxh := s.rxh ++ [b], rxCount := s.rxCount + 1, rxGot := s.rxGot + 1,
      rawRespPayload := Memory.write s.rawRespPayload s.rxGot.toNat b,
      offset := 68, chunkIdx := s.chunkIdx + 1, phase := .complete, result := .ok, abortPending := false })

/-- R146 for an image or firmware: the last byte of a chunk's ack moves OFFSET and CHUNK_IDX past the chunk; then the end of
the payload, a pending abort, or the next chunk decides. -/
def Obligations.ChunkAckMovesOn : Prop :=
  ∀ (s : State) (k : Kind) (b : Byte) (q : List Byte), Inv s → s.phase = .awaitAck → nextInput s = quietInput true →
    s.rxq = b :: q → s.opkind = some k → k ≠ .raw → s.rxStage = 1 → s.rxGot = 1 →
    ∃ t, step s = .next t ∧
      t.offset.toNat = s.offset.toNat + s.chunkLen.toNat ∧ t.chunkIdx.toNat = s.chunkIdx.toNat + 1 ∧
      t.rxq = q ∧ t.rxh = s.rxh ++ [b] ∧ t.txh = s.txh ∧ t.totalLen = s.totalLen ∧ t.opkind = s.opkind ∧
      (t.offset = t.totalLen → k = .image →
        t.phase = .awaitFinalAck ∧ t.rxStage = 0 ∧ t.rxNeed = 5 ∧ t.rxGot = 0 ∧ t.ackPos = 0 ∧ t.rxTimer = s.rxTimeout) ∧
      (t.offset = t.totalLen → k = .firmware → t.phase = .complete ∧ t.result = .ok ∧ t.abortPending = false) ∧
      (t.offset ≠ t.totalLen → s.abortPending = true →
        t.phase = .complete ∧ t.result = .aborted ∧ t.abortPending = false) ∧
      (t.offset ≠ t.totalLen → s.abortPending = false →
        t.phase = .sending ∧ t.txPos = 0 ∧
        t.chunkLen.toNat = min k.maxChunk (t.totalLen.toNat - t.offset.toNat) ∧
        t.lastChunk = decide (t.offset.toNat + t.chunkLen.toNat = t.totalLen.toNat) ∧
        t.frameLen.toNat = t.chunkLen.toNat + headerBytes k)

/-- R146 and R147: the twelfth byte of the end-of-image ack ends the image with OK; a pending abort has no effect. -/
def Obligations.EndOfImageAckCompletes : Prop :=
  ∀ (s : State) (b : Byte) (q : List Byte), Inv s → s.phase = .awaitFinalAck → nextInput s = quietInput true →
    s.rxq = b :: q → s.rxStage = 1 → s.rxGot.toNat = 6 →
    step s = .next { unchanged s with
      rxq := q, rxh := s.rxh ++ [b], rxCount := s.rxCount + 1, rxGot := 7,
      ackBuf := Memory.write s.ackBuf 11 b, ackPos := 12,
      phase := .complete, result := .ok, abortPending := false }

/-- The values of the acknowledgement bytes decide nothing of an image or firmware transfer (R91, R118): with another byte
the RX step does the same, but for where the byte itself is kept. -/
def Obligations.AckContentIsNeverChecked : Prop :=
  ∀ (s t : State) (k : Kind) (b c : Byte) (q : List Byte), k ≠ .raw → rxStep k b q s = .ok t →
    rxStep k c q s = .ok { t with rxh := s.rxh ++ [c], ackBuf := Memory.write s.ackBuf s.ackPos.toNat c }

/-! ### The receive timeout -/

/-- R149 and R212: a tick with no byte at hand; and, for a cycle with any bytes, errors and link, that the tick acts on what
the cycle without it comes to (R220): a byte beats the tick of its cycle, and the tick counts against the stage that the byte
leaves. -/
def Obligations.TickCountsDownOrFails : Prop :=
  (∀ s : State, s.chan = .opened → (s.phase.awaiting = true → s.rxq = []) →
    nextInput s = { quietInput true with tick := true } →
    (s.phase.awaiting = true → s.rxTimer = 0 →
      step s = .next { unchanged s with
        phase := .failed, result := if s.rxGot = 0 then .timeout else .shortRead, abortPending := false }) ∧
    (s.phase.awaiting = true → s.rxTimer ≠ 0 →
      step s = .next { unchanged s with rxTimer := s.rxTimer - 1 }) ∧
    (s.phase.awaiting = false → step s = .next (unchanged s))) ∧
  ∀ (s t : State) (inp : CycleInput), inp.rst = false → inp.host = none → inp.payloadWrite = none →
    cycle { inp with tick := false } s = .next t →
    (t.phase.awaiting = true → t.rxTimer = 0 →
      cycle { inp with tick := true } s = .next { t with
        phase := .failed, result := if t.rxGot = 0 then .timeout else .shortRead, abortPending := false }) ∧
    (t.phase.awaiting = true → t.rxTimer ≠ 0 →
      cycle { inp with tick := true } s = .next { t with rxTimer := t.rxTimer - 1 }) ∧
    (t.phase.awaiting = false → cycle { inp with tick := true } s = .next t)

/-- A stage that receives nothing more stays for T ticks and fails at the (T+1)-th, T being what is left in RX_TIMER (R149). -/
def Obligations.StageFailsAtTheTickAfterTheLast : Prop :=
  ∀ (s : State) (n : Nat) (rest : List CycleInput), s.phase.awaiting = true → s.chan = .opened → s.rxq = [] →
    s.rxTimer.toNat = n → s.inputs = List.replicate (n + 1) { quietInput true with tick := true } ++ rest →
    (∀ m ≤ n, ∃ t, Host.Core.run core m s = .next t ∧ t.phase = s.phase ∧ t.rxTimer.toNat = n - m) ∧
    ∃ t, Host.Core.run core (n + 1) s = .next t ∧ t.phase = .failed ∧
      t.result = (if s.rxGot = 0 then .timeout else .shortRead) ∧ t.offset = s.offset ∧ t.chunkIdx = s.chunkIdx ∧
      t.rxGot = s.rxGot ∧ t.txh = s.txh ∧ t.inputs = rest

/-! ### The link and the transport error -/

/-- R218: a cycle with link_up = 0. -/
def Obligations.LinkLossClosesTheChannel : Prop :=
  ∀ s : State, nextInput s = quietInput false →
    (s.chan = .opened → s.phase.busy = true →
      step s = .next { consumeInput s with
        linkUp := false, rxq := [], chan := .closed, phase := .failed, result := .connectionError,
        abortPending := false }) ∧
    (s.chan = .opened → s.phase.busy = false →
      step s = .next { consumeInput s with linkUp := false, rxq := [], chan := .closed }) ∧
    (s.chan = .closing → step s = .next { consumeInput s with linkUp := false, rxq := [], chan := .closed }) ∧
    (s.chan = .closed → step s = .next { consumeInput s with linkUp := false, rxq := [] })

/-- R219: a cycle with link_up = 1 opens a closed channel unless PHASE is FAILED; a closing one stays closing. That the stream
starts with RXQ empty is read as log 8 says: RXQ is empty after every cycle with the link down (R48), so it is empty where CHAN
opens as the link rises. Where the link rose while PHASE was FAILED, CHAN opens only after QUIT, and the bytes that the new
stream has brought by then stay in RXQ: the first clause keeps them. -/
def Obligations.LinkOpensAClosedChannel : Prop :=
  ∀ s : State, nextInput s = quietInput true →
    (s.chan = .closed → s.phase ≠ .failed → step s = .next { unchanged s with chan := .opened }) ∧
    (s.chan = .closed → s.phase = .failed → step s = .next (unchanged s)) ∧
    (s.chan = .closing → step s = .next (unchanged s)) ∧
    (Inv s → s.linkUp = false → ∀ t, step s = .next t → t.rxq = [])

/-- R216: tx_err while SENDING fails the transfer, and no byte is sent even with tx_ready = 1; in any other phase it has no
effect, whatever else the cycle brings. -/
def Obligations.TransportErrorFailsASend : Prop :=
  (∀ (s : State) (ready : Bool), s.chan = .opened → s.phase = .sending →
    nextInput s = { quietInput true with txErr := true, txReady := ready } →
    step s = .next { unchanged s with
      phase := .failed, result := .connectionError, abortPending := false }) ∧
  ∀ (s : State) (inp : CycleInput), s.phase ≠ .sending →
    cycle { inp with txErr := true } s = cycle { inp with txErr := false } s

/-- R220, R221: a link that falls while an operation is in flight beats a byte, a transport error and a tick of the same
cycle; no byte of the cycle counts. -/
def Obligations.LinkLossBeatsTheOtherEvents : Prop :=
  ∀ s : State, s.chan = .opened → s.phase.busy = true → (nextInput s).rst = false → (nextInput s).linkUp = false →
    (nextInput s).host = none → (nextInput s).payloadWrite = none →
    step s = .next { consumeInput s with
      linkUp := false, rxq := [], chan := .closed, phase := .failed, result := .connectionError,
      abortPending := false }

/-- R251: a send that the transport never accepts stays as it is, for any number of cycles with any arriving bytes and any
ticks. -/
def Obligations.SendWithoutReadyWaitsForEver : Prop :=
  ∀ (s : State) (is rest : List CycleInput), s.phase = .sending → s.chan = .opened → s.inputs = is ++ rest →
    (∀ i ∈ is, i.rst = false ∧ i.linkUp = true ∧ i.txErr = false ∧ i.txReady = false ∧ i.host = none ∧
      i.payloadWrite = none) →
    ∃ t, Host.Core.run core is.length s = .next t ∧ t.phase = .sending ∧ t.chan = .opened ∧ t.txPos = s.txPos ∧
      t.txh = s.txh ∧ t.txCount = s.txCount ∧ t.inputs = rest

/-- R219, R251: CLOSING stays CLOSING while link_up stays 1, for any number of cycles without a host access. -/
def Obligations.ClosingWaitsForTheLinkToFall : Prop :=
  ∀ (s : State) (is rest : List CycleInput), s.phase.busy = false → s.chan = .closing → s.inputs = is ++ rest →
    (∀ i ∈ is, i.rst = false ∧ i.linkUp = true ∧ i.host = none ∧ i.payloadWrite = none) →
    ∃ t, Host.Core.run core is.length s = .next t ∧ t.chan = .closing ∧ t.phase = s.phase ∧ t.inputs = rest

/-! ### Reset -/

/-- R240: a cycle with rst = 1 sets every register to its reset value whatever else happens in it and leaves the stores
unspecified anew; STATUS, FRAMEPOS and RXSTAT read as it says. Bytes sent stay sent, and the close is asked for (R241). That
an unspecified byte is the free value of the next reset's number is the model's form (logs 3 and 20); that TXH stays is its
reading of R241 (log 9). -/
def Obligations.ResetSetsEveryRegister : Prop :=
  ∀ s : State, (nextInput s).rst = true → ∃ t, step s = .next t ∧
    t.phase = .idle ∧ t.opkind = none ∧ t.chan = .closing ∧ t.totalLen = 0 ∧ t.offset = 0 ∧ t.chunkIdx = 0 ∧
    t.chunkLen = 0 ∧ t.lastChunk = false ∧ t.abortPending = false ∧ t.cmdErr = false ∧ t.cmdErrCause = .none ∧
    t.txPos = 0 ∧ t.frameLen = 0 ∧ t.rxStage = 0 ∧ t.rxNeed = 0 ∧ t.rxGot = 0 ∧ t.rxTimer = 0 ∧ t.ackPos = 0 ∧
    t.txCount = 0 ∧ t.rxCount = 0 ∧ t.result = .none ∧ t.fwLen = 0 ∧ t.rxTimeout = Config.rxTimeoutReset ∧
    t.rawRespLen = 0 ∧ t.rawK = 0 ∧
    (∀ r a, t.readByte r a = Config.freeByte r (s.resets + 1) a) ∧ t.txh = s.txh ∧ closeReq t = true ∧
    statusWord t = (if (nextInput s).linkUp then 0x01000200 else 0x00000200) ∧ framePosWord t = 0 ∧ rxStatWord t = 0

/-! ### The host bus -/

/-- R52: the fields of STATUS, the bits between them 0, and its value right after reset; with the codes that R21, R22, R23 and
R38 give the fields' values. -/
def Obligations.StatusFields : Prop :=
  (∀ s : State,
    (statusWord s).extractLsb' 0 3 = s.phase.code ∧ (statusWord s).extractLsb' 3 1 = 0#1 ∧
    (statusWord s).extractLsb' 4 2 = kindCode s.opkind ∧ (statusWord s).extractLsb' 6 2 = 0#2 ∧
    (statusWord s).extractLsb' 8 2 = s.chan.code ∧ (statusWord s).extractLsb' 10 2 = 0#2 ∧
    (statusWord s).extractLsb' 12 1 = BitVec.ofBool s.abortPending ∧
    (statusWord s).extractLsb' 13 1 = BitVec.ofBool s.lastChunk ∧ (statusWord s).extractLsb' 14 2 = 0#2 ∧
    (statusWord s).extractLsb' 16 1 = BitVec.ofBool s.cmdErr ∧ (statusWord s).extractLsb' 17 3 = 0#3 ∧
    (statusWord s).extractLsb' 20 3 = s.cmdErrCause.code ∧ (statusWord s).extractLsb' 23 1 = 0#1 ∧
    (statusWord s).extractLsb' 24 1 = BitVec.ofBool s.linkUp ∧ (statusWord s).extractLsb' 25 7 = 0#7) ∧
  statusWord { State.reset with linkUp := false } = 0x00000200 ∧
  statusWord { State.reset with linkUp := true } = 0x01000200 ∧
  Phase.idle.code = 0 ∧ Phase.sending.code = 1 ∧ Phase.awaitAck.code = 2 ∧ Phase.awaitFinalAck.code = 3 ∧
  Phase.complete.code = 4 ∧ Phase.failed.code = 5 ∧
  kindCode none = 0 ∧ kindCode (some .image) = 1 ∧ kindCode (some .firmware) = 2 ∧ kindCode (some .raw) = 3 ∧
  Chan.closed.code = 0 ∧ Chan.opened.code = 1 ∧ Chan.closing.code = 2 ∧
  Cause.none.code = 0 ∧ Cause.illegal.code = 1 ∧ Cause.busy.code = 2 ∧ Cause.failedState.code = 3 ∧ Cause.length.code = 4

/-- R53 and R42: the fields of FRAMEPOS, RXSTAT and RAWSTAT, the bits between them 0, and 0 right after reset. -/
def Obligations.PositionRegisterFields : Prop :=
  (∀ s : State,
    (framePosWord s).extractLsb' 0 14 = s.txPos ∧ (framePosWord s).extractLsb' 14 2 = 0#2 ∧
    (framePosWord s).extractLsb' 16 14 = s.frameLen ∧ (framePosWord s).extractLsb' 30 2 = 0#2 ∧
    (rxStatWord s).extractLsb' 0 2 = s.rxStage ∧ (rxStatWord s).extractLsb' 2 6 = 0#6 ∧
    (rxStatWord s).extractLsb' 8 8 = s.rxNeed ∧ (rxStatWord s).extractLsb' 16 8 = s.rxGot ∧
    (rxStatWord s).extractLsb' 24 4 = s.ackPos ∧ (rxStatWord s).extractLsb' 28 4 = 0#4 ∧
    (rawStatWord s).extractLsb' 0 8 = s.rawRespLen ∧ (rawStatWord s).extractLsb' 8 8 = 0#8 ∧
    (rawStatWord s).extractLsb' 16 7 = s.rawK ∧ (rawStatWord s).extractLsb' 23 9 = 0#9) ∧
  framePosWord State.reset = 0 ∧ rxStatWord State.reset = 0 ∧ rawStatWord State.reset = 0

/-- R63: the accesses that are admitted, and what becomes of any other: the hardware answers herr = 1 and changes no state,
and the model refuses the program. -/
def Obligations.AdmittedAccesses : Prop :=
  (∀ (size : Size) (a : BitVec 12), target? size a ≠ none ↔
    (size = .word ∧ a.toNat % 4 = 0 ∧ a.toNat ≤ 0x03B) ∨
    ((size = .word → a.toNat % 4 = 0) ∧
      ∃ b ∈ [(0x040, 68), (0x088, 4), (0x090, 12), (0x100, 255)],
        b.1 ≤ a.toNat ∧ a.toNat + (if size = .word then 4 else 1) ≤ b.1 + b.2)) ∧
  (∀ (s : State) (acc : HostAccess), acc.target? = none →
    hostEvent (some acc) s = .refused .accessNotAdmitted ∧
    ∃ d, busAccess acc s = .next { s with busResp := some ⟨true, d⟩, busErrors := s.busErrors + 1 })

/-- R189: a read answers with the value and changes no state; the registers of R51 by their offsets, with the codes of RESULT
(R37); a byte comes in bits [7:0]; CMD reads 0; a buffer word is little-endian (R66). -/
def Obligations.HostReadAnswersAndChangesNothing : Prop :=
  (∀ s : State, ∀ p ∈ [(0x000#12, 0#32), (0x004#12, statusWord s), (0x008#12, s.result.code.setWidth 32),
      (0x00C#12, s.totalLen), (0x010#12, s.offset), (0x014#12, s.chunkIdx), (0x018#12, s.chunkLen.setWidth 32),
      (0x01C#12, framePosWord s), (0x020#12, rxStatWord s), (0x024#12, s.rxTimer), (0x028#12, s.txCount),
      (0x02C#12, s.rxCount), (0x030#12, s.fwLen), (0x034#12, s.rxTimeout), (0x038#12, rawStatWord s)],
    hostEvent (some (.read .word p.1)) s = .next { s with busResp := some ⟨false, some p.2⟩ }) ∧
  (∀ p ∈ [(Region.rawCmdBuf, 0x040, 68), (Region.rawRespHdr, 0x088, 4), (Region.ackBuf, 0x090, 12),
      (Region.rawRespPayload, 0x100, 255)],
    (∀ i < p.2.2, target? .byte (BitVec.ofNat 12 (p.2.1 + i)) = some (.byte p.1 i)) ∧
    ∀ i, i % 4 = 0 → i + 4 ≤ p.2.2 → target? .word (BitVec.ofNat 12 (p.2.1 + i)) = some (.word p.1 i)) ∧
  (∀ (s : State) (size : Size) (a : BitVec 12) (tg : Target), target? size a = some tg →
    hostEvent (some (.read size a)) s = .next { s with busResp := some ⟨false, some (targetRead tg s)⟩ }) ∧
  (∀ (s : State) (r : Region) (i : Nat),
    (targetRead (.byte r i) s).extractLsb' 0 8 = s.readByte r i ∧
    (targetRead (.byte r i) s).extractLsb' 8 24 = 0#24 ∧
    ∀ j < 4, (targetRead (.word r i) s).extractLsb' (8 * j) 8 = s.readByte r (i + j)) ∧
  ResultCode.none.code = 0 ∧ ResultCode.ok.code = 1 ∧ ResultCode.connectionError.code = 2 ∧
  ResultCode.shortRead.code = 3 ∧ ResultCode.timeout.code = 4 ∧ ResultCode.invalidChunkBoundary.code = 5 ∧
  ResultCode.aborted.code = 6

/-- R54 and R190: a write to a read-only register or buffer has no effect. -/
def Obligations.ReadOnlyWritesHaveNoEffect : Prop :=
  ∀ (s : State) (size : Size) (a : BitVec 12) (w : Word) (tg : Target), target? size a = some tg →
    tg ≠ .reg .cmd → tg ≠ .reg .fwLen → tg ≠ .reg .rxTimeout → (∀ i, tg ≠ .byte .rawCmdBuf i) →
    (∀ i, tg ≠ .word .rawCmdBuf i) →
    hostEvent (some (.write size a w)) s = .next { s with busResp := some ⟨false, none⟩ }

/-- R40, R41, R190: FW_LEN and RX_TIMEOUT take the data of a write in every phase, and nothing else changes. -/
def Obligations.ConfigurationWritesStore : Prop :=
  ∀ (s : State) (w : Word),
    hostEvent (some (.write .word 0x030#12 w)) s = .next { s with fwLen := w, busResp := some ⟨false, none⟩ } ∧
    hostEvent (some (.write .word 0x034#12 w)) s = .next { s with rxTimeout := w, busResp := some ⟨false, none⟩ }

/-- R66, R190: a word or byte written to RAW_CMD_BUF is there byte by byte, and every other byte of every store is as it was.
The byte of a byte write is bits [7:0] of the data (log 13). -/
def Obligations.RawBufferWritesByLanes : Prop :=
  (∀ (s : State) (i : Nat) (w : Word), i + 4 ≤ 68 → i % 4 = 0 → rawBufLocked s = false →
    ∃ t, hostEvent (some (.write .word (BitVec.ofNat 12 (0x040 + i)) w)) s = .next t ∧
      (∀ j < 4, t.readByte .rawCmdBuf (i + j) = w.extractLsb' (8 * j) 8) ∧
      (∀ r a, r ≠ .rawCmdBuf ∨ a < i ∨ i + 4 ≤ a → t.readByte r a = s.readByte r a) ∧
      targetRead (.word .rawCmdBuf i) t = w ∧
      t = { s with rawCmdBuf := t.rawCmdBuf, busResp := some ⟨false, none⟩ }) ∧
  (∀ (s : State) (i : Nat) (w : Word), i < 68 → rawBufLocked s = false →
    ∃ t, hostEvent (some (.write .byte (BitVec.ofNat 12 (0x040 + i)) w)) s = .next t ∧
      t.readByte .rawCmdBuf i = w.extractLsb' 0 8 ∧
      (∀ r a, r ≠ .rawCmdBuf ∨ a ≠ i → t.readByte r a = s.readByte r a) ∧
      t = { s with rawCmdBuf := t.rawCmdBuf, busResp := some ⟨false, none⟩ })

/-- R61: a payload-port write below PAYLOAD_BYTES stores its byte and changes no other byte; at or above it nothing
changes. -/
def Obligations.PayloadPortStoresBelowTheBound : Prop :=
  ∀ (s : State) (p : PayloadWrite), payloadLocked p.addr s = false →
    (p.addr.toNat < Config.payloadBytes → ∃ t, payloadEvent (some p) s = .next t ∧
      t.readByte .payload p.addr.toNat = p.data ∧
      (∀ r a, r ≠ .payload ∨ a ≠ p.addr.toNat → t.readByte r a = s.readByte r a) ∧
      t = { s with payload := t.payload }) ∧
    (Config.payloadBytes ≤ p.addr.toNat → payloadEvent (some p) s = .next s)

/-- R244: the writes that a model does not admit. -/
def Obligations.HazardousWritesAreRefused : Prop :=
  (∀ (s : State) (p : PayloadWrite), s.opkind = some .image ∨ s.opkind = some .firmware → s.phase.busy = true →
    p.addr.toNat < s.totalLen.toNat → payloadEvent (some p) s = .refused .payloadWriteDuringTransfer) ∧
  (∀ (s : State) (size : Size) (a : BitVec 12) (w : Word) (tg : Target), s.opkind = some .raw → s.phase = .sending →
    target? size a = some tg → (∃ i, tg = .byte .rawCmdBuf i ∨ tg = .word .rawCmdBuf i) →
    hostEvent (some (.write size a w)) s = .refused .rawBufWriteWhileSending)

/-- R61: the host cannot read PAYLOAD back. With other payload bytes a cycle does the same, but for the payload and the bytes
on the wire. -/
def Obligations.PayloadCannotBeReadBack : Prop :=
  ∀ (s t : State) (m : Memory), step s = .next t →
    ∃ m' h, step { s with payload := m } = .next { t with payload := m', txh := h }

/-! ### Rules of the whole machine -/

/-- R154: in IDLE, COMPLETE and FAILED a cycle without a bus access is its link event and its payload write and nothing
else: the engine has no step, whatever tick, tx_ready, tx_err and the arriving bytes are. CHAN is what the link makes it
(R218, R219), every payload byte but the written one reads as before, and everything else is as the cycle's inputs left it. -/
def Obligations.RestingPhasesHaveNoEngineStep : Prop :=
  ∀ s : State, s.phase.busy = false → (nextInput s).rst = false → (nextInput s).host = none →
    step s = payloadEvent (nextInput s).payloadWrite (linkEvent (started s)) ∧
    ∃ t, step s = .next t ∧ t = { started s with chan := t.chan, payload := t.payload } ∧
      t.chan = (if (nextInput s).linkUp = true then
        if s.chan = .closed ∧ s.phase ≠ .failed then .opened else s.chan
        else .closed) ∧
      (∀ a, (∀ p, (nextInput s).payloadWrite = some p → a ≠ p.addr.toNat) →
        t.readByte .payload a = s.readByte .payload a)

/-- R222, R223: FAILED is left only by QUIT, to IDLE, or by reset; until then RESULT, the progress registers and the wire
stay. -/
def Obligations.FailedIsLeftOnlyByQuitOrReset : Prop :=
  ∀ s t : State, s.phase = .failed → step s = .next t → (nextInput s).rst = false →
    t.result = s.result ∧ t.offset = s.offset ∧ t.chunkIdx = s.chunkIdx ∧ t.txh = s.txh ∧ t.rxh = s.rxh ∧
    (t.phase = .failed ∨
      t.phase = .idle ∧ t.opkind = none ∧ t.chan ≠ .opened ∧
        (nextInput s).host = some (.write .word 0x000#12 0x00000005#32))

/-- R22: OPKIND changes only by reset, by a transfer command, or by QUIT. -/
def Obligations.OpkindIsWrittenByCommandsOnly : Prop :=
  ∀ s t : State, step s = .next t → t.opkind ≠ s.opkind →
    (nextInput s).rst = true ∨
      ∃ w i, (nextInput s).host = some (.write .word 0x000#12 w) ∧ decode w = .ok i ∧ i ≠ .nop ∧ i ≠ .abort

/-- The invariant holds right after reset, whatever inputs are to come. -/
def Obligations.InvariantHoldsAtReset : Prop :=
  ∀ inputs : List CycleInput, Inv { State.reset with inputs := inputs }

/-- Every step keeps the invariant. -/
def Obligations.EveryStepKeepsTheInvariant : Prop :=
  ∀ s t : State, Inv s → step s = .next t → Inv t

/-- In a state of the invariant no step faults: the engine never uses a rule outside its domain. -/
def Obligations.NoStepFaultsUnderTheInvariant : Prop :=
  ∀ (s : State) (f : Fault), Inv s → step s ≠ .fault f

/-- R56: the listed invariants, in every state reached from reset with any inputs. R213: chunk setup fails with
INVALID_CHUNK_BOUNDARY on a length that is 0 or above the kind's maximum, before any byte of the chunk; and no state reached
from reset reports it. -/
def Obligations.ListedInvariantsInReachableStates : Prop :=
  (∀ s : State, Reachable s → ListedInvariants s ∧ s.result ≠ .invalidChunkBoundary) ∧
  ∀ (k : Kind) (s : State), chunkLenOf k s = 0 ∨ k.maxChunk < chunkLenOf k s →
    setupChunk k s = { s with phase := .failed, result := .invalidChunkBoundary, abortPending := false }

/-- R120: the wire totals of a transfer that completes, modulo 2^32 (R35, R36). -/
def Obligations.WireTotalsOfACompletedTransfer : Prop :=
  ∀ (s : State) (k : Kind), Inv s → s.phase = .complete → s.result = .ok → s.opkind = some k →
    s.txCount = BitVec.ofNat 32 (wireTxTotal k s.totalLen.toNat) ∧
    s.rxCount = BitVec.ofNat 32 (wireRxTotal k s.totalLen.toNat s.rawRespLen.toNat)

/-- What a transfer in flight has sent is the end of the wire TX history, and every step keeps that (R86 to R90, R116). -/
def Obligations.EveryStepKeepsTheWireStream : Prop :=
  ∀ s t : State, Inv s → WireOk s → step s = .next t → WireOk t

/-- The frames on the wire (R86 to R88, R90, R110): where the engine's events of a cycle end an image or firmware transfer
with OK, the wire TX history ends with all of its frames, one after another, whatever the host does later in the cycle; where a
cycle takes a raw transfer out of SENDING into AWAIT_ACK, it ends with the RAW frame. A run of an image or firmware operation
(R252) that ends with OK has its frames at the end of the history. -/
def Obligations.CompletedTransferHasSentItsFrames : Prop :=
  (∀ (s u : State) (k : Kind), Inv s → WireOk s → s.phase.busy = true → s.opkind = some k → k ≠ .raw →
    (nextInput s).rst = false → engineEvents (nextInput s) (started s) = .ok u → u.phase = .complete → u.result = .ok →
    framesUpTo k s s.totalLen.toNat (partition k s.totalLen.toNat).length <:+ u.txh ∧
      ∀ t, step s = .next t → t.txh = u.txh) ∧
  (∀ s t : State, Inv s → WireOk s → s.phase = .sending → s.opkind = some .raw → step s = .next t →
    t.phase = .awaitAck → rawFrame s <:+ t.txh) ∧
  ∀ (n : Nat) (s u : State) (k : Kind), Inv s → WireOk s → operationEnd n s = some u → u.opkind = some k → k ≠ .raw →
    u.result = .ok → framesUpTo k u u.totalLen.toNat (partition k u.totalLen.toNat).length <:+ u.txh
end

