-- ==== Sys2Proof/Laws/State.lean ====
section
/-! SUPPORT. What each named update of State leaves in each field, one lemma a field: no proof unfolds a record update. -/

namespace Sys2Proof.Machine

/-! ### fail -/

@[simp] theorem fail_phase (c : ResultCode) (s : State) : (fail c s).phase = .failed := rfl
@[simp] theorem fail_opkind (c : ResultCode) (s : State) : (fail c s).opkind = s.opkind := rfl
@[simp] theorem fail_chan (c : ResultCode) (s : State) : (fail c s).chan = s.chan := rfl
@[simp] theorem fail_totalLen (c : ResultCode) (s : State) : (fail c s).totalLen = s.totalLen := rfl
@[simp] theorem fail_offset (c : ResultCode) (s : State) : (fail c s).offset = s.offset := rfl
@[simp] theorem fail_chunkIdx (c : ResultCode) (s : State) : (fail c s).chunkIdx = s.chunkIdx := rfl
@[simp] theorem fail_chunkLen (c : ResultCode) (s : State) : (fail c s).chunkLen = s.chunkLen := rfl
@[simp] theorem fail_lastChunk (c : ResultCode) (s : State) : (fail c s).lastChunk = s.lastChunk := rfl
@[simp] theorem fail_txPos (c : ResultCode) (s : State) : (fail c s).txPos = s.txPos := rfl
@[simp] theorem fail_frameLen (c : ResultCode) (s : State) : (fail c s).frameLen = s.frameLen := rfl
@[simp] theorem fail_rxStage (c : ResultCode) (s : State) : (fail c s).rxStage = s.rxStage := rfl
@[simp] theorem fail_rxNeed (c : ResultCode) (s : State) : (fail c s).rxNeed = s.rxNeed := rfl
@[simp] theorem fail_rxGot (c : ResultCode) (s : State) : (fail c s).rxGot = s.rxGot := rfl
@[simp] theorem fail_rxTimer (c : ResultCode) (s : State) : (fail c s).rxTimer = s.rxTimer := rfl
@[simp] theorem fail_ackPos (c : ResultCode) (s : State) : (fail c s).ackPos = s.ackPos := rfl
@[simp] theorem fail_txCount (c : ResultCode) (s : State) : (fail c s).txCount = s.txCount := rfl
@[simp] theorem fail_rxCount (c : ResultCode) (s : State) : (fail c s).rxCount = s.rxCount := rfl
@[simp] theorem fail_result (c : ResultCode) (s : State) : (fail c s).result = c := rfl
@[simp] theorem fail_cmdErr (c : ResultCode) (s : State) : (fail c s).cmdErr = s.cmdErr := rfl
@[simp] theorem fail_cmdErrCause (c : ResultCode) (s : State) : (fail c s).cmdErrCause = s.cmdErrCause := rfl
@[simp] theorem fail_abortPending (c : ResultCode) (s : State) : (fail c s).abortPending = false := rfl
@[simp] theorem fail_fwLen (c : ResultCode) (s : State) : (fail c s).fwLen = s.fwLen := rfl
@[simp] theorem fail_rxTimeout (c : ResultCode) (s : State) : (fail c s).rxTimeout = s.rxTimeout := rfl
@[simp] theorem fail_rawRespLen (c : ResultCode) (s : State) : (fail c s).rawRespLen = s.rawRespLen := rfl
@[simp] theorem fail_rawK (c : ResultCode) (s : State) : (fail c s).rawK = s.rawK := rfl
@[simp] theorem fail_rawCmdBuf (c : ResultCode) (s : State) : (fail c s).rawCmdBuf = s.rawCmdBuf := rfl
@[simp] theorem fail_rawRespHdr (c : ResultCode) (s : State) : (fail c s).rawRespHdr = s.rawRespHdr := rfl
@[simp] theorem fail_ackBuf (c : ResultCode) (s : State) : (fail c s).ackBuf = s.ackBuf := rfl
@[simp] theorem fail_rawRespPayload (c : ResultCode) (s : State) : (fail c s).rawRespPayload = s.rawRespPayload := rfl
@[simp] theorem fail_payload (c : ResultCode) (s : State) : (fail c s).payload = s.payload := rfl
@[simp] theorem fail_linkUp (c : ResultCode) (s : State) : (fail c s).linkUp = s.linkUp := rfl
@[simp] theorem fail_rxq (c : ResultCode) (s : State) : (fail c s).rxq = s.rxq := rfl
@[simp] theorem fail_txh (c : ResultCode) (s : State) : (fail c s).txh = s.txh := rfl
@[simp] theorem fail_rxh (c : ResultCode) (s : State) : (fail c s).rxh = s.rxh := rfl
@[simp] theorem fail_inputs (c : ResultCode) (s : State) : (fail c s).inputs = s.inputs := rfl
@[simp] theorem fail_busResp (c : ResultCode) (s : State) : (fail c s).busResp = s.busResp := rfl
@[simp] theorem fail_resets (c : ResultCode) (s : State) : (fail c s).resets = s.resets := rfl
@[simp] theorem fail_busErrors (c : ResultCode) (s : State) : (fail c s).busErrors = s.busErrors := rfl

/-! ### finish -/

@[simp] theorem finish_phase (c : ResultCode) (s : State) : (finish c s).phase = .complete := rfl
@[simp] theorem finish_opkind (c : ResultCode) (s : State) : (finish c s).opkind = s.opkind := rfl
@[simp] theorem finish_chan (c : ResultCode) (s : State) : (finish c s).chan = s.chan := rfl
@[simp] theorem finish_totalLen (c : ResultCode) (s : State) : (finish c s).totalLen = s.totalLen := rfl
@[simp] theorem finish_offset (c : ResultCode) (s : State) : (finish c s).offset = s.offset := rfl
@[simp] theorem finish_chunkIdx (c : ResultCode) (s : State) : (finish c s).chunkIdx = s.chunkIdx := rfl
@[simp] theorem finish_chunkLen (c : ResultCode) (s : State) : (finish c s).chunkLen = s.chunkLen := rfl
@[simp] theorem finish_lastChunk (c : ResultCode) (s : State) : (finish c s).lastChunk = s.lastChunk := rfl
@[simp] theorem finish_txPos (c : ResultCode) (s : State) : (finish c s).txPos = s.txPos := rfl
@[simp] theorem finish_frameLen (c : ResultCode) (s : State) : (finish c s).frameLen = s.frameLen := rfl
@[simp] theorem finish_rxStage (c : ResultCode) (s : State) : (finish c s).rxStage = s.rxStage := rfl
@[simp] theorem finish_rxNeed (c : ResultCode) (s : State) : (finish c s).rxNeed = s.rxNeed := rfl
@[simp] theorem finish_rxGot (c : ResultCode) (s : State) : (finish c s).rxGot = s.rxGot := rfl
@[simp] theorem finish_rxTimer (c : ResultCode) (s : State) : (finish c s).rxTimer = s.rxTimer := rfl
@[simp] theorem finish_ackPos (c : ResultCode) (s : State) : (finish c s).ackPos = s.ackPos := rfl
@[simp] theorem finish_txCount (c : ResultCode) (s : State) : (finish c s).txCount = s.txCount := rfl
@[simp] theorem finish_rxCount (c : ResultCode) (s : State) : (finish c s).rxCount = s.rxCount := rfl
@[simp] theorem finish_result (c : ResultCode) (s : State) : (finish c s).result = c := rfl
@[simp] theorem finish_cmdErr (c : ResultCode) (s : State) : (finish c s).cmdErr = s.cmdErr := rfl
@[simp] theorem finish_cmdErrCause (c : ResultCode) (s : State) : (finish c s).cmdErrCause = s.cmdErrCause := rfl
@[simp] theorem finish_abortPending (c : ResultCode) (s : State) : (finish c s).abortPending = false := rfl
@[simp] theorem finish_fwLen (c : ResultCode) (s : State) : (finish c s).fwLen = s.fwLen := rfl
@[simp] theorem finish_rxTimeout (c : ResultCode) (s : State) : (finish c s).rxTimeout = s.rxTimeout := rfl
@[simp] theorem finish_rawRespLen (c : ResultCode) (s : State) : (finish c s).rawRespLen = s.rawRespLen := rfl
@[simp] theorem finish_rawK (c : ResultCode) (s : State) : (finish c s).rawK = s.rawK := rfl
@[simp] theorem finish_rawCmdBuf (c : ResultCode) (s : State) : (finish c s).rawCmdBuf = s.rawCmdBuf := rfl
@[simp] theorem finish_rawRespHdr (c : ResultCode) (s : State) : (finish c s).rawRespHdr = s.rawRespHdr := rfl
@[simp] theorem finish_ackBuf (c : ResultCode) (s : State) : (finish c s).ackBuf = s.ackBuf := rfl
@[simp] theorem finish_rawRespPayload (c : ResultCode) (s : State) : (finish c s).rawRespPayload = s.rawRespPayload := rfl
@[simp] theorem finish_payload (c : ResultCode) (s : State) : (finish c s).payload = s.payload := rfl
@[simp] theorem finish_linkUp (c : ResultCode) (s : State) : (finish c s).linkUp = s.linkUp := rfl
@[simp] theorem finish_rxq (c : ResultCode) (s : State) : (finish c s).rxq = s.rxq := rfl
@[simp] theorem finish_txh (c : ResultCode) (s : State) : (finish c s).txh = s.txh := rfl
@[simp] theorem finish_rxh (c : ResultCode) (s : State) : (finish c s).rxh = s.rxh := rfl
@[simp] theorem finish_inputs (c : ResultCode) (s : State) : (finish c s).inputs = s.inputs := rfl
@[simp] theorem finish_busResp (c : ResultCode) (s : State) : (finish c s).busResp = s.busResp := rfl
@[simp] theorem finish_resets (c : ResultCode) (s : State) : (finish c s).resets = s.resets := rfl
@[simp] theorem finish_busErrors (c : ResultCode) (s : State) : (finish c s).busErrors = s.busErrors := rfl

/-! ### reject -/

@[simp] theorem reject_phase (c : Cause) (s : State) : (reject c s).phase = s.phase := rfl
@[simp] theorem reject_opkind (c : Cause) (s : State) : (reject c s).opkind = s.opkind := rfl
@[simp] theorem reject_chan (c : Cause) (s : State) : (reject c s).chan = s.chan := rfl
@[simp] theorem reject_totalLen (c : Cause) (s : State) : (reject c s).totalLen = s.totalLen := rfl
@[simp] theorem reject_offset (c : Cause) (s : State) : (reject c s).offset = s.offset := rfl
@[simp] theorem reject_chunkIdx (c : Cause) (s : State) : (reject c s).chunkIdx = s.chunkIdx := rfl
@[simp] theorem reject_chunkLen (c : Cause) (s : State) : (reject c s).chunkLen = s.chunkLen := rfl
@[simp] theorem reject_lastChunk (c : Cause) (s : State) : (reject c s).lastChunk = s.lastChunk := rfl
@[simp] theorem reject_txPos (c : Cause) (s : State) : (reject c s).txPos = s.txPos := rfl
@[simp] theorem reject_frameLen (c : Cause) (s : State) : (reject c s).frameLen = s.frameLen := rfl
@[simp] theorem reject_rxStage (c : Cause) (s : State) : (reject c s).rxStage = s.rxStage := rfl
@[simp] theorem reject_rxNeed (c : Cause) (s : State) : (reject c s).rxNeed = s.rxNeed := rfl
@[simp] theorem reject_rxGot (c : Cause) (s : State) : (reject c s).rxGot = s.rxGot := rfl
@[simp] theorem reject_rxTimer (c : Cause) (s : State) : (reject c s).rxTimer = s.rxTimer := rfl
@[simp] theorem reject_ackPos (c : Cause) (s : State) : (reject c s).ackPos = s.ackPos := rfl
@[simp] theorem reject_txCount (c : Cause) (s : State) : (reject c s).txCount = s.txCount := rfl
@[simp] theorem reject_rxCount (c : Cause) (s : State) : (reject c s).rxCount = s.rxCount := rfl
@[simp] theorem reject_result (c : Cause) (s : State) : (reject c s).result = s.result := rfl
@[simp] theorem reject_cmdErr (c : Cause) (s : State) : (reject c s).cmdErr = true := rfl
@[simp] theorem reject_cmdErrCause (c : Cause) (s : State) : (reject c s).cmdErrCause = c := rfl
@[simp] theorem reject_abortPending (c : Cause) (s : State) : (reject c s).abortPending = s.abortPending := rfl
@[simp] theorem reject_fwLen (c : Cause) (s : State) : (reject c s).fwLen = s.fwLen := rfl
@[simp] theorem reject_rxTimeout (c : Cause) (s : State) : (reject c s).rxTimeout = s.rxTimeout := rfl
@[simp] theorem reject_rawRespLen (c : Cause) (s : State) : (reject c s).rawRespLen = s.rawRespLen := rfl
@[simp] theorem reject_rawK (c : Cause) (s : State) : (reject c s).rawK = s.rawK := rfl
@[simp] theorem reject_rawCmdBuf (c : Cause) (s : State) : (reject c s).rawCmdBuf = s.rawCmdBuf := rfl
@[simp] theorem reject_rawRespHdr (c : Cause) (s : State) : (reject c s).rawRespHdr = s.rawRespHdr := rfl
@[simp] theorem reject_ackBuf (c : Cause) (s : State) : (reject c s).ackBuf = s.ackBuf := rfl
@[simp] theorem reject_rawRespPayload (c : Cause) (s : State) : (reject c s).rawRespPayload = s.rawRespPayload := rfl
@[simp] theorem reject_payload (c : Cause) (s : State) : (reject c s).payload = s.payload := rfl
@[simp] theorem reject_linkUp (c : Cause) (s : State) : (reject c s).linkUp = s.linkUp := rfl
@[simp] theorem reject_rxq (c : Cause) (s : State) : (reject c s).rxq = s.rxq := rfl
@[simp] theorem reject_txh (c : Cause) (s : State) : (reject c s).txh = s.txh := rfl
@[simp] theorem reject_rxh (c : Cause) (s : State) : (reject c s).rxh = s.rxh := rfl
@[simp] theorem reject_inputs (c : Cause) (s : State) : (reject c s).inputs = s.inputs := rfl
@[simp] theorem reject_busResp (c : Cause) (s : State) : (reject c s).busResp = s.busResp := rfl
@[simp] theorem reject_resets (c : Cause) (s : State) : (reject c s).resets = s.resets := rfl
@[simp] theorem reject_busErrors (c : Cause) (s : State) : (reject c s).busErrors = s.busErrors := rfl

/-! ### accept -/

@[simp] theorem accept_phase (s : State) : (accept s).phase = s.phase := rfl
@[simp] theorem accept_opkind (s : State) : (accept s).opkind = s.opkind := rfl
@[simp] theorem accept_chan (s : State) : (accept s).chan = s.chan := rfl
@[simp] theorem accept_totalLen (s : State) : (accept s).totalLen = s.totalLen := rfl
@[simp] theorem accept_offset (s : State) : (accept s).offset = s.offset := rfl
@[simp] theorem accept_chunkIdx (s : State) : (accept s).chunkIdx = s.chunkIdx := rfl
@[simp] theorem accept_chunkLen (s : State) : (accept s).chunkLen = s.chunkLen := rfl
@[simp] theorem accept_lastChunk (s : State) : (accept s).lastChunk = s.lastChunk := rfl
@[simp] theorem accept_txPos (s : State) : (accept s).txPos = s.txPos := rfl
@[simp] theorem accept_frameLen (s : State) : (accept s).frameLen = s.frameLen := rfl
@[simp] theorem accept_rxStage (s : State) : (accept s).rxStage = s.rxStage := rfl
@[simp] theorem accept_rxNeed (s : State) : (accept s).rxNeed = s.rxNeed := rfl
@[simp] theorem accept_rxGot (s : State) : (accept s).rxGot = s.rxGot := rfl
@[simp] theorem accept_rxTimer (s : State) : (accept s).rxTimer = s.rxTimer := rfl
@[simp] theorem accept_ackPos (s : State) : (accept s).ackPos = s.ackPos := rfl
@[simp] theorem accept_txCount (s : State) : (accept s).txCount = s.txCount := rfl
@[simp] theorem accept_rxCount (s : State) : (accept s).rxCount = s.rxCount := rfl
@[simp] theorem accept_result (s : State) : (accept s).result = s.result := rfl
@[simp] theorem accept_cmdErr (s : State) : (accept s).cmdErr = false := rfl
@[simp] theorem accept_cmdErrCause (s : State) : (accept s).cmdErrCause = .none := rfl
@[simp] theorem accept_abortPending (s : State) : (accept s).abortPending = s.abortPending := rfl
@[simp] theorem accept_fwLen (s : State) : (accept s).fwLen = s.fwLen := rfl
@[simp] theorem accept_rxTimeout (s : State) : (accept s).rxTimeout = s.rxTimeout := rfl
@[simp] theorem accept_rawRespLen (s : State) : (accept s).rawRespLen = s.rawRespLen := rfl
@[simp] theorem accept_rawK (s : State) : (accept s).rawK = s.rawK := rfl
@[simp] theorem accept_rawCmdBuf (s : State) : (accept s).rawCmdBuf = s.rawCmdBuf := rfl
@[simp] theorem accept_rawRespHdr (s : State) : (accept s).rawRespHdr = s.rawRespHdr := rfl
@[simp] theorem accept_ackBuf (s : State) : (accept s).ackBuf = s.ackBuf := rfl
@[simp] theorem accept_rawRespPayload (s : State) : (accept s).rawRespPayload = s.rawRespPayload := rfl
@[simp] theorem accept_payload (s : State) : (accept s).payload = s.payload := rfl
@[simp] theorem accept_linkUp (s : State) : (accept s).linkUp = s.linkUp := rfl
@[simp] theorem accept_rxq (s : State) : (accept s).rxq = s.rxq := rfl
@[simp] theorem accept_txh (s : State) : (accept s).txh = s.txh := rfl
@[simp] theorem accept_rxh (s : State) : (accept s).rxh = s.rxh := rfl
@[simp] theorem accept_inputs (s : State) : (accept s).inputs = s.inputs := rfl
@[simp] theorem accept_busResp (s : State) : (accept s).busResp = s.busResp := rfl
@[simp] theorem accept_resets (s : State) : (accept s).resets = s.resets := rfl
@[simp] theorem accept_busErrors (s : State) : (accept s).busErrors = s.busErrors := rfl

/-! ### leaveSession -/

@[simp] theorem leaveSession_phase (s : State) : (leaveSession s).phase = .idle := rfl
@[simp] theorem leaveSession_opkind (s : State) : (leaveSession s).opkind = none := rfl
@[simp] theorem leaveSession_chan (s : State) : (leaveSession s).chan = if s.chan = .opened then .closing else s.chan := rfl
@[simp] theorem leaveSession_totalLen (s : State) : (leaveSession s).totalLen = s.totalLen := rfl
@[simp] theorem leaveSession_offset (s : State) : (leaveSession s).offset = s.offset := rfl
@[simp] theorem leaveSession_chunkIdx (s : State) : (leaveSession s).chunkIdx = s.chunkIdx := rfl
@[simp] theorem leaveSession_chunkLen (s : State) : (leaveSession s).chunkLen = s.chunkLen := rfl
@[simp] theorem leaveSession_lastChunk (s : State) : (leaveSession s).lastChunk = s.lastChunk := rfl
@[simp] theorem leaveSession_txPos (s : State) : (leaveSession s).txPos = s.txPos := rfl
@[simp] theorem leaveSession_frameLen (s : State) : (leaveSession s).frameLen = s.frameLen := rfl
@[simp] theorem leaveSession_rxStage (s : State) : (leaveSession s).rxStage = s.rxStage := rfl
@[simp] theorem leaveSession_rxNeed (s : State) : (leaveSession s).rxNeed = s.rxNeed := rfl
@[simp] theorem leaveSession_rxGot (s : State) : (leaveSession s).rxGot = s.rxGot := rfl
@[simp] theorem leaveSession_rxTimer (s : State) : (leaveSession s).rxTimer = s.rxTimer := rfl
@[simp] theorem leaveSession_ackPos (s : State) : (leaveSession s).ackPos = s.ackPos := rfl
@[simp] theorem leaveSession_txCount (s : State) : (leaveSession s).txCount = s.txCount := rfl
@[simp] theorem leaveSession_rxCount (s : State) : (leaveSession s).rxCount = s.rxCount := rfl
@[simp] theorem leaveSession_result (s : State) : (leaveSession s).result = s.result := rfl
@[simp] theorem leaveSession_cmdErr (s : State) : (leaveSession s).cmdErr = s.cmdErr := rfl
@[simp] theorem leaveSession_cmdErrCause (s : State) : (leaveSession s).cmdErrCause = s.cmdErrCause := rfl
@[simp] theorem leaveSession_abortPending (s : State) : (leaveSession s).abortPending = false := rfl
@[simp] theorem leaveSession_fwLen (s : State) : (leaveSession s).fwLen = s.fwLen := rfl
@[simp] theorem leaveSession_rxTimeout (s : State) : (leaveSession s).rxTimeout = s.rxTimeout := rfl
@[simp] theorem leaveSession_rawRespLen (s : State) : (leaveSession s).rawRespLen = s.rawRespLen := rfl
@[simp] theorem leaveSession_rawK (s : State) : (leaveSession s).rawK = s.rawK := rfl
@[simp] theorem leaveSession_rawCmdBuf (s : State) : (leaveSession s).rawCmdBuf = s.rawCmdBuf := rfl
@[simp] theorem leaveSession_rawRespHdr (s : State) : (leaveSession s).rawRespHdr = s.rawRespHdr := rfl
@[simp] theorem leaveSession_ackBuf (s : State) : (leaveSession s).ackBuf = s.ackBuf := rfl
@[simp] theorem leaveSession_rawRespPayload (s : State) : (leaveSession s).rawRespPayload = s.rawRespPayload := rfl
@[simp] theorem leaveSession_payload (s : State) : (leaveSession s).payload = s.payload := rfl
@[simp] theorem leaveSession_linkUp (s : State) : (leaveSession s).linkUp = s.linkUp := rfl
@[simp] theorem leaveSession_rxq (s : State) : (leaveSession s).rxq = s.rxq := rfl
@[simp] theorem leaveSession_txh (s : State) : (leaveSession s).txh = s.txh := rfl
@[simp] theorem leaveSession_rxh (s : State) : (leaveSession s).rxh = s.rxh := rfl
@[simp] theorem leaveSession_inputs (s : State) : (leaveSession s).inputs = s.inputs := rfl
@[simp] theorem leaveSession_busResp (s : State) : (leaveSession s).busResp = s.busResp := rfl
@[simp] theorem leaveSession_resets (s : State) : (leaveSession s).resets = s.resets := rfl
@[simp] theorem leaveSession_busErrors (s : State) : (leaveSession s).busErrors = s.busErrors := rfl

/-! ### emitByte -/

@[simp] theorem emitByte_phase (b : Byte) (s : State) : (emitByte b s).phase = s.phase := rfl
@[simp] theorem emitByte_opkind (b : Byte) (s : State) : (emitByte b s).opkind = s.opkind := rfl
@[simp] theorem emitByte_chan (b : Byte) (s : State) : (emitByte b s).chan = s.chan := rfl
@[simp] theorem emitByte_totalLen (b : Byte) (s : State) : (emitByte b s).totalLen = s.totalLen := rfl
@[simp] theorem emitByte_offset (b : Byte) (s : State) : (emitByte b s).offset = s.offset := rfl
@[simp] theorem emitByte_chunkIdx (b : Byte) (s : State) : (emitByte b s).chunkIdx = s.chunkIdx := rfl
@[simp] theorem emitByte_chunkLen (b : Byte) (s : State) : (emitByte b s).chunkLen = s.chunkLen := rfl
@[simp] theorem emitByte_lastChunk (b : Byte) (s : State) : (emitByte b s).lastChunk = s.lastChunk := rfl
@[simp] theorem emitByte_txPos (b : Byte) (s : State) : (emitByte b s).txPos = s.txPos + 1 := rfl
@[simp] theorem emitByte_frameLen (b : Byte) (s : State) : (emitByte b s).frameLen = s.frameLen := rfl
@[simp] theorem emitByte_rxStage (b : Byte) (s : State) : (emitByte b s).rxStage = s.rxStage := rfl
@[simp] theorem emitByte_rxNeed (b : Byte) (s : State) : (emitByte b s).rxNeed = s.rxNeed := rfl
@[simp] theorem emitByte_rxGot (b : Byte) (s : State) : (emitByte b s).rxGot = s.rxGot := rfl
@[simp] theorem emitByte_rxTimer (b : Byte) (s : State) : (emitByte b s).rxTimer = s.rxTimer := rfl
@[simp] theorem emitByte_ackPos (b : Byte) (s : State) : (emitByte b s).ackPos = s.ackPos := rfl
@[simp] theorem emitByte_txCount (b : Byte) (s : State) : (emitByte b s).txCount = s.txCount + 1 := rfl
@[simp] theorem emitByte_rxCount (b : Byte) (s : State) : (emitByte b s).rxCount = s.rxCount := rfl
@[simp] theorem emitByte_result (b : Byte) (s : State) : (emitByte b s).result = s.result := rfl
@[simp] theorem emitByte_cmdErr (b : Byte) (s : State) : (emitByte b s).cmdErr = s.cmdErr := rfl
@[simp] theorem emitByte_cmdErrCause (b : Byte) (s : State) : (emitByte b s).cmdErrCause = s.cmdErrCause := rfl
@[simp] theorem emitByte_abortPending (b : Byte) (s : State) : (emitByte b s).abortPending = s.abortPending := rfl
@[simp] theorem emitByte_fwLen (b : Byte) (s : State) : (emitByte b s).fwLen = s.fwLen := rfl
@[simp] theorem emitByte_rxTimeout (b : Byte) (s : State) : (emitByte b s).rxTimeout = s.rxTimeout := rfl
@[simp] theorem emitByte_rawRespLen (b : Byte) (s : State) : (emitByte b s).rawRespLen = s.rawRespLen := rfl
@[simp] theorem emitByte_rawK (b : Byte) (s : State) : (emitByte b s).rawK = s.rawK := rfl
@[simp] theorem emitByte_rawCmdBuf (b : Byte) (s : State) : (emitByte b s).rawCmdBuf = s.rawCmdBuf := rfl
@[simp] theorem emitByte_rawRespHdr (b : Byte) (s : State) : (emitByte b s).rawRespHdr = s.rawRespHdr := rfl
@[simp] theorem emitByte_ackBuf (b : Byte) (s : State) : (emitByte b s).ackBuf = s.ackBuf := rfl
@[simp] theorem emitByte_rawRespPayload (b : Byte) (s : State) : (emitByte b s).rawRespPayload = s.rawRespPayload := rfl
@[simp] theorem emitByte_payload (b : Byte) (s : State) : (emitByte b s).payload = s.payload := rfl
@[simp] theorem emitByte_linkUp (b : Byte) (s : State) : (emitByte b s).linkUp = s.linkUp := rfl
@[simp] theorem emitByte_rxq (b : Byte) (s : State) : (emitByte b s).rxq = s.rxq := rfl
@[simp] theorem emitByte_txh (b : Byte) (s : State) : (emitByte b s).txh = s.txh ++ [b] := rfl
@[simp] theorem emitByte_rxh (b : Byte) (s : State) : (emitByte b s).rxh = s.rxh := rfl
@[simp] theorem emitByte_inputs (b : Byte) (s : State) : (emitByte b s).inputs = s.inputs := rfl
@[simp] theorem emitByte_busResp (b : Byte) (s : State) : (emitByte b s).busResp = s.busResp := rfl
@[simp] theorem emitByte_resets (b : Byte) (s : State) : (emitByte b s).resets = s.resets := rfl
@[simp] theorem emitByte_busErrors (b : Byte) (s : State) : (emitByte b s).busErrors = s.busErrors := rfl

/-! ### takeByte -/

@[simp] theorem takeByte_phase (b : Byte) (q : List Byte) (s : State) : (takeByte b q s).phase = s.phase := rfl
@[simp] theorem takeByte_opkind (b : Byte) (q : List Byte) (s : State) : (takeByte b q s).opkind = s.opkind := rfl
@[simp] theorem takeByte_chan (b : Byte) (q : List Byte) (s : State) : (takeByte b q s).chan = s.chan := rfl
@[simp] theorem takeByte_totalLen (b : Byte) (q : List Byte) (s : State) : (takeByte b q s).totalLen = s.totalLen := rfl
@[simp] theorem takeByte_offset (b : Byte) (q : List Byte) (s : State) : (takeByte b q s).offset = s.offset := rfl
@[simp] theorem takeByte_chunkIdx (b : Byte) (q : List Byte) (s : State) : (takeByte b q s).chunkIdx = s.chunkIdx := rfl
@[simp] theorem takeByte_chunkLen (b : Byte) (q : List Byte) (s : State) : (takeByte b q s).chunkLen = s.chunkLen := rfl
@[simp] theorem takeByte_lastChunk (b : Byte) (q : List Byte) (s : State) : (takeByte b q s).lastChunk = s.lastChunk := rfl
@[simp] theorem takeByte_txPos (b : Byte) (q : List Byte) (s : State) : (takeByte b q s).txPos = s.txPos := rfl
@[simp] theorem takeByte_frameLen (b : Byte) (q : List Byte) (s : State) : (takeByte b q s).frameLen = s.frameLen := rfl
@[simp] theorem takeByte_rxStage (b : Byte) (q : List Byte) (s : State) : (takeByte b q s).rxStage = s.rxStage := rfl
@[simp] theorem takeByte_rxNeed (b : Byte) (q : List Byte) (s : State) : (takeByte b q s).rxNeed = s.rxNeed := rfl
@[simp] theorem takeByte_rxGot (b : Byte) (q : List Byte) (s : State) : (takeByte b q s).rxGot = s.rxGot := rfl
@[simp] theorem takeByte_rxTimer (b : Byte) (q : List Byte) (s : State) : (takeByte b q s).rxTimer = s.rxTimer := rfl
@[simp] theorem takeByte_ackPos (b : Byte) (q : List Byte) (s : State) : (takeByte b q s).ackPos = s.ackPos := rfl
@[simp] theorem takeByte_txCount (b : Byte) (q : List Byte) (s : State) : (takeByte b q s).txCount = s.txCount := rfl
@[simp] theorem takeByte_rxCount (b : Byte) (q : List Byte) (s : State) : (takeByte b q s).rxCount = s.rxCount + 1 := rfl
@[simp] theorem takeByte_result (b : Byte) (q : List Byte) (s : State) : (takeByte b q s).result = s.result := rfl
@[simp] theorem takeByte_cmdErr (b : Byte) (q : List Byte) (s : State) : (takeByte b q s).cmdErr = s.cmdErr := rfl
@[simp] theorem takeByte_cmdErrCause (b : Byte) (q : List Byte) (s : State) : (takeByte b q s).cmdErrCause = s.cmdErrCause := rfl
@[simp] theorem takeByte_abortPending (b : Byte) (q : List Byte) (s : State) : (takeByte b q s).abortPending = s.abortPending := rfl
@[simp] theorem takeByte_fwLen (b : Byte) (q : List Byte) (s : State) : (takeByte b q s).fwLen = s.fwLen := rfl
@[simp] theorem takeByte_rxTimeout (b : Byte) (q : List Byte) (s : State) : (takeByte b q s).rxTimeout = s.rxTimeout := rfl
@[simp] theorem takeByte_rawRespLen (b : Byte) (q : List Byte) (s : State) : (takeByte b q s).rawRespLen = s.rawRespLen := rfl
@[simp] theorem takeByte_rawK (b : Byte) (q : List Byte) (s : State) : (takeByte b q s).rawK = s.rawK := rfl
@[simp] theorem takeByte_rawCmdBuf (b : Byte) (q : List Byte) (s : State) : (takeByte b q s).rawCmdBuf = s.rawCmdBuf := rfl
@[simp] theorem takeByte_rawRespHdr (b : Byte) (q : List Byte) (s : State) : (takeByte b q s).rawRespHdr = s.rawRespHdr := rfl
@[simp] theorem takeByte_ackBuf (b : Byte) (q : List Byte) (s : State) : (takeByte b q s).ackBuf = s.ackBuf := rfl
@[simp] theorem takeByte_rawRespPayload (b : Byte) (q : List Byte) (s : State) : (takeByte b q s).rawRespPayload = s.rawRespPayload := rfl
@[simp] theorem takeByte_payload (b : Byte) (q : List Byte) (s : State) : (takeByte b q s).payload = s.payload := rfl
@[simp] theorem takeByte_linkUp (b : Byte) (q : List Byte) (s : State) : (takeByte b q s).linkUp = s.linkUp := rfl
@[simp] theorem takeByte_rxq (b : Byte) (q : List Byte) (s : State) : (takeByte b q s).rxq = q := rfl
@[simp] theorem takeByte_txh (b : Byte) (q : List Byte) (s : State) : (takeByte b q s).txh = s.txh := rfl
@[simp] theorem takeByte_rxh (b : Byte) (q : List Byte) (s : State) : (takeByte b q s).rxh = s.rxh ++ [b] := rfl
@[simp] theorem takeByte_inputs (b : Byte) (q : List Byte) (s : State) : (takeByte b q s).inputs = s.inputs := rfl
@[simp] theorem takeByte_busResp (b : Byte) (q : List Byte) (s : State) : (takeByte b q s).busResp = s.busResp := rfl
@[simp] theorem takeByte_resets (b : Byte) (q : List Byte) (s : State) : (takeByte b q s).resets = s.resets := rfl
@[simp] theorem takeByte_busErrors (b : Byte) (q : List Byte) (s : State) : (takeByte b q s).busErrors = s.busErrors := rfl

/-! ### ackChunk -/

@[simp] theorem ackChunk_phase (s : State) : (ackChunk s).phase = s.phase := rfl
@[simp] theorem ackChunk_opkind (s : State) : (ackChunk s).opkind = s.opkind := rfl
@[simp] theorem ackChunk_chan (s : State) : (ackChunk s).chan = s.chan := rfl
@[simp] theorem ackChunk_totalLen (s : State) : (ackChunk s).totalLen = s.totalLen := rfl
@[simp] theorem ackChunk_offset (s : State) : (ackChunk s).offset = s.offset + s.chunkLen.setWidth 32 := rfl
@[simp] theorem ackChunk_chunkIdx (s : State) : (ackChunk s).chunkIdx = s.chunkIdx + 1 := rfl
@[simp] theorem ackChunk_chunkLen (s : State) : (ackChunk s).chunkLen = s.chunkLen := rfl
@[simp] theorem ackChunk_lastChunk (s : State) : (ackChunk s).lastChunk = s.lastChunk := rfl
@[simp] theorem ackChunk_txPos (s : State) : (ackChunk s).txPos = s.txPos := rfl
@[simp] theorem ackChunk_frameLen (s : State) : (ackChunk s).frameLen = s.frameLen := rfl
@[simp] theorem ackChunk_rxStage (s : State) : (ackChunk s).rxStage = s.rxStage := rfl
@[simp] theorem ackChunk_rxNeed (s : State) : (ackChunk s).rxNeed = s.rxNeed := rfl
@[simp] theorem ackChunk_rxGot (s : State) : (ackChunk s).rxGot = s.rxGot := rfl
@[simp] theorem ackChunk_rxTimer (s : State) : (ackChunk s).rxTimer = s.rxTimer := rfl
@[simp] theorem ackChunk_ackPos (s : State) : (ackChunk s).ackPos = s.ackPos := rfl
@[simp] theorem ackChunk_txCount (s : State) : (ackChunk s).txCount = s.txCount := rfl
@[simp] theorem ackChunk_rxCount (s : State) : (ackChunk s).rxCount = s.rxCount := rfl
@[simp] theorem ackChunk_result (s : State) : (ackChunk s).result = s.result := rfl
@[simp] theorem ackChunk_cmdErr (s : State) : (ackChunk s).cmdErr = s.cmdErr := rfl
@[simp] theorem ackChunk_cmdErrCause (s : State) : (ackChunk s).cmdErrCause = s.cmdErrCause := rfl
@[simp] theorem ackChunk_abortPending (s : State) : (ackChunk s).abortPending = s.abortPending := rfl
@[simp] theorem ackChunk_fwLen (s : State) : (ackChunk s).fwLen = s.fwLen := rfl
@[simp] theorem ackChunk_rxTimeout (s : State) : (ackChunk s).rxTimeout = s.rxTimeout := rfl
@[simp] theorem ackChunk_rawRespLen (s : State) : (ackChunk s).rawRespLen = s.rawRespLen := rfl
@[simp] theorem ackChunk_rawK (s : State) : (ackChunk s).rawK = s.rawK := rfl
@[simp] theorem ackChunk_rawCmdBuf (s : State) : (ackChunk s).rawCmdBuf = s.rawCmdBuf := rfl
@[simp] theorem ackChunk_rawRespHdr (s : State) : (ackChunk s).rawRespHdr = s.rawRespHdr := rfl
@[simp] theorem ackChunk_ackBuf (s : State) : (ackChunk s).ackBuf = s.ackBuf := rfl
@[simp] theorem ackChunk_rawRespPayload (s : State) : (ackChunk s).rawRespPayload = s.rawRespPayload := rfl
@[simp] theorem ackChunk_payload (s : State) : (ackChunk s).payload = s.payload := rfl
@[simp] theorem ackChunk_linkUp (s : State) : (ackChunk s).linkUp = s.linkUp := rfl
@[simp] theorem ackChunk_rxq (s : State) : (ackChunk s).rxq = s.rxq := rfl
@[simp] theorem ackChunk_txh (s : State) : (ackChunk s).txh = s.txh := rfl
@[simp] theorem ackChunk_rxh (s : State) : (ackChunk s).rxh = s.rxh := rfl
@[simp] theorem ackChunk_inputs (s : State) : (ackChunk s).inputs = s.inputs := rfl
@[simp] theorem ackChunk_busResp (s : State) : (ackChunk s).busResp = s.busResp := rfl
@[simp] theorem ackChunk_resets (s : State) : (ackChunk s).resets = s.resets := rfl
@[simp] theorem ackChunk_busErrors (s : State) : (ackChunk s).busErrors = s.busErrors := rfl

/-! ### consumeInput -/

@[simp] theorem consumeInput_phase (s : State) : (consumeInput s).phase = s.phase := rfl
@[simp] theorem consumeInput_opkind (s : State) : (consumeInput s).opkind = s.opkind := rfl
@[simp] theorem consumeInput_chan (s : State) : (consumeInput s).chan = s.chan := rfl
@[simp] theorem consumeInput_totalLen (s : State) : (consumeInput s).totalLen = s.totalLen := rfl
@[simp] theorem consumeInput_offset (s : State) : (consumeInput s).offset = s.offset := rfl
@[simp] theorem consumeInput_chunkIdx (s : State) : (consumeInput s).chunkIdx = s.chunkIdx := rfl
@[simp] theorem consumeInput_chunkLen (s : State) : (consumeInput s).chunkLen = s.chunkLen := rfl
@[simp] theorem consumeInput_lastChunk (s : State) : (consumeInput s).lastChunk = s.lastChunk := rfl
@[simp] theorem consumeInput_txPos (s : State) : (consumeInput s).txPos = s.txPos := rfl
@[simp] theorem consumeInput_frameLen (s : State) : (consumeInput s).frameLen = s.frameLen := rfl
@[simp] theorem consumeInput_rxStage (s : State) : (consumeInput s).rxStage = s.rxStage := rfl
@[simp] theorem consumeInput_rxNeed (s : State) : (consumeInput s).rxNeed = s.rxNeed := rfl
@[simp] theorem consumeInput_rxGot (s : State) : (consumeInput s).rxGot = s.rxGot := rfl
@[simp] theorem consumeInput_rxTimer (s : State) : (consumeInput s).rxTimer = s.rxTimer := rfl
@[simp] theorem consumeInput_ackPos (s : State) : (consumeInput s).ackPos = s.ackPos := rfl
@[simp] theorem consumeInput_txCount (s : State) : (consumeInput s).txCount = s.txCount := rfl
@[simp] theorem consumeInput_rxCount (s : State) : (consumeInput s).rxCount = s.rxCount := rfl
@[simp] theorem consumeInput_result (s : State) : (consumeInput s).result = s.result := rfl
@[simp] theorem consumeInput_cmdErr (s : State) : (consumeInput s).cmdErr = s.cmdErr := rfl
@[simp] theorem consumeInput_cmdErrCause (s : State) : (consumeInput s).cmdErrCause = s.cmdErrCause := rfl
@[simp] theorem consumeInput_abortPending (s : State) : (consumeInput s).abortPending = s.abortPending := rfl
@[simp] theorem consumeInput_fwLen (s : State) : (consumeInput s).fwLen = s.fwLen := rfl
@[simp] theorem consumeInput_rxTimeout (s : State) : (consumeInput s).rxTimeout = s.rxTimeout := rfl
@[simp] theorem consumeInput_rawRespLen (s : State) : (consumeInput s).rawRespLen = s.rawRespLen := rfl
@[simp] theorem consumeInput_rawK (s : State) : (consumeInput s).rawK = s.rawK := rfl
@[simp] theorem consumeInput_rawCmdBuf (s : State) : (consumeInput s).rawCmdBuf = s.rawCmdBuf := rfl
@[simp] theorem consumeInput_rawRespHdr (s : State) : (consumeInput s).rawRespHdr = s.rawRespHdr := rfl
@[simp] theorem consumeInput_ackBuf (s : State) : (consumeInput s).ackBuf = s.ackBuf := rfl
@[simp] theorem consumeInput_rawRespPayload (s : State) : (consumeInput s).rawRespPayload = s.rawRespPayload := rfl
@[simp] theorem consumeInput_payload (s : State) : (consumeInput s).payload = s.payload := rfl
@[simp] theorem consumeInput_linkUp (s : State) : (consumeInput s).linkUp = s.linkUp := rfl
@[simp] theorem consumeInput_rxq (s : State) : (consumeInput s).rxq = s.rxq := rfl
@[simp] theorem consumeInput_txh (s : State) : (consumeInput s).txh = s.txh := rfl
@[simp] theorem consumeInput_rxh (s : State) : (consumeInput s).rxh = s.rxh := rfl
@[simp] theorem consumeInput_inputs (s : State) : (consumeInput s).inputs = s.inputs.tail := rfl
@[simp] theorem consumeInput_busResp (s : State) : (consumeInput s).busResp = none := rfl
@[simp] theorem consumeInput_resets (s : State) : (consumeInput s).resets = s.resets := rfl
@[simp] theorem consumeInput_busErrors (s : State) : (consumeInput s).busErrors = s.busErrors := rfl

/-! ### environmentEvent -/

@[simp] theorem environmentEvent_phase (i : CycleInput) (s : State) : (environmentEvent i s).phase = s.phase := rfl
@[simp] theorem environmentEvent_opkind (i : CycleInput) (s : State) : (environmentEvent i s).opkind = s.opkind := rfl
@[simp] theorem environmentEvent_chan (i : CycleInput) (s : State) : (environmentEvent i s).chan = s.chan := rfl
@[simp] theorem environmentEvent_totalLen (i : CycleInput) (s : State) : (environmentEvent i s).totalLen = s.totalLen := rfl
@[simp] theorem environmentEvent_offset (i : CycleInput) (s : State) : (environmentEvent i s).offset = s.offset := rfl
@[simp] theorem environmentEvent_chunkIdx (i : CycleInput) (s : State) : (environmentEvent i s).chunkIdx = s.chunkIdx := rfl
@[simp] theorem environmentEvent_chunkLen (i : CycleInput) (s : State) : (environmentEvent i s).chunkLen = s.chunkLen := rfl
@[simp] theorem environmentEvent_lastChunk (i : CycleInput) (s : State) : (environmentEvent i s).lastChunk = s.lastChunk := rfl
@[simp] theorem environmentEvent_txPos (i : CycleInput) (s : State) : (environmentEvent i s).txPos = s.txPos := rfl
@[simp] theorem environmentEvent_frameLen (i : CycleInput) (s : State) : (environmentEvent i s).frameLen = s.frameLen := rfl
@[simp] theorem environmentEvent_rxStage (i : CycleInput) (s : State) : (environmentEvent i s).rxStage = s.rxStage := rfl
@[simp] theorem environmentEvent_rxNeed (i : CycleInput) (s : State) : (environmentEvent i s).rxNeed = s.rxNeed := rfl
@[simp] theorem environmentEvent_rxGot (i : CycleInput) (s : State) : (environmentEvent i s).rxGot = s.rxGot := rfl
@[simp] theorem environmentEvent_rxTimer (i : CycleInput) (s : State) : (environmentEvent i s).rxTimer = s.rxTimer := rfl
@[simp] theorem environmentEvent_ackPos (i : CycleInput) (s : State) : (environmentEvent i s).ackPos = s.ackPos := rfl
@[simp] theorem environmentEvent_txCount (i : CycleInput) (s : State) : (environmentEvent i s).txCount = s.txCount := rfl
@[simp] theorem environmentEvent_rxCount (i : CycleInput) (s : State) : (environmentEvent i s).rxCount = s.rxCount := rfl
@[simp] theorem environmentEvent_result (i : CycleInput) (s : State) : (environmentEvent i s).result = s.result := rfl
@[simp] theorem environmentEvent_cmdErr (i : CycleInput) (s : State) : (environmentEvent i s).cmdErr = s.cmdErr := rfl
@[simp] theorem environmentEvent_cmdErrCause (i : CycleInput) (s : State) : (environmentEvent i s).cmdErrCause = s.cmdErrCause := rfl
@[simp] theorem environmentEvent_abortPending (i : CycleInput) (s : State) : (environmentEvent i s).abortPending = s.abortPending := rfl
@[simp] theorem environmentEvent_fwLen (i : CycleInput) (s : State) : (environmentEvent i s).fwLen = s.fwLen := rfl
@[simp] theorem environmentEvent_rxTimeout (i : CycleInput) (s : State) : (environmentEvent i s).rxTimeout = s.rxTimeout := rfl
@[simp] theorem environmentEvent_rawRespLen (i : CycleInput) (s : State) : (environmentEvent i s).rawRespLen = s.rawRespLen := rfl
@[simp] theorem environmentEvent_rawK (i : CycleInput) (s : State) : (environmentEvent i s).rawK = s.rawK := rfl
@[simp] theorem environmentEvent_rawCmdBuf (i : CycleInput) (s : State) : (environmentEvent i s).rawCmdBuf = s.rawCmdBuf := rfl
@[simp] theorem environmentEvent_rawRespHdr (i : CycleInput) (s : State) : (environmentEvent i s).rawRespHdr = s.rawRespHdr := rfl
@[simp] theorem environmentEvent_ackBuf (i : CycleInput) (s : State) : (environmentEvent i s).ackBuf = s.ackBuf := rfl
@[simp] theorem environmentEvent_rawRespPayload (i : CycleInput) (s : State) : (environmentEvent i s).rawRespPayload = s.rawRespPayload := rfl
@[simp] theorem environmentEvent_payload (i : CycleInput) (s : State) : (environmentEvent i s).payload = s.payload := rfl
@[simp] theorem environmentEvent_linkUp (i : CycleInput) (s : State) : (environmentEvent i s).linkUp = i.linkUp := rfl
@[simp] theorem environmentEvent_rxq (i : CycleInput) (s : State) : (environmentEvent i s).rxq = if i.linkUp then s.rxq ++ i.arriving else [] := rfl
@[simp] theorem environmentEvent_txh (i : CycleInput) (s : State) : (environmentEvent i s).txh = s.txh := rfl
@[simp] theorem environmentEvent_rxh (i : CycleInput) (s : State) : (environmentEvent i s).rxh = s.rxh := rfl
@[simp] theorem environmentEvent_inputs (i : CycleInput) (s : State) : (environmentEvent i s).inputs = s.inputs := rfl
@[simp] theorem environmentEvent_busResp (i : CycleInput) (s : State) : (environmentEvent i s).busResp = s.busResp := rfl
@[simp] theorem environmentEvent_resets (i : CycleInput) (s : State) : (environmentEvent i s).resets = s.resets := rfl
@[simp] theorem environmentEvent_busErrors (i : CycleInput) (s : State) : (environmentEvent i s).busErrors = s.busErrors := rfl

/-! ### freshTransfer -/

@[simp] theorem freshTransfer_phase (k : Kind) (w : Word) (s : State) : (freshTransfer k w s).phase = s.phase := rfl
@[simp] theorem freshTransfer_opkind (k : Kind) (w : Word) (s : State) : (freshTransfer k w s).opkind = some k := rfl
@[simp] theorem freshTransfer_chan (k : Kind) (w : Word) (s : State) : (freshTransfer k w s).chan = s.chan := rfl
@[simp] theorem freshTransfer_totalLen (k : Kind) (w : Word) (s : State) : (freshTransfer k w s).totalLen = w := rfl
@[simp] theorem freshTransfer_offset (k : Kind) (w : Word) (s : State) : (freshTransfer k w s).offset = 0 := rfl
@[simp] theorem freshTransfer_chunkIdx (k : Kind) (w : Word) (s : State) : (freshTransfer k w s).chunkIdx = 0 := rfl
@[simp] theorem freshTransfer_chunkLen (k : Kind) (w : Word) (s : State) : (freshTransfer k w s).chunkLen = 0 := rfl
@[simp] theorem freshTransfer_lastChunk (k : Kind) (w : Word) (s : State) : (freshTransfer k w s).lastChunk = false := rfl
@[simp] theorem freshTransfer_txPos (k : Kind) (w : Word) (s : State) : (freshTransfer k w s).txPos = 0 := rfl
@[simp] theorem freshTransfer_frameLen (k : Kind) (w : Word) (s : State) : (freshTransfer k w s).frameLen = 0 := rfl
@[simp] theorem freshTransfer_rxStage (k : Kind) (w : Word) (s : State) : (freshTransfer k w s).rxStage = 0 := rfl
@[simp] theorem freshTransfer_rxNeed (k : Kind) (w : Word) (s : State) : (freshTransfer k w s).rxNeed = 0 := rfl
@[simp] theorem freshTransfer_rxGot (k : Kind) (w : Word) (s : State) : (freshTransfer k w s).rxGot = 0 := rfl
@[simp] theorem freshTransfer_rxTimer (k : Kind) (w : Word) (s : State) : (freshTransfer k w s).rxTimer = 0 := rfl
@[simp] theorem freshTransfer_ackPos (k : Kind) (w : Word) (s : State) : (freshTransfer k w s).ackPos = 0 := rfl
@[simp] theorem freshTransfer_txCount (k : Kind) (w : Word) (s : State) : (freshTransfer k w s).txCount = 0 := rfl
@[simp] theorem freshTransfer_rxCount (k : Kind) (w : Word) (s : State) : (freshTransfer k w s).rxCount = 0 := rfl
@[simp] theorem freshTransfer_result (k : Kind) (w : Word) (s : State) : (freshTransfer k w s).result = .none := rfl
@[simp] theorem freshTransfer_cmdErr (k : Kind) (w : Word) (s : State) : (freshTransfer k w s).cmdErr = s.cmdErr := rfl
@[simp] theorem freshTransfer_cmdErrCause (k : Kind) (w : Word) (s : State) : (freshTransfer k w s).cmdErrCause = s.cmdErrCause := rfl
@[simp] theorem freshTransfer_abortPending (k : Kind) (w : Word) (s : State) : (freshTransfer k w s).abortPending = false := rfl
@[simp] theorem freshTransfer_fwLen (k : Kind) (w : Word) (s : State) : (freshTransfer k w s).fwLen = s.fwLen := rfl
@[simp] theorem freshTransfer_rxTimeout (k : Kind) (w : Word) (s : State) : (freshTransfer k w s).rxTimeout = s.rxTimeout := rfl
@[simp] theorem freshTransfer_rawRespLen (k : Kind) (w : Word) (s : State) : (freshTransfer k w s).rawRespLen = s.rawRespLen := rfl
@[simp] theorem freshTransfer_rawK (k : Kind) (w : Word) (s : State) : (freshTransfer k w s).rawK = s.rawK := rfl
@[simp] theorem freshTransfer_rawCmdBuf (k : Kind) (w : Word) (s : State) : (freshTransfer k w s).rawCmdBuf = s.rawCmdBuf := rfl
@[simp] theorem freshTransfer_rawRespHdr (k : Kind) (w : Word) (s : State) : (freshTransfer k w s).rawRespHdr = s.rawRespHdr := rfl
@[simp] theorem freshTransfer_ackBuf (k : Kind) (w : Word) (s : State) : (freshTransfer k w s).ackBuf = s.ackBuf := rfl
@[simp] theorem freshTransfer_rawRespPayload (k : Kind) (w : Word) (s : State) : (freshTransfer k w s).rawRespPayload = s.rawRespPayload := rfl
@[simp] theorem freshTransfer_payload (k : Kind) (w : Word) (s : State) : (freshTransfer k w s).payload = s.payload := rfl
@[simp] theorem freshTransfer_linkUp (k : Kind) (w : Word) (s : State) : (freshTransfer k w s).linkUp = s.linkUp := rfl
@[simp] theorem freshTransfer_rxq (k : Kind) (w : Word) (s : State) : (freshTransfer k w s).rxq = s.rxq := rfl
@[simp] theorem freshTransfer_txh (k : Kind) (w : Word) (s : State) : (freshTransfer k w s).txh = s.txh := rfl
@[simp] theorem freshTransfer_rxh (k : Kind) (w : Word) (s : State) : (freshTransfer k w s).rxh = s.rxh := rfl
@[simp] theorem freshTransfer_inputs (k : Kind) (w : Word) (s : State) : (freshTransfer k w s).inputs = s.inputs := rfl
@[simp] theorem freshTransfer_busResp (k : Kind) (w : Word) (s : State) : (freshTransfer k w s).busResp = s.busResp := rfl
@[simp] theorem freshTransfer_resets (k : Kind) (w : Word) (s : State) : (freshTransfer k w s).resets = s.resets := rfl
@[simp] theorem freshTransfer_busErrors (k : Kind) (w : Word) (s : State) : (freshTransfer k w s).busErrors = s.busErrors := rfl

/-! ### A written byte of a store -/

@[simp] theorem setMem_phase (s : State) (r : Region) (m : Memory) : (s.setMem r m).phase = s.phase := by cases r <;> rfl
@[simp] theorem setMem_opkind (s : State) (r : Region) (m : Memory) : (s.setMem r m).opkind = s.opkind := by cases r <;> rfl
@[simp] theorem setMem_chan (s : State) (r : Region) (m : Memory) : (s.setMem r m).chan = s.chan := by cases r <;> rfl
@[simp] theorem setMem_totalLen (s : State) (r : Region) (m : Memory) : (s.setMem r m).totalLen = s.totalLen := by cases r <;> rfl
@[simp] theorem setMem_offset (s : State) (r : Region) (m : Memory) : (s.setMem r m).offset = s.offset := by cases r <;> rfl
@[simp] theorem setMem_chunkIdx (s : State) (r : Region) (m : Memory) : (s.setMem r m).chunkIdx = s.chunkIdx := by cases r <;> rfl
@[simp] theorem setMem_chunkLen (s : State) (r : Region) (m : Memory) : (s.setMem r m).chunkLen = s.chunkLen := by cases r <;> rfl
@[simp] theorem setMem_lastChunk (s : State) (r : Region) (m : Memory) : (s.setMem r m).lastChunk = s.lastChunk := by cases r <;> rfl
@[simp] theorem setMem_txPos (s : State) (r : Region) (m : Memory) : (s.setMem r m).txPos = s.txPos := by cases r <;> rfl
@[simp] theorem setMem_frameLen (s : State) (r : Region) (m : Memory) : (s.setMem r m).frameLen = s.frameLen := by cases r <;> rfl
@[simp] theorem setMem_rxStage (s : State) (r : Region) (m : Memory) : (s.setMem r m).rxStage = s.rxStage := by cases r <;> rfl
@[simp] theorem setMem_rxNeed (s : State) (r : Region) (m : Memory) : (s.setMem r m).rxNeed = s.rxNeed := by cases r <;> rfl
@[simp] theorem setMem_rxGot (s : State) (r : Region) (m : Memory) : (s.setMem r m).rxGot = s.rxGot := by cases r <;> rfl
@[simp] theorem setMem_rxTimer (s : State) (r : Region) (m : Memory) : (s.setMem r m).rxTimer = s.rxTimer := by cases r <;> rfl
@[simp] theorem setMem_ackPos (s : State) (r : Region) (m : Memory) : (s.setMem r m).ackPos = s.ackPos := by cases r <;> rfl
@[simp] theorem setMem_txCount (s : State) (r : Region) (m : Memory) : (s.setMem r m).txCount = s.txCount := by cases r <;> rfl
@[simp] theorem setMem_rxCount (s : State) (r : Region) (m : Memory) : (s.setMem r m).rxCount = s.rxCount := by cases r <;> rfl
@[simp] theorem setMem_result (s : State) (r : Region) (m : Memory) : (s.setMem r m).result = s.result := by cases r <;> rfl
@[simp] theorem setMem_cmdErr (s : State) (r : Region) (m : Memory) : (s.setMem r m).cmdErr = s.cmdErr := by cases r <;> rfl
@[simp] theorem setMem_cmdErrCause (s : State) (r : Region) (m : Memory) : (s.setMem r m).cmdErrCause = s.cmdErrCause := by cases r <;> rfl
@[simp] theorem setMem_abortPending (s : State) (r : Region) (m : Memory) : (s.setMem r m).abortPending = s.abortPending := by cases r <;> rfl
@[simp] theorem setMem_fwLen (s : State) (r : Region) (m : Memory) : (s.setMem r m).fwLen = s.fwLen := by cases r <;> rfl
@[simp] theorem setMem_rxTimeout (s : State) (r : Region) (m : Memory) : (s.setMem r m).rxTimeout = s.rxTimeout := by cases r <;> rfl
@[simp] theorem setMem_rawRespLen (s : State) (r : Region) (m : Memory) : (s.setMem r m).rawRespLen = s.rawRespLen := by cases r <;> rfl
@[simp] theorem setMem_rawK (s : State) (r : Region) (m : Memory) : (s.setMem r m).rawK = s.rawK := by cases r <;> rfl
@[simp] theorem setMem_linkUp (s : State) (r : Region) (m : Memory) : (s.setMem r m).linkUp = s.linkUp := by cases r <;> rfl
@[simp] theorem setMem_rxq (s : State) (r : Region) (m : Memory) : (s.setMem r m).rxq = s.rxq := by cases r <;> rfl
@[simp] theorem setMem_txh (s : State) (r : Region) (m : Memory) : (s.setMem r m).txh = s.txh := by cases r <;> rfl
@[simp] theorem setMem_rxh (s : State) (r : Region) (m : Memory) : (s.setMem r m).rxh = s.rxh := by cases r <;> rfl
@[simp] theorem setMem_inputs (s : State) (r : Region) (m : Memory) : (s.setMem r m).inputs = s.inputs := by cases r <;> rfl
@[simp] theorem setMem_busResp (s : State) (r : Region) (m : Memory) : (s.setMem r m).busResp = s.busResp := by cases r <;> rfl
@[simp] theorem setMem_resets (s : State) (r : Region) (m : Memory) : (s.setMem r m).resets = s.resets := by cases r <;> rfl
@[simp] theorem setMem_busErrors (s : State) (r : Region) (m : Memory) : (s.setMem r m).busErrors = s.busErrors := by cases r <;> rfl

@[simp] theorem writeByte_phase (s : State) (r : Region) (a : Nat) (b : Byte) : (s.writeByte r a b).phase = s.phase := by cases r <;> rfl
@[simp] theorem writeByte_opkind (s : State) (r : Region) (a : Nat) (b : Byte) : (s.writeByte r a b).opkind = s.opkind := by cases r <;> rfl
@[simp] theorem writeByte_chan (s : State) (r : Region) (a : Nat) (b : Byte) : (s.writeByte r a b).chan = s.chan := by cases r <;> rfl
@[simp] theorem writeByte_totalLen (s : State) (r : Region) (a : Nat) (b : Byte) : (s.writeByte r a b).totalLen = s.totalLen := by cases r <;> rfl
@[simp] theorem writeByte_offset (s : State) (r : Region) (a : Nat) (b : Byte) : (s.writeByte r a b).offset = s.offset := by cases r <;> rfl
@[simp] theorem writeByte_chunkIdx (s : State) (r : Region) (a : Nat) (b : Byte) : (s.writeByte r a b).chunkIdx = s.chunkIdx := by cases r <;> rfl
@[simp] theorem writeByte_chunkLen (s : State) (r : Region) (a : Nat) (b : Byte) : (s.writeByte r a b).chunkLen = s.chunkLen := by cases r <;> rfl
@[simp] theorem writeByte_lastChunk (s : State) (r : Region) (a : Nat) (b : Byte) : (s.writeByte r a b).lastChunk = s.lastChunk := by cases r <;> rfl
@[simp] theorem writeByte_txPos (s : State) (r : Region) (a : Nat) (b : Byte) : (s.writeByte r a b).txPos = s.txPos := by cases r <;> rfl
@[simp] theorem writeByte_frameLen (s : State) (r : Region) (a : Nat) (b : Byte) : (s.writeByte r a b).frameLen = s.frameLen := by cases r <;> rfl
@[simp] theorem writeByte_rxStage (s : State) (r : Region) (a : Nat) (b : Byte) : (s.writeByte r a b).rxStage = s.rxStage := by cases r <;> rfl
@[simp] theorem writeByte_rxNeed (s : State) (r : Region) (a : Nat) (b : Byte) : (s.writeByte r a b).rxNeed = s.rxNeed := by cases r <;> rfl
@[simp] theorem writeByte_rxGot (s : State) (r : Region) (a : Nat) (b : Byte) : (s.writeByte r a b).rxGot = s.rxGot := by cases r <;> rfl
@[simp] theorem writeByte_rxTimer (s : State) (r : Region) (a : Nat) (b : Byte) : (s.writeByte r a b).rxTimer = s.rxTimer := by cases r <;> rfl
@[simp] theorem writeByte_ackPos (s : State) (r : Region) (a : Nat) (b : Byte) : (s.writeByte r a b).ackPos = s.ackPos := by cases r <;> rfl
@[simp] theorem writeByte_txCount (s : State) (r : Region) (a : Nat) (b : Byte) : (s.writeByte r a b).txCount = s.txCount := by cases r <;> rfl
@[simp] theorem writeByte_rxCount (s : State) (r : Region) (a : Nat) (b : Byte) : (s.writeByte r a b).rxCount = s.rxCount := by cases r <;> rfl
@[simp] theorem writeByte_result (s : State) (r : Region) (a : Nat) (b : Byte) : (s.writeByte r a b).result = s.result := by cases r <;> rfl
@[simp] theorem writeByte_cmdErr (s : State) (r : Region) (a : Nat) (b : Byte) : (s.writeByte r a b).cmdErr = s.cmdErr := by cases r <;> rfl
@[simp] theorem writeByte_cmdErrCause (s : State) (r : Region) (a : Nat) (b : Byte) : (s.writeByte r a b).cmdErrCause = s.cmdErrCause := by cases r <;> rfl
@[simp] theorem writeByte_abortPending (s : State) (r : Region) (a : Nat) (b : Byte) : (s.writeByte r a b).abortPending = s.abortPending := by cases r <;> rfl
@[simp] theorem writeByte_fwLen (s : State) (r : Region) (a : Nat) (b : Byte) : (s.writeByte r a b).fwLen = s.fwLen := by cases r <;> rfl
@[simp] theorem writeByte_rxTimeout (s : State) (r : Region) (a : Nat) (b : Byte) : (s.writeByte r a b).rxTimeout = s.rxTimeout := by cases r <;> rfl
@[simp] theorem writeByte_rawRespLen (s : State) (r : Region) (a : Nat) (b : Byte) : (s.writeByte r a b).rawRespLen = s.rawRespLen := by cases r <;> rfl
@[simp] theorem writeByte_rawK (s : State) (r : Region) (a : Nat) (b : Byte) : (s.writeByte r a b).rawK = s.rawK := by cases r <;> rfl
@[simp] theorem writeByte_linkUp (s : State) (r : Region) (a : Nat) (b : Byte) : (s.writeByte r a b).linkUp = s.linkUp := by cases r <;> rfl
@[simp] theorem writeByte_rxq (s : State) (r : Region) (a : Nat) (b : Byte) : (s.writeByte r a b).rxq = s.rxq := by cases r <;> rfl
@[simp] theorem writeByte_txh (s : State) (r : Region) (a : Nat) (b : Byte) : (s.writeByte r a b).txh = s.txh := by cases r <;> rfl
@[simp] theorem writeByte_rxh (s : State) (r : Region) (a : Nat) (b : Byte) : (s.writeByte r a b).rxh = s.rxh := by cases r <;> rfl
@[simp] theorem writeByte_inputs (s : State) (r : Region) (a : Nat) (b : Byte) : (s.writeByte r a b).inputs = s.inputs := by cases r <;> rfl
@[simp] theorem writeByte_busResp (s : State) (r : Region) (a : Nat) (b : Byte) : (s.writeByte r a b).busResp = s.busResp := by cases r <;> rfl
@[simp] theorem writeByte_resets (s : State) (r : Region) (a : Nat) (b : Byte) : (s.writeByte r a b).resets = s.resets := by cases r <;> rfl
@[simp] theorem writeByte_busErrors (s : State) (r : Region) (a : Nat) (b : Byte) : (s.writeByte r a b).busErrors = s.busErrors := by cases r <;> rfl

end Sys2Proof.Machine
end

