-- ==== Sys2Proof/Laws/Memory.lean ====
section
/-! SUPPORT. The laws of a store of bytes: read after write, canonical form, and the two readings of the payload bound. -/

namespace Sys2Proof.Machine

/-! ### The open bound of the payload space (R6) -/

theorem payloadBytes_ge : Config.imageBytes ≤ Config.payloadBytes := by
  unfold Config.payloadBytes
  exact Nat.le_add_left Config.imageBytes (Config.payloadSpare % (2 ^ 32 - Config.imageBytes))

theorem payloadBytes_lt : Config.payloadBytes < 2 ^ 32 := by
  have h := Nat.mod_lt Config.payloadSpare (y := 2 ^ 32 - Config.imageBytes) (by decide)
  have e : Config.payloadBytes
      = Config.payloadSpare % (2 ^ 32 - Config.imageBytes) + Config.imageBytes := rfl
  generalize Config.payloadSpare % (2 ^ 32 - Config.imageBytes) = z at *
  simp only [Config.imageBytes] at *
  omega

theorem inPayload_iff (a : Nat) : inPayload a = true ↔ a < Config.payloadBytes := by
  have h := payloadBytes_ge
  simp only [inPayload, Bool.or_eq_true, decide_eq_true_eq]
  omega

theorem exceedsPayload_iff (n : Nat) : exceedsPayload n = true ↔ Config.payloadBytes < n := by
  have h := payloadBytes_ge
  simp only [exceedsPayload, Bool.and_eq_true, decide_eq_true_eq]
  omega

theorem exceedsPayload_false_iff (n : Nat) : exceedsPayload n = false ↔ n ≤ Config.payloadBytes := by
  rw [← Bool.not_eq_true, exceedsPayload_iff]
  omega

/-! ### Read after write -/

@[simp] theorem Memory.get?_nil (a : Nat) : Memory.get? [] a = none := rfl

theorem Memory.get?_write (m : Memory) (a c : Nat) (b : Byte) :
    Memory.get? (Memory.write m a b) c = if c = a then some b else Memory.get? m c := by
  induction m with
  | nil => simp only [Memory.write, Memory.get?, eq_comm (a := a)]
  | cons x m ih =>
    obtain ⟨k, v⟩ := x
    rw [Memory.write]
    split
    · simp only [Memory.get?, eq_comm (a := a)]
    · split
      · next h =>
        subst h
        by_cases h : c = a
        · simp [Memory.get?, h]
        · simp [Memory.get?, h, Ne.symm h]
      · next h2 =>
        by_cases h : k = c
        · subst h
          simp [Memory.get?, Ne.symm h2]
        · simp [Memory.get?, h, ih]

/-! ### The canonical form -/

theorem Memory.wfFrom_mono {m : Memory} {lo hi : Nat} (h : lo ≤ hi) (hm : Memory.wfFrom hi m = true) :
    Memory.wfFrom lo m = true := by
  cases m with
  | nil => rfl
  | cons x m =>
    simp only [Memory.wfFrom, Bool.and_eq_true, decide_eq_true_eq] at *
    exact ⟨by omega, hm.2⟩

theorem Memory.wfFrom_write {m : Memory} {lo a : Nat} (b : Byte) (ha : lo ≤ a)
    (hm : Memory.wfFrom lo m = true) : Memory.wfFrom lo (Memory.write m a b) = true := by
  induction m generalizing lo with
  | nil => simp [Memory.write, Memory.wfFrom, ha]
  | cons x m ih =>
    obtain ⟨k, v⟩ := x
    simp only [Memory.wfFrom, Bool.and_eq_true, decide_eq_true_eq] at hm
    rw [Memory.write]
    split
    · simp only [Memory.wfFrom, Bool.and_eq_true, decide_eq_true_eq]
      exact ⟨ha, by omega, hm.2⟩
    · split
      · subst_vars
        simp only [Memory.wfFrom, Bool.and_eq_true, decide_eq_true_eq]
        exact hm
      · simp only [Memory.wfFrom, Bool.and_eq_true, decide_eq_true_eq]
        exact ⟨hm.1, ih (by omega) hm.2⟩

/-- A write keeps the canonical form. -/
theorem Memory.wf_write {m : Memory} (a : Nat) (b : Byte) (hm : Memory.wf m = true) :
    Memory.wf (Memory.write m a b) = true :=
  Memory.wfFrom_write b (Nat.zero_le a) hm

/-- A write adds no address but its own. -/
theorem Memory.mem_write {m : Memory} {a : Nat} {b : Byte} {c : Host.Cell}
    (h : c ∈ Memory.write m a b) : c.1 = a ∨ c ∈ m := by
  induction m with
  | nil => simp_all [Memory.write]
  | cons x m ih =>
    obtain ⟨k, v⟩ := x
    rw [Memory.write] at h
    split at h
    · rcases List.mem_cons.1 h with h | h
      · exact .inl (by rw [h])
      · exact .inr h
    · split at h
      · rcases List.mem_cons.1 h with h | h
        · exact .inl (by rw [h])
        · exact .inr (List.mem_cons_of_mem _ h)
      · rcases List.mem_cons.1 h with h | h
        · exact .inr (h ▸ List.mem_cons_self)
        · exact (ih h).imp_right (List.mem_cons_of_mem _)

theorem Memory.get?_wfFrom_lt {m : Memory} {lo a : Nat} (hm : Memory.wfFrom lo m = true) (ha : a < lo) :
    Memory.get? m a = none := by
  induction m generalizing lo with
  | nil => rfl
  | cons x m ih =>
    obtain ⟨k, v⟩ := x
    simp only [Memory.wfFrom, Bool.and_eq_true, decide_eq_true_eq] at hm
    rw [Memory.get?, if_neg (by omega), ih hm.2 (by omega)]

/-- Two memories in canonical form that hold the same bytes are the same data. -/
theorem Memory.eq_of_get?_eq {m n : Memory} (hm : Memory.wf m = true) (hn : Memory.wf n = true)
    (h : ∀ a, Memory.get? m a = Memory.get? n a) : m = n := by
  unfold Memory.wf at hm hn
  revert hm hn
  generalize 0 = lo
  intro hm hn
  induction m generalizing n lo with
  | nil =>
    cases n with
    | nil => rfl
    | cons y n => simpa [Memory.get?] using h y.1
  | cons x m ih =>
    obtain ⟨k, v⟩ := x
    cases n with
    | nil => simpa [Memory.get?] using h k
    | cons y n =>
      obtain ⟨l, w⟩ := y
      simp only [Memory.wfFrom, Bool.and_eq_true, decide_eq_true_eq] at hm hn
      have hk := h k
      have hl := h l
      simp only [Memory.get?] at hk hl
      have hkl : k = l := by
        by_contra hne
        rcases Nat.lt_or_gt_of_ne hne with hlt | hlt
        · rw [if_pos trivial, if_neg (Ne.symm hne), Memory.get?_wfFrom_lt hn.2 (by omega)] at hk
          exact absurd hk (by simp)
        · rw [if_pos trivial, if_neg hne, Memory.get?_wfFrom_lt hm.2 (by omega)] at hl
          exact absurd hl (by simp)
      subst hkl
      have hv : v = w := by simpa using hk
      subst hv
      rw [ih (lo := k + 1) _ hm.2 hn.2]
      intro a
      have ha := h a
      simp only [Memory.get?] at ha
      by_cases hka : k = a
      · subst hka
        rw [Memory.get?_wfFrom_lt hm.2 (by omega), Memory.get?_wfFrom_lt hn.2 (by omega)]
      · simpa [hka] using ha

/-! ### The stores of a state -/

@[simp] theorem mem_setMem_self (s : State) (r : Region) (m : Memory) : (s.setMem r m).mem r = m := by
  cases r <;> rfl

theorem mem_setMem_of_ne (s : State) {r q : Region} (m : Memory) (h : q ≠ r) :
    (s.setMem r m).mem q = s.mem q := by
  cases r <;> cases q <;> first | rfl | exact absurd rfl h

/-- One byte read after one byte written, in any two stores. -/
theorem readByte_writeByte (s : State) (r q : Region) (a c : Nat) (b : Byte) :
    (s.writeByte r a b).readByte q c = if q = r ∧ c = a then b else s.readByte q c := by
  unfold State.readByte
  rw [writeByte_resets]
  unfold State.writeByte
  by_cases hq : q = r
  · subst hq
    rw [mem_setMem_self, Memory.get?_write]
    by_cases hc : c = a <;> simp [hc]
  · rw [mem_setMem_of_ne _ _ hq, if_neg (fun h => hq h.1)]

/-- A byte read depends on the store and the reset count alone. -/
theorem readByte_congr {s t : State} {r : Region} (hm : s.mem r = t.mem r) (hr : s.resets = t.resets)
    (a : Nat) : s.readByte r a = t.readByte r a := by
  unfold State.readByte
  rw [hm, hr]

theorem loadByte_ok_iff {r : Region} {a : Nat} {s : State} {b : Byte} :
    loadByte r a s = .ok b ↔ Region.holds r a = true ∧ s.readByte r a = b := by
  unfold loadByte
  by_cases h : Region.holds r a = true <;> simp [h]

theorem storeByte_ok_iff {r : Region} {a : Nat} {b : Byte} {s t : State} :
    storeByte r a b s = .ok t ↔ Region.holds r a = true ∧ s.writeByte r a b = t := by
  unfold storeByte
  by_cases h : Region.holds r a = true <;> simp [h]

end Sys2Proof.Machine
end

