-- ==== Sys2Proof/Laws/Codec.lean ====
section
/-! SUPPORT. The laws of the Frame Codec: chunk lengths and the partition (R110, R111), frame lengths (R116), the ack table
(R95). -/

namespace Sys2Proof.Machine

/-! ### Chunk maxima -/

theorem maxChunk_pos (k : Kind) : 0 < k.maxChunk := by cases k <;> decide

theorem maxChunk_le (k : Kind) : k.maxChunk ≤ 8192 := by cases k <;> decide

theorem maxChunk_image : Kind.image.maxChunk = 8192 := rfl

theorem maxChunk_firmware : Kind.firmware.maxChunk = 8184 := rfl

theorem maxChunk_raw : Kind.raw.maxChunk = 68 := rfl

/-! ### The partition -/

/-- The last chunk index `n` of a payload of L ≥ 1 bytes: `n` full chunks lie before it, and one chunk reaches the end. -/
theorem ceilDiv_eq_succ_iff {len m n : Nat} (hm : 0 < m) :
    ceilDiv len m = n + 1 ↔ n * m < len ∧ len ≤ (n + 1) * m := by
  unfold ceilDiv
  rw [Nat.div_eq_iff hm]
  simp only [Nat.add_mul, Nat.one_mul]
  omega

theorem ceilDiv_eq_zero_iff {len m : Nat} (hm : 0 < m) : ceilDiv len m = 0 ↔ len = 0 := by
  unfold ceilDiv
  rw [Nat.div_eq_zero_iff]
  omega

theorem partition_length (k : Kind) (len : Nat) : (partition k len).length = ceilDiv len k.maxChunk := by
  unfold partition
  split <;> simp_all

/-- A payload of L ≥ 1 bytes is `n` full chunks and one of the remaining bytes. -/
theorem partition_eq {k : Kind} {len n : Nat} (h : n * k.maxChunk < len) (h' : len ≤ (n + 1) * k.maxChunk) :
    partition k len = List.replicate n k.maxChunk ++ [len - n * k.maxChunk] := by
  unfold partition
  rw [(ceilDiv_eq_succ_iff (maxChunk_pos k)).2 ⟨h, h'⟩]

theorem partition_zero (k : Kind) : partition k 0 = [] := by
  unfold partition
  rw [(ceilDiv_eq_zero_iff (maxChunk_pos k)).2 rfl]

/-- Every L ≥ 1 has its index of the last chunk. -/
theorem exists_lastChunk (k : Kind) {len : Nat} (h : 0 < len) :
    ∃ n, n * k.maxChunk < len ∧ len ≤ (n + 1) * k.maxChunk := by
  obtain ⟨n, hn⟩ : ∃ n, ceilDiv len k.maxChunk = n + 1 := by
    refine Nat.exists_eq_succ_of_ne_zero fun h0 => ?_
    rw [ceilDiv_eq_zero_iff (maxChunk_pos k)] at h0
    omega
  exact ⟨n, (ceilDiv_eq_succ_iff (maxChunk_pos k)).1 hn⟩

/-- The first `i` chunks cover `i` maxima, or the whole payload. -/
theorem partition_take_sum (k : Kind) (len i : Nat) :
    ((partition k len).take i).sum = min (i * k.maxChunk) len := by
  rcases Nat.eq_zero_or_pos len with rfl | h
  · simp [partition_zero]
  · obtain ⟨n, h1, h2⟩ := exists_lastChunk k h
    rw [partition_eq h1 h2]
    rcases Nat.lt_or_ge n i with hi | hi
    · have hle : (n + 1) * k.maxChunk ≤ i * k.maxChunk := Nat.mul_le_mul_right _ hi
      rw [List.take_of_length_le (by simpa using hi)]
      simp
      omega
    · have hle : i * k.maxChunk ≤ n * k.maxChunk := Nat.mul_le_mul_right _ hi
      rw [List.take_append_of_le_length (by simpa using hi), List.take_replicate]
      simp [Nat.min_eq_left hi]
      omega

/-- Chunk `i` has the length of R111. -/
theorem partition_getD (k : Kind) {len i : Nat} (h : i * k.maxChunk < len) :
    (partition k len).getD i 0 = min k.maxChunk (len - i * k.maxChunk) := by
  obtain ⟨n, h1, h2⟩ := exists_lastChunk k (Nat.zero_lt_of_lt h)
  rw [partition_eq h1 h2]
  have hin : i ≤ n := by
    by_contra hlt
    have hle : (n + 1) * k.maxChunk ≤ i * k.maxChunk := Nat.mul_le_mul_right _ (by omega)
    omega
  rcases Nat.lt_or_eq_of_le hin with hi | rfl
  · have hle : (i + 1) * k.maxChunk ≤ n * k.maxChunk := Nat.mul_le_mul_right _ hi
    rw [Nat.add_mul, Nat.one_mul] at hle
    rw [List.getD_append _ _ _ _ (by simpa using hi)]
    simp [List.getD_eq_getElem?_getD, hi]
    omega
  · rw [List.getD_append_right _ _ _ _ (by simp)]
    rw [Nat.add_mul, Nat.one_mul] at h2
    simp
    omega

/-- A chunk begins before the end exactly when its index is one of the partition's. -/
theorem lt_partition_length_iff (k : Kind) (len i : Nat) :
    i < (partition k len).length ↔ i * k.maxChunk < len := by
  rw [partition_length]
  rcases Nat.eq_zero_or_pos len with rfl | h
  · simp [(ceilDiv_eq_zero_iff (maxChunk_pos k)).2 rfl]
  · obtain ⟨n, h1, h2⟩ := exists_lastChunk k h
    rw [(ceilDiv_eq_succ_iff (maxChunk_pos k)).2 ⟨h1, h2⟩]
    constructor
    · intro hi
      have hle : i * k.maxChunk ≤ n * k.maxChunk := Nat.mul_le_mul_right _ (by omega)
      omega
    · intro hi
      by_contra hlt
      have hle : (n + 1) * k.maxChunk ≤ i * k.maxChunk := Nat.mul_le_mul_right _ (by omega)
      omega

/-! ### Lengths of chunks and frames -/

theorem chunkLenOf_eq {k : Kind} {s : State} (h : s.offset.toNat ≤ s.totalLen.toNat) :
    chunkLenOf k s = min k.maxChunk (s.totalLen.toNat - s.offset.toNat) := by
  unfold chunkLenOf
  rw [BitVec.toNat_sub_of_le (BitVec.le_def.2 h)]

theorem fwHeader_length (len : Nat) : (fwHeader len).length = 8 := rfl

theorem frameLenOf_toNat {k : Kind} {c : BitVec 14} (h : c.toNat ≤ k.maxChunk) :
    (frameLenOf k c).toNat =
      match (generalizing := false) k with
      | .image => c.toNat
      | .firmware => c.toNat + 8
      | .raw => 68 := by
  cases k
  · rfl
  · simp only [Kind.maxChunk, Config.fwChunkMax] at h
    simp only [frameLenOf, BitVec.toNat_add, Config.fwHdrBytes, BitVec.toNat_ofNat]
    omega
  · rfl

/-! ### The ack table -/

/-- Every entry of the ack table asks for at least one byte. -/
theorem ackLen_pos {k : Kind} {ph : Phase} {st : Nat} {r n : BitVec 8} (h : ackLen k ph st r = some n) :
    0 < n.toNat := by
  unfold ackLen at h
  split at h
  · split at h <;> first
      | (cases h; decide)
      | contradiction
      | (split at h
         · contradiction
         · next hr =>
           cases h
           exact Nat.pos_of_ne_zero fun h0 => hr (BitVec.eq_of_toNat_eq h0))
  · split at h <;> first
      | (cases h; decide)
      | contradiction
  all_goals contradiction

/-- The table has an entry for a stage exactly when the sequence has the stage. -/
theorem ackLen_isSome_iff {k : Kind} {ph : Phase} {r : BitVec 8} {n : Nat} (h : ackStages k ph r = some n)
    (st : Nat) : (ackLen k ph st r).isSome = true ↔ st < n := by
  cases ph <;> cases k <;> simp only [ackStages, Option.some.injEq, reduceCtorEq] at h <;> subst h
  all_goals
    rcases st with _ | _ | _ | st <;> simp [ackLen] <;> try split <;> simp_all

end Sys2Proof.Machine
end

