-- ==== Sys2Proof/Laws/Frame.lean ====
section
/-! SUPPORT. What each event of a cycle leaves unchanged (frames), from the smallest continuation to the commands. -/

namespace Sys2Proof.Machine

/-- What no engine event changes but the link event's CHAN: the operation, its length, the host's registers and buffers, the
payload, the command status, the link input, the model's own fields. -/
structure EngineFrame (s t : State) : Prop where
  opkind : t.opkind = s.opkind
  totalLen : t.totalLen = s.totalLen
  chan : t.chan = s.chan
  cmdErr : t.cmdErr = s.cmdErr
  cmdErrCause : t.cmdErrCause = s.cmdErrCause
  fwLen : t.fwLen = s.fwLen
  rxTimeout : t.rxTimeout = s.rxTimeout
  rawK : t.rawK = s.rawK
  rawCmdBuf : t.rawCmdBuf = s.rawCmdBuf
  payload : t.payload = s.payload
  linkUp : t.linkUp = s.linkUp
  inputs : t.inputs = s.inputs
  busResp : t.busResp = s.busResp
  resets : t.resets = s.resets
  busErrors : t.busErrors = s.busErrors

theorem EngineFrame.refl (s : State) : EngineFrame s s :=
  ⟨rfl, rfl, rfl, rfl, rfl, rfl, rfl, rfl, rfl, rfl, rfl, rfl, rfl, rfl, rfl⟩

theorem EngineFrame.trans {s t u : State} (h : EngineFrame s t) (g : EngineFrame t u) : EngineFrame s u :=
  ⟨g.opkind.trans h.opkind, g.totalLen.trans h.totalLen, g.chan.trans h.chan, g.cmdErr.trans h.cmdErr,
    g.cmdErrCause.trans h.cmdErrCause, g.fwLen.trans h.fwLen, g.rxTimeout.trans h.rxTimeout, g.rawK.trans h.rawK,
    g.rawCmdBuf.trans h.rawCmdBuf, g.payload.trans h.payload, g.linkUp.trans h.linkUp, g.inputs.trans h.inputs,
    g.busResp.trans h.busResp, g.resets.trans h.resets, g.busErrors.trans h.busErrors⟩

/-- The four stores and queues that only the TX step or only the RX step touches, and the two buffers of responses. -/
structure WireFrame (s t : State) : Prop where
  rxq : t.rxq = s.rxq
  txh : t.txh = s.txh
  rxh : t.rxh = s.rxh
  txCount : t.txCount = s.txCount
  rxCount : t.rxCount = s.rxCount
  rawRespLen : t.rawRespLen = s.rawRespLen
  rawRespHdr : t.rawRespHdr = s.rawRespHdr
  ackBuf : t.ackBuf = s.ackBuf
  rawRespPayload : t.rawRespPayload = s.rawRespPayload

theorem WireFrame.refl (s : State) : WireFrame s s := ⟨rfl, rfl, rfl, rfl, rfl, rfl, rfl, rfl, rfl⟩

theorem WireFrame.trans {s t u : State} (h : WireFrame s t) (g : WireFrame t u) : WireFrame s u :=
  ⟨g.rxq.trans h.rxq, g.txh.trans h.txh, g.rxh.trans h.rxh, g.txCount.trans h.txCount, g.rxCount.trans h.rxCount,
    g.rawRespLen.trans h.rawRespLen, g.rawRespHdr.trans h.rawRespHdr, g.ackBuf.trans h.ackBuf,
    g.rawRespPayload.trans h.rawRespPayload⟩

/-- Both frames: a continuation of the engine moves only its own progress registers. -/
structure ProgressOnly (s t : State) : Prop where
  engine : EngineFrame s t
  wire : WireFrame s t

theorem ProgressOnly.refl (s : State) : ProgressOnly s s := ⟨.refl s, .refl s⟩

theorem ProgressOnly.trans {s t u : State} (h : ProgressOnly s t) (g : ProgressOnly t u) : ProgressOnly s u :=
  ⟨h.engine.trans g.engine, h.wire.trans g.wire⟩

theorem progressOnly_fail (c : ResultCode) (s : State) : ProgressOnly s (fail c s) :=
  ⟨⟨rfl, rfl, rfl, rfl, rfl, rfl, rfl, rfl, rfl, rfl, rfl, rfl, rfl, rfl, rfl⟩,
    ⟨rfl, rfl, rfl, rfl, rfl, rfl, rfl, rfl, rfl⟩⟩

theorem progressOnly_finish (c : ResultCode) (s : State) : ProgressOnly s (finish c s) :=
  ⟨⟨rfl, rfl, rfl, rfl, rfl, rfl, rfl, rfl, rfl, rfl, rfl, rfl, rfl, rfl, rfl⟩,
    ⟨rfl, rfl, rfl, rfl, rfl, rfl, rfl, rfl, rfl⟩⟩

theorem progressOnly_ackChunk (s : State) : ProgressOnly s (ackChunk s) :=
  ⟨⟨rfl, rfl, rfl, rfl, rfl, rfl, rfl, rfl, rfl, rfl, rfl, rfl, rfl, rfl, rfl⟩,
    ⟨rfl, rfl, rfl, rfl, rfl, rfl, rfl, rfl, rfl⟩⟩

theorem progressOnly_beginStage {k : Kind} {st : Nat} {s t : State} (h : beginStage k st s = .ok t) :
    ProgressOnly s t := by
  unfold beginStage at h
  split at h
  · cases h
    exact ⟨⟨rfl, rfl, rfl, rfl, rfl, rfl, rfl, rfl, rfl, rfl, rfl, rfl, rfl, rfl, rfl⟩,
      ⟨rfl, rfl, rfl, rfl, rfl, rfl, rfl, rfl, rfl⟩⟩
  · cases h

theorem progressOnly_beginSequence {k : Kind} {ph : Phase} {s t : State} (h : beginSequence k ph s = .ok t) :
    ProgressOnly s t := by
  have h' := progressOnly_beginStage h
  exact ⟨⟨h'.engine.opkind, h'.engine.totalLen, h'.engine.chan, h'.engine.cmdErr, h'.engine.cmdErrCause, h'.engine.fwLen,
    h'.engine.rxTimeout, h'.engine.rawK, h'.engine.rawCmdBuf, h'.engine.payload, h'.engine.linkUp, h'.engine.inputs,
    h'.engine.busResp, h'.engine.resets, h'.engine.busErrors⟩,
    ⟨h'.wire.rxq, h'.wire.txh, h'.wire.rxh, h'.wire.txCount, h'.wire.rxCount, h'.wire.rawRespLen, h'.wire.rawRespHdr,
      h'.wire.ackBuf, h'.wire.rawRespPayload⟩⟩

theorem progressOnly_setupChunk (k : Kind) (s : State) : ProgressOnly s (setupChunk k s) := by
  unfold setupChunk
  dsimp only
  split
  · exact progressOnly_fail _ s
  · exact ⟨⟨rfl, rfl, rfl, rfl, rfl, rfl, rfl, rfl, rfl, rfl, rfl, rfl, rfl, rfl, rfl⟩,
      ⟨rfl, rfl, rfl, rfl, rfl, rfl, rfl, rfl, rfl⟩⟩

theorem progressOnly_chunkAcked {k : Kind} {s t : State} (h : chunkAcked k s = .ok t) : ProgressOnly s t := by
  unfold chunkAcked at h
  split at h
  · cases h
    exact progressOnly_finish _ s
  · split at h
    · split at h
      · exact progressOnly_beginSequence h
      · cases h
        exact progressOnly_finish _ s
    · split at h
      · cases h
        exact progressOnly_finish _ s
      · cases h
        exact progressOnly_setupChunk k s

theorem progressOnly_sequenceDone {k : Kind} {s t : State} (h : sequenceDone k s = .ok t) : ProgressOnly s t := by
  unfold sequenceDone at h
  split at h
  · cases h
    exact progressOnly_finish _ s
  · exact (progressOnly_ackChunk s).trans (progressOnly_chunkAcked h)

theorem progressOnly_stageDone {k : Kind} {s t : State} (h : stageDone k s = .ok t) : ProgressOnly s t := by
  unfold stageDone at h
  split at h
  · split at h
    · exact progressOnly_beginStage h
    · exact progressOnly_sequenceDone h
  · cases h

theorem progressOnly_countByte {k : Kind} {s t : State} (h : countByte k s = .ok t) : ProgressOnly s t := by
  unfold countByte at h
  have h0 : ProgressOnly s { s with rxGot := s.rxGot + 1 } :=
    ⟨⟨rfl, rfl, rfl, rfl, rfl, rfl, rfl, rfl, rfl, rfl, rfl, rfl, rfl, rfl, rfl⟩,
      ⟨rfl, rfl, rfl, rfl, rfl, rfl, rfl, rfl, rfl⟩⟩
  dsimp only at h
  split at h
  · exact h0.trans (progressOnly_stageDone h)
  · cases h
    exact h0

/-! ### The TX step -/

/-- A TX step sends one byte of the frame; of the wire it changes TXH and TX_COUNT only (R140). -/
theorem txStep_cases {k : Kind} {s t : State} (h : txStep k s = .ok t) :
    ∃ b, frameByte k s.txPos.toNat s = .ok b ∧
      (s.txPos + 1 = s.frameLen ∧ frameSent k (emitByte b s) = .ok t ∨
        s.txPos + 1 ≠ s.frameLen ∧ t = emitByte b s) := by
  unfold txStep at h
  split at h
  · cases h
  · next b hb =>
    refine ⟨b, hb, ?_⟩
    dsimp only at h
    split at h
    · next he => exact .inl ⟨he, h⟩
    · next he =>
      cases h
      exact .inr ⟨he, rfl⟩

theorem engineFrame_emitByte (b : Byte) (s : State) : EngineFrame s (emitByte b s) :=
  ⟨rfl, rfl, rfl, rfl, rfl, rfl, rfl, rfl, rfl, rfl, rfl, rfl, rfl, rfl, rfl⟩

theorem engineFrame_txStep {k : Kind} {s t : State} (h : txStep k s = .ok t) : EngineFrame s t := by
  obtain ⟨b, _, ⟨_, h⟩ | ⟨_, rfl⟩⟩ := txStep_cases h
  · exact (engineFrame_emitByte b s).trans (progressOnly_beginSequence h).engine
  · exact engineFrame_emitByte b s

/-- What a TX step leaves of the receive side. -/
theorem txStep_rxq {k : Kind} {s t : State} (h : txStep k s = .ok t) : t.rxq = s.rxq := by
  obtain ⟨b, _, ⟨_, h⟩ | ⟨_, rfl⟩⟩ := txStep_cases h
  · exact (progressOnly_beginSequence h).wire.rxq
  · rfl

theorem txEvent_cases {r : Bool} {s t : State} (h : txEvent r s = .ok t) :
    t = s ∨ ∃ k, s.opkind = some k ∧ s.phase = .sending ∧ s.chan = .opened ∧ r = true ∧ txStep k s = .ok t := by
  unfold txEvent at h
  split at h
  · next hr =>
    simp only [txValid, Bool.and_eq_true, decide_eq_true_eq] at hr
    split at h
    · next k hk => exact .inr ⟨k, hk, hr.2.1, hr.2.2, hr.1, h⟩
    · cases h
  · cases h
    exact .inl rfl

theorem engineFrame_txEvent {r : Bool} {s t : State} (h : txEvent r s = .ok t) : EngineFrame s t := by
  rcases txEvent_cases h with rfl | ⟨k, _, _, _, _, h⟩
  · exact .refl _
  · exact engineFrame_txStep h

/-! ### The RX step -/

theorem engineFrame_takeByte (b : Byte) (q : List Byte) (s : State) : EngineFrame s (takeByte b q s) :=
  ⟨rfl, rfl, rfl, rfl, rfl, rfl, rfl, rfl, rfl, rfl, rfl, rfl, rfl, rfl, rfl⟩

/-- Where a received byte is stored (R144): in one of the three buffers the engine writes, or in RAW_RESP_LEN. -/
theorem storeAckByte_frame {k : Kind} {b : Byte} {s t : State} (h : storeAckByte k b s = .ok t) :
    EngineFrame s t ∧ t.rxq = s.rxq ∧ t.txh = s.txh ∧ t.rxh = s.rxh ∧ t.txCount = s.txCount ∧ t.rxCount = s.rxCount ∧
      t.phase = s.phase ∧ t.rxGot = s.rxGot ∧ t.rxNeed = s.rxNeed := by
  unfold storeAckByte at h
  split at h
  · obtain ⟨_, rfl⟩ := storeByte_ok_iff.1 h
    exact ⟨⟨rfl, rfl, rfl, rfl, rfl, rfl, rfl, rfl, rfl, rfl, rfl, rfl, rfl, rfl, rfl⟩,
      rfl, rfl, rfl, rfl, rfl, rfl, rfl, rfl⟩
  · obtain ⟨_, rfl⟩ := storeByte_ok_iff.1 h
    exact ⟨⟨rfl, rfl, rfl, rfl, rfl, rfl, rfl, rfl, rfl, rfl, rfl, rfl, rfl, rfl, rfl⟩,
      rfl, rfl, rfl, rfl, rfl, rfl, rfl, rfl⟩
  · split at h
    · obtain ⟨_, rfl⟩ := storeByte_ok_iff.1 h
      exact ⟨⟨rfl, rfl, rfl, rfl, rfl, rfl, rfl, rfl, rfl, rfl, rfl, rfl, rfl, rfl, rfl⟩,
        rfl, rfl, rfl, rfl, rfl, rfl, rfl, rfl⟩
    · cases h
      exact ⟨⟨rfl, rfl, rfl, rfl, rfl, rfl, rfl, rfl, rfl, rfl, rfl, rfl, rfl, rfl, rfl⟩,
        rfl, rfl, rfl, rfl, rfl, rfl, rfl, rfl⟩
    · obtain ⟨_, rfl⟩ := storeByte_ok_iff.1 h
      exact ⟨⟨rfl, rfl, rfl, rfl, rfl, rfl, rfl, rfl, rfl, rfl, rfl, rfl, rfl, rfl, rfl⟩,
        rfl, rfl, rfl, rfl, rfl, rfl, rfl, rfl⟩
    · cases h

theorem rxStep_cases {k : Kind} {b : Byte} {q : List Byte} {s t : State} (h : rxStep k b q s = .ok t) :
    ∃ u, storeAckByte k b (takeByte b q s) = .ok u ∧ countByte k u = .ok t := by
  unfold rxStep at h
  split at h
  · cases h
  · next u hu => exact ⟨u, hu, h⟩

/-- An RX step takes one byte of RXQ; it sends nothing (R143). -/
theorem rxStep_frame {k : Kind} {b : Byte} {q : List Byte} {s t : State} (h : rxStep k b q s = .ok t) :
    EngineFrame s t ∧ t.rxq = q ∧ t.txh = s.txh ∧ t.rxh = s.rxh ++ [b] ∧ t.txCount = s.txCount
      ∧ t.rxCount = s.rxCount + 1 := by
  obtain ⟨u, hu, ht⟩ := rxStep_cases h
  obtain ⟨f, h1, h2, h3, h4, h5, _⟩ := storeAckByte_frame hu
  have g := progressOnly_countByte ht
  exact ⟨((engineFrame_takeByte b q s).trans f).trans g.engine, g.wire.rxq.trans h1, g.wire.txh.trans h2,
    g.wire.rxh.trans h3, g.wire.txCount.trans h4, g.wire.rxCount.trans h5⟩

theorem rxEvent_cases {r : Bool} {s t : State} (h : rxEvent r s = .ok t) :
    t = s ∨ ∃ k b q, s.rxq = b :: q ∧ s.opkind = some k ∧ s.phase.awaiting = true ∧ s.chan = .opened ∧ r = true ∧
      rxStep k b q s = .ok t := by
  unfold rxEvent at h
  split at h
  · cases h
    exact .inl rfl
  · next b q hq =>
    split at h
    · next hr =>
      simp only [rxReady, Bool.and_eq_true, decide_eq_true_eq] at hr
      split at h
      · next k hk => exact .inr ⟨k, b, q, hq, hk, hr.2.1.1, hr.2.1.2, hr.1, h⟩
      · cases h
    · cases h
      exact .inl rfl

theorem engineFrame_rxEvent {r : Bool} {s t : State} (h : rxEvent r s = .ok t) : EngineFrame s t := by
  rcases rxEvent_cases h with rfl | ⟨k, b, q, _, _, _, _, _, h⟩
  · exact .refl _
  · exact (rxStep_frame h).1

/-- RXQ only gets shorter by an RX step. -/
theorem rxEvent_rxq {r : Bool} {s t : State} (h : rxEvent r s = .ok t) (hq : s.rxq = []) : t.rxq = [] := by
  rcases rxEvent_cases h with rfl | ⟨k, b, q, e, _⟩
  · exact hq
  · rw [hq] at e
    cases e

/-! ### Tick, transport error, link -/

theorem progressOnly_tickEvent (b : Bool) (s : State) : ProgressOnly s (tickEvent b s) := by
  unfold tickEvent
  split
  · unfold tickStep
    split
    · split
      · exact progressOnly_fail _ s
      · exact ⟨⟨rfl, rfl, rfl, rfl, rfl, rfl, rfl, rfl, rfl, rfl, rfl, rfl, rfl, rfl, rfl⟩,
          ⟨rfl, rfl, rfl, rfl, rfl, rfl, rfl, rfl, rfl⟩⟩
    · exact .refl s
  · exact .refl s

theorem progressOnly_txErrEvent (b : Bool) (s : State) : ProgressOnly s (txErrEvent b s) := by
  unfold txErrEvent
  split
  · exact progressOnly_fail _ s
  · exact .refl s

/-- The engine's events of a cycle, one after another (R220). -/
theorem engineEvents_cases {i : CycleInput} {s t : State} (h : engineEvents i s = .ok t) :
    ∃ a b, rxEvent (rxReady s) (txErrEvent i.txErr (linkEvent s)) = .ok a ∧
      txEvent (txValid s && i.txReady && !i.txErr) a = .ok b ∧ t = tickEvent i.tick b := by
  unfold engineEvents at h
  split at h
  · cases h
  · next a ha =>
    split at h
    · cases h
    · next b hb =>
      cases h
      exact ⟨a, b, ha, hb, rfl⟩

/-- After the link event, the engine's events keep what `EngineFrame` lists. -/
theorem engineFrame_engineEvents {i : CycleInput} {s t : State} (h : engineEvents i s = .ok t) :
    EngineFrame (linkEvent s) t := by
  obtain ⟨a, b, ha, hb, rfl⟩ := engineEvents_cases h
  exact (((progressOnly_txErrEvent i.txErr (linkEvent s)).engine.trans (engineFrame_rxEvent ha)).trans
    (engineFrame_txEvent hb)).trans (progressOnly_tickEvent i.tick b).engine

/-! ### The commands -/

/-- What no command changes (R55, R180 to R187): the host's registers and buffers, the payload, the responses, the
environment state, the model's own fields; CHAN can only start closing. -/
structure CommandFrame (s t : State) : Prop where
  chan : t.chan = s.chan ∨ s.chan = .opened ∧ t.chan = .closing
  fwLen : t.fwLen = s.fwLen
  rxTimeout : t.rxTimeout = s.rxTimeout
  rawCmdBuf : t.rawCmdBuf = s.rawCmdBuf
  rawRespHdr : t.rawRespHdr = s.rawRespHdr
  ackBuf : t.ackBuf = s.ackBuf
  rawRespPayload : t.rawRespPayload = s.rawRespPayload
  payload : t.payload = s.payload
  linkUp : t.linkUp = s.linkUp
  rxq : t.rxq = s.rxq
  txh : t.txh = s.txh
  rxh : t.rxh = s.rxh
  inputs : t.inputs = s.inputs
  busResp : t.busResp = s.busResp
  resets : t.resets = s.resets
  busErrors : t.busErrors = s.busErrors

theorem commandFrame_startTransfer (k : Kind) (w : Word) (s : State) : CommandFrame s (startTransfer k w s) := by
  unfold startTransfer
  dsimp only
  have h0 : CommandFrame s (freshTransfer k w s) :=
    ⟨.inl rfl, rfl, rfl, rfl, rfl, rfl, rfl, rfl, rfl, rfl, rfl, rfl, rfl, rfl, rfl, rfl⟩
  split
  · exact ⟨.inl rfl, rfl, rfl, rfl, rfl, rfl, rfl, rfl, rfl, rfl, rfl, rfl, rfl, rfl, rfl, rfl⟩
  · split
    · exact ⟨.inl rfl, rfl, rfl, rfl, rfl, rfl, rfl, rfl, rfl, rfl, rfl, rfl, rfl, rfl, rfl, rfl⟩
    · have g := progressOnly_setupChunk k (freshTransfer k w s)
      exact ⟨.inl g.engine.chan, g.engine.fwLen, g.engine.rxTimeout, g.engine.rawCmdBuf, g.wire.rawRespHdr, g.wire.ackBuf,
        g.wire.rawRespPayload, g.engine.payload, g.engine.linkUp, g.wire.rxq, g.wire.txh, g.wire.rxh, g.engine.inputs,
        g.engine.busResp, g.engine.resets, g.engine.busErrors⟩

theorem runCommand_cases {c : Cause} {body : State → State} {s t : State} (h : runCommand c body s = .next t) :
    c = .none ∧ t = body (accept s) ∨ c ≠ .none ∧ t = reject c s := by
  cases c <;> cases h
  · exact .inl ⟨rfl, rfl⟩
  all_goals exact .inr ⟨by decide, rfl⟩

theorem commandFrame_runCommand {c : Cause} {body : State → State} {s t : State}
    (hb : CommandFrame (accept s) (body (accept s))) (h : runCommand c body s = .next t) : CommandFrame s t := by
  rcases runCommand_cases h with ⟨_, rfl⟩ | ⟨_, rfl⟩
  · exact ⟨hb.chan, hb.fwLen, hb.rxTimeout, hb.rawCmdBuf, hb.rawRespHdr, hb.ackBuf, hb.rawRespPayload, hb.payload,
      hb.linkUp, hb.rxq, hb.txh, hb.rxh, hb.inputs, hb.busResp, hb.resets, hb.busErrors⟩
  · exact ⟨.inl rfl, rfl, rfl, rfl, rfl, rfl, rfl, rfl, rfl, rfl, rfl, rfl, rfl, rfl, rfl, rfl⟩

theorem CommandFrame.refl (s : State) : CommandFrame s s :=
  ⟨.inl rfl, rfl, rfl, rfl, rfl, rfl, rfl, rfl, rfl, rfl, rfl, rfl, rfl, rfl, rfl, rfl⟩

/-- The frame of every command. -/
theorem commandFrame_exec {i : Instr} {s t : State} (h : exec i s = .next t) : CommandFrame s t := by
  cases i with
  | nop => exact commandFrame_runCommand (c := .none) (body := id) (.refl _) h
  | sendImage => exact commandFrame_runCommand (commandFrame_startTransfer _ _ _) h
  | updateFw => exact commandFrame_runCommand (commandFrame_startTransfer _ _ _) h
  | rawCmd k =>
    have g := commandFrame_startTransfer .raw (BitVec.ofNat 32 Config.rawCmdBytes)
      { accept s with rawK := k.setWidth 7, rawRespLen := 0 }
    exact commandFrame_runCommand (body := startRaw k) ⟨g.chan, g.fwLen, g.rxTimeout, g.rawCmdBuf, g.rawRespHdr, g.ackBuf,
      g.rawRespPayload, g.payload, g.linkUp, g.rxq, g.txh, g.rxh, g.inputs, g.busResp, g.resets, g.busErrors⟩ h
  | abort =>
    refine commandFrame_runCommand (c := .none) (body := requestAbort) ?_ h
    unfold requestAbort
    split <;> exact ⟨.inl rfl, rfl, rfl, rfl, rfl, rfl, rfl, rfl, rfl, rfl, rfl, rfl, rfl, rfl, rfl, rfl⟩
  | quit =>
    refine commandFrame_runCommand ?_ h
    refine ⟨?_, rfl, rfl, rfl, rfl, rfl, rfl, rfl, rfl, rfl, rfl, rfl, rfl, rfl, rfl, rfl⟩
    show (if s.chan = .opened then Chan.closing else s.chan) = s.chan ∨ _
    split
    · next h => exact .inr ⟨h, if_pos h⟩
    · exact .inl rfl

end Sys2Proof.Machine
end

