-- ==== Sys2Proof/Laws/Invariant.lean ====
section
/-! SUPPORT. Each event of a cycle keeps the engine's invariant (Safety.lean), and in a state that has it no engine step
faults: one lemma per shared operation, which says what it needs and what it leaves. -/

namespace Sys2Proof.Safety

open Sys2Proof.Machine

/-! ### Stores -/

theorem StoreOk.nil (r : Region) : StoreOk r [] := ⟨rfl, fun _ h => absurd h List.not_mem_nil⟩

theorem StoreOk.write {r : Region} {m : Memory} {a : Nat} {b : Byte} (h : StoreOk r m)
    (ha : Region.holds r a = true) : StoreOk r (Memory.write m a b) where
  canonical := Memory.wf_write a b h.canonical
  inside c hc := by
    rcases Memory.mem_write hc with e | hm
    · rw [e]
      exact ha
    · exact h.inside c hm

theorem storesOk_writeByte {s : State} {r : Region} {a : Nat} {b : Byte} (h : ∀ q, StoreOk q (s.mem q))
    (ha : Region.holds r a = true) : ∀ q, StoreOk q ((s.writeByte r a b).mem q) := by
  intro q
  unfold State.writeByte
  by_cases hq : q = r
  · subst hq
    rw [mem_setMem_self]
    exact (h q).write ha
  · rw [mem_setMem_of_ne _ _ hq]
    exact h q

/-! ### Updates that the engine's invariant hardly sees -/

/-- The invariant speaks of the engine's registers and stores only: the host's two configuration registers, the timer,
the environment state and the model's own fields may change, the command status if its two fields agree, ABORT_PENDING
while busy. -/
theorem EngineInv.frame {s : State} (h : EngineInv s) (fw rt tm : Word) (lu : Bool) (q th rh : List Byte)
    (inp : List CycleInput) (br : Option BusResponse) (be : Nat) {ce : Bool} {cc : Cause} (hc : ce = false ↔ cc = .none)
    {ab : Bool} (hab : ab = true → s.phase.busy = true) :
    EngineInv { s with
      fwLen := fw, rxTimeout := rt, rxTimer := tm, linkUp := lu, rxq := q, txh := th, rxh := rh, inputs := inp,
      busResp := br, busErrors := be, cmdErr := ce, cmdErrCause := cc, abortPending := ab } where
  listed := ⟨h.listed.offset_le, h.listed.chunk, h.listed.awaiting, h.listed.finalAck, h.listed.progress⟩
  stores r := by cases r <;> first
    | exact h.stores .payload
    | exact h.stores .rawCmdBuf
    | exact h.stores .rawRespHdr
    | exact h.stores .ackBuf
    | exact h.stores .rawRespPayload
  ranges := ⟨h.ranges.chunkLen, h.ranges.frameLen, h.ranges.txPos, h.ranges.rxStage, h.ranges.rxGot, h.ranges.ackPos,
    h.ranges.rawK⟩
  outcome := ⟨hc, hab, h.outcome.inFlight, h.outcome.complete, h.outcome.failed, h.outcome.never⟩
  inFlight hb := by
    obtain ⟨k, f⟩ := h.inFlight hb
    exact ⟨k, f.opkind, f.chan, f.total,
      fun hp => ⟨(f.chunk hp).more, (f.chunk hp).len, (f.chunk hp).last, (f.chunk hp).frameLen,
        (f.chunk hp).rawStart⟩, f.sending,
      fun hp => ⟨(f.stage hp).need, (f.stage hp).got, (f.stage hp).sent, (f.stage hp).ackPos⟩, f.finalAck⟩
  counts := ⟨h.counts.tx, h.counts.rx, h.counts.done, h.counts.total, h.counts.index⟩

theorem EngineInv.accept {s : State} (h : EngineInv s) : EngineInv (Machine.accept s) :=
  h.frame s.fwLen s.rxTimeout s.rxTimer s.linkUp s.rxq s.txh s.rxh s.inputs s.busResp s.busErrors
    (iff_of_true rfl rfl) h.outcome.abortPending

theorem EngineInv.reject {s : State} (h : EngineInv s) {c : Cause} (hc : c ≠ .none) : EngineInv (Machine.reject c s) :=
  h.frame s.fwLen s.rxTimeout s.rxTimer s.linkUp s.rxq s.txh s.rxh s.inputs s.busResp s.busErrors
    (iff_of_false (by decide) hc) h.outcome.abortPending

theorem EngineInv.requestAbort {s : State} (h : EngineInv s) : EngineInv (Machine.requestAbort s) := by
  unfold Machine.requestAbort
  split
  · next hb =>
    exact h.frame s.fwLen s.rxTimeout s.rxTimer s.linkUp s.rxq s.txh s.rxh s.inputs s.busResp s.busErrors
      h.outcome.cmdErr fun _ => hb
  · exact h

theorem EngineInv.consumeInput {s : State} (h : EngineInv s) : EngineInv (Machine.consumeInput s) :=
  h.frame s.fwLen s.rxTimeout s.rxTimer s.linkUp s.rxq s.txh s.rxh s.inputs.tail none s.busErrors h.outcome.cmdErr
    h.outcome.abortPending

theorem EngineInv.environmentEvent {s : State} (h : EngineInv s) (i : CycleInput) :
    EngineInv (Machine.environmentEvent i s) :=
  h.frame s.fwLen s.rxTimeout s.rxTimer i.linkUp _ s.txh s.rxh s.inputs s.busResp s.busErrors h.outcome.cmdErr
    h.outcome.abortPending

theorem EngineInv.busResp {s : State} (h : EngineInv s) (r : Option BusResponse) : EngineInv { s with busResp := r } :=
  h.frame s.fwLen s.rxTimeout s.rxTimer s.linkUp s.rxq s.txh s.rxh s.inputs r s.busErrors h.outcome.cmdErr
    h.outcome.abortPending

/-- A byte written to a store leaves the registers, and the store canonical. -/
theorem EngineInv.writeByte {s : State} (h : EngineInv s) {r : Region} {a : Nat} (b : Byte)
    (ha : Region.holds r a = true) : EngineInv (s.writeByte r a b) where
  listed := by cases r <;>
    exact ⟨h.listed.offset_le, h.listed.chunk, h.listed.awaiting, h.listed.finalAck, h.listed.progress⟩
  stores := storesOk_writeByte h.stores ha
  ranges := by cases r <;>
    exact ⟨h.ranges.chunkLen, h.ranges.frameLen, h.ranges.txPos, h.ranges.rxStage, h.ranges.rxGot, h.ranges.ackPos,
      h.ranges.rawK⟩
  outcome := by cases r <;>
    exact ⟨h.outcome.cmdErr, h.outcome.abortPending, h.outcome.inFlight, h.outcome.complete, h.outcome.failed,
      h.outcome.never⟩
  inFlight hb := by
    obtain ⟨k, f⟩ := h.inFlight (by simpa using hb)
    cases r <;> exact ⟨k, f.opkind, f.chan, f.total,
      fun hp => ⟨(f.chunk hp).more, (f.chunk hp).len, (f.chunk hp).last, (f.chunk hp).frameLen,
        (f.chunk hp).rawStart⟩, f.sending,
      fun hp => ⟨(f.stage hp).need, (f.stage hp).got, (f.stage hp).sent, (f.stage hp).ackPos⟩, f.finalAck⟩
  counts := by cases r <;>
    exact ⟨h.counts.tx, h.counts.rx, h.counts.done, h.counts.total, h.counts.index⟩

/-! ### Failure and the way out -/

/-- What failure entry needs. -/
structure Base (s : State) : Prop where
  offset_le : s.offset.toNat ≤ s.totalLen.toNat
  stores : ∀ r, StoreOk r (s.mem r)
  ranges : RangesOk s
  cmdErr : s.cmdErr = false ↔ s.cmdErrCause = .none
  total : ∀ k, k ≠ .firmware → s.opkind = some k → TotalOk k s.totalLen

theorem EngineInv.base {s : State} (h : EngineInv s) : Base s :=
  ⟨h.listed.offset_le, h.stores, h.ranges, h.outcome.cmdErr, h.counts.total⟩

/-- The codes that a failure can have (R211), INVALID_CHUNK_BOUNDARY apart (R213). -/
def FailCode (c : ResultCode) : Prop := c = .connectionError ∨ c = .shortRead ∨ c = .timeout

theorem Base.fail {s : State} (h : Base s) {c : ResultCode} (hc : FailCode c) (x : Chan) :
    EngineInv (Machine.fail c { s with chan := x }) where
  listed := ⟨h.offset_le, fun hp => by simp at hp, fun hp => by simp at hp, fun hp => by simp at hp,
    fun _ _ _ hp => absurd rfl hp⟩
  stores r := by cases r <;> first
    | exact h.stores .payload
    | exact h.stores .rawCmdBuf
    | exact h.stores .rawRespHdr
    | exact h.stores .ackBuf
    | exact h.stores .rawRespPayload
  ranges := ⟨h.ranges.chunkLen, h.ranges.frameLen, h.ranges.txPos, h.ranges.rxStage, h.ranges.rxGot, h.ranges.ackPos,
    h.ranges.rawK⟩
  outcome := ⟨h.cmdErr, fun hp => by simp at hp, fun hp => by simp [Phase.busy] at hp, fun hp => by simp at hp,
    fun _ => hc, by rcases hc with rfl | rfl | rfl <;> simp⟩
  inFlight hb := by simp [Phase.busy] at hb
  counts := ⟨fun _ _ hp => by simp [Phase.busy] at hp, fun _ _ hp => by simp [Phase.busy] at hp,
    fun hp => by simp at hp, h.total, fun _ _ _ hp => absurd rfl hp⟩

theorem EngineInv.fail {s : State} (h : EngineInv s) {c : ResultCode} (hc : FailCode c) :
    EngineInv (Machine.fail c s) :=
  h.base.fail hc s.chan

theorem EngineInv.leaveSession {s : State} (h : EngineInv s) : EngineInv (Machine.leaveSession s) where
  listed := ⟨h.listed.offset_le, fun hp => by simp at hp, fun hp => by simp at hp, fun hp => by simp at hp,
    fun _ _ ho => by simp at ho⟩
  stores r := by cases r <;> first
    | exact h.stores .payload
    | exact h.stores .rawCmdBuf
    | exact h.stores .rawRespHdr
    | exact h.stores .ackBuf
    | exact h.stores .rawRespPayload
  ranges := ⟨h.ranges.chunkLen, h.ranges.frameLen, h.ranges.txPos, h.ranges.rxStage, h.ranges.rxGot, h.ranges.ackPos,
    h.ranges.rawK⟩
  outcome := ⟨h.outcome.cmdErr, fun hp => by simp at hp, fun hp => by simp [Phase.busy] at hp, fun hp => by simp at hp,
    fun hp => by simp at hp, h.outcome.never⟩
  inFlight hb := by simp [Phase.busy] at hb
  counts := ⟨fun _ ho => by simp at ho, fun _ ho => by simp at ho, fun hp => by simp at hp, fun _ _ ho => by simp at ho,
    fun _ _ ho => by simp at ho⟩

/-- CHAN may change while no operation is in flight. -/
theorem EngineInv.setChan {s : State} (h : EngineInv s) (hb : s.phase.busy = false) (x : Chan) :
    EngineInv { s with chan := x } where
  listed := ⟨h.listed.offset_le, h.listed.chunk, h.listed.awaiting, h.listed.finalAck, h.listed.progress⟩
  stores r := by cases r <;> first
    | exact h.stores .payload
    | exact h.stores .rawCmdBuf
    | exact h.stores .rawRespHdr
    | exact h.stores .ackBuf
    | exact h.stores .rawRespPayload
  ranges := ⟨h.ranges.chunkLen, h.ranges.frameLen, h.ranges.txPos, h.ranges.rxStage, h.ranges.rxGot, h.ranges.ackPos,
    h.ranges.rawK⟩
  outcome := ⟨h.outcome.cmdErr, h.outcome.abortPending, h.outcome.inFlight, h.outcome.complete, h.outcome.failed,
    h.outcome.never⟩
  inFlight hp := by
    rw [hb] at hp
    exact absurd hp (by decide)
  counts := ⟨h.counts.tx, h.counts.rx, h.counts.done, h.counts.total, h.counts.index⟩

/-! ### Link, transport error, tick -/

theorem EngineInv.chan_of_busy {s : State} (h : EngineInv s) (hb : s.phase.busy = true) : s.chan = .opened := by
  obtain ⟨_, f⟩ := h.inFlight hb
  exact f.chan

theorem EngineInv.linkDown {s : State} (h : EngineInv s) : EngineInv (Machine.linkDown s) := by
  unfold Machine.linkDown
  split
  · split
    · exact h.base.fail (.inl rfl) .closed
    · next hb => exact h.setChan (by simpa using hb) .closed
  · next hc =>
    refine h.setChan ?_ .closed
    by_contra hb
    rw [h.chan_of_busy (by simpa using hb)] at hc
    exact absurd hc (by decide)
  · exact h

theorem EngineInv.linkOpen {s : State} (h : EngineInv s) : EngineInv (Machine.linkOpen s) := by
  unfold Machine.linkOpen
  split
  · next hc =>
    refine h.setChan ?_ .opened
    by_contra hb
    rw [h.chan_of_busy (by simpa using hb)] at hc
    exact absurd hc.1 (by decide)
  · exact h

theorem EngineInv.linkEvent {s : State} (h : EngineInv s) : EngineInv (Machine.linkEvent s) := by
  unfold Machine.linkEvent
  split
  · exact h.linkOpen
  · exact h.linkDown

/-- After the link event, an open channel means a link that is up. -/
theorem linkEvent_opened {s : State} (h : (Machine.linkEvent s).chan = .opened) :
    (Machine.linkEvent s).linkUp = true := by
  unfold Machine.linkEvent at *
  split at h
  · next hl =>
    rw [if_pos hl]
    unfold Machine.linkOpen
    split <;> exact hl
  · next hl =>
    exfalso
    unfold Machine.linkDown at h
    split at h
    · split at h <;> simp at h
    · simp at h
    · next hc => simp [hc] at h

theorem EngineInv.txErrEvent {s : State} (h : EngineInv s) (e : Bool) : EngineInv (Machine.txErrEvent e s) := by
  unfold Machine.txErrEvent
  split
  · exact h.fail (.inl rfl)
  · exact h

theorem expiryCode_failCode (g : BitVec 8) : FailCode (expiryCode g) := by
  unfold expiryCode
  split
  · exact .inr (.inr rfl)
  · exact .inr (.inl rfl)

theorem EngineInv.tickStep {s : State} (h : EngineInv s) : EngineInv (Machine.tickStep s) := by
  unfold Machine.tickStep
  split
  · split
    · exact h.fail (expiryCode_failCode _)
    · exact h.frame s.fwLen s.rxTimeout _ s.linkUp s.rxq s.txh s.rxh s.inputs s.busResp s.busErrors h.outcome.cmdErr
        h.outcome.abortPending
  · exact h

theorem EngineInv.tickEvent {s : State} (h : EngineInv s) (b : Bool) : EngineInv (Machine.tickEvent b s) := by
  unfold Machine.tickEvent
  split
  · exact h.tickStep
  · exact h

end Sys2Proof.Safety
end

