-- ==== Sys2Proof/Laws/Progress.lean ====
section
/-! SUPPORT. The engine's continuations (R142, R145 to R148) and its TX and RX steps keep the invariant and do not fault: the
state between two chunks, chunk setup, the end of a transfer, ack stages. -/

namespace Sys2Proof.Safety

open Sys2Proof.Machine

/-- Two words are equal when their values are. -/
theorem word_eq_iff {n : Nat} {a b : BitVec n} : a = b ↔ a.toNat = b.toNat := BitVec.toNat_inj.symm

/-- A 32-bit counter that counts `n` bytes counts `n + 1` after the next. -/
theorem count_succ {c : Word} {n : Nat} (h : c = BitVec.ofNat 32 n) : c + 1 = BitVec.ofNat 32 (n + 1) := by
  rw [h, BitVec.ofNat_add]
  rfl

/-! ### Between two chunks -/

/-- The state between two chunks of a transfer, `r` bytes received: every chunk before OFFSET is acknowledged. -/
structure Boundary (k : Kind) (s : State) (r : Nat) : Prop where
  base : Base s
  opkind : s.opkind = some k
  chan : s.chan = .opened
  total : TotalOk k s.totalLen ∨ (k = .firmware ∧ s.totalLen.toNat = 0)
  progress : k ≠ .raw → s.offset.toNat = ((partition k s.totalLen.toNat).take s.chunkIdx.toNat).sum
  index : k ≠ .raw → s.chunkIdx.toNat ≤ (partition k s.totalLen.toNat).length
  result : s.result = .none
  tx : s.txCount = BitVec.ofNat 32 (s.offset.toNat + headerBytes k * s.chunkIdx.toNat)
  rx : s.rxCount = BitVec.ofNat 32 r

theorem chunkLenOf_bounds {k : Kind} {s : State} (h : s.offset.toNat < s.totalLen.toNat) :
    0 < chunkLenOf k s ∧ chunkLenOf k s ≤ k.maxChunk ∧ s.offset.toNat + chunkLenOf k s ≤ s.totalLen.toNat := by
  have hp := maxChunk_pos k
  rw [chunkLenOf_eq h.le]
  omega

/-- Under R111's premise OFFSET < TOTAL_LEN the length check of chunk setup passes (R213). -/
theorem badChunkLen_false {k : Kind} {s : State} (h : s.offset.toNat < s.totalLen.toNat) :
    badChunkLen k (chunkLenOf k s) = false := by
  have hb := chunkLenOf_bounds (k := k) h
  unfold badChunkLen
  rw [decide_eq_false (by omega), decide_eq_false (by omega)]
  rfl

/-- Chunk setup where payload remains (R148). -/
theorem setupChunk_eq {k : Kind} {s : State} (h : s.offset.toNat < s.totalLen.toNat) :
    setupChunk k s =
      { s with
        chunkLen := BitVec.ofNat 14 (chunkLenOf k s)
        lastChunk := lastFlag (chunkLenOf k s) s
        frameLen := frameLenOf k (BitVec.ofNat 14 (chunkLenOf k s))
        txPos := 0
        phase := .sending } := by
  unfold setupChunk
  simp only [badChunkLen_false h]
  rfl

theorem chunkLen_toNat {k : Kind} {n : Nat} (h : n ≤ k.maxChunk) : (BitVec.ofNat 14 n).toNat = n := by
  have h' := maxChunk_le k
  rw [BitVec.toNat_ofNat]
  omega

theorem frameLenOf_bounds {k : Kind} {c : BitVec 14} (h : 0 < c.toNat) (h' : c.toNat ≤ k.maxChunk) :
    0 < (frameLenOf k c).toNat ∧ (frameLenOf k c).toNat ≤ 8192 := by
  rw [frameLenOf_toNat h']
  cases k <;> simp only [maxChunk_image, maxChunk_firmware, maxChunk_raw] at h' ⊢ <;> omega

/-- LAST_CHUNK of a chunk that lies inside the payload compares plain numbers. -/
theorem lastFlag_eq {n : Nat} {s : State} (h : s.offset.toNat + n ≤ s.totalLen.toNat) :
    lastFlag n s = decide (s.offset.toNat + n = s.totalLen.toNat) := by
  have ht := s.totalLen.isLt
  unfold lastFlag
  congr 1
  rw [word_eq_iff, BitVec.toNat_add, BitVec.toNat_ofNat]
  rw [Nat.mod_eq_of_lt (a := n) (by omega), Nat.mod_eq_of_lt (by omega)]

/-- Chunk setup keeps the invariant where payload remains. -/
theorem Boundary.setupChunk {k : Kind} {s : State} {r : Nat} (h : Boundary k s r)
    (hr : r = if k = .raw then 0 else 7 * s.chunkIdx.toNat) (hm : s.offset.toNat < s.totalLen.toNat)
    (h0 : k = .raw → s.offset = 0) : EngineInv (Machine.setupChunk k s) := by
  have hb := chunkLenOf_bounds (k := k) hm
  have hc := chunkLen_toNat (k := k) hb.2.1
  have hf := frameLenOf_bounds (k := k) (c := BitVec.ofNat 14 (chunkLenOf k s)) (by omega) (by omega)
  have ht : TotalOk k s.totalLen := h.total.resolve_right fun ⟨_, h0⟩ => by omega
  have h8 := maxChunk_le k
  rw [setupChunk_eq hm]
  exact {
    listed := {
      offset_le := h.base.offset_le
      chunk := fun _ => by
        refine ⟨?_, ?_, Nat.zero_le _⟩
        · show 1 ≤ (BitVec.ofNat 14 (chunkLenOf k s)).toNat
          omega
        · show s.offset.toNat + (BitVec.ofNat 14 (chunkLenOf k s)).toNat ≤ s.totalLen.toNat
          omega
      awaiting := fun hp => by simp at hp
      finalAck := fun hp => by simp at hp
      progress := fun q hq ho _ => by
        have e : k = q := Option.some.inj (h.opkind.symm.trans ho)
        subst e
        exact h.progress hq }
    stores := fun q => by cases q <;> first
      | exact h.base.stores .payload
      | exact h.base.stores .rawCmdBuf
      | exact h.base.stores .rawRespHdr
      | exact h.base.stores .ackBuf
      | exact h.base.stores .rawRespPayload
    ranges := {
      chunkLen := by
        show (BitVec.ofNat 14 (chunkLenOf k s)).toNat ≤ 8192
        omega
      frameLen := hf.2
      txPos := Nat.zero_le _
      rxStage := h.base.ranges.rxStage
      rxGot := h.base.ranges.rxGot
      ackPos := h.base.ranges.ackPos
      rawK := h.base.ranges.rawK }
    outcome := {
      cmdErr := h.base.cmdErr
      abortPending := fun _ => rfl
      inFlight := fun _ => h.result
      complete := fun hp => by simp at hp
      failed := fun hp => by simp at hp
      never := by
        show s.result ≠ _
        rw [h.result]
        decide }
    inFlight := fun _ => ⟨k, {
      opkind := h.opkind
      chan := h.chan
      total := ht
      chunk := fun _ => {
        more := hm
        len := by
          show (BitVec.ofNat 14 (chunkLenOf k s)).toNat = _
          rw [hc, chunkLenOf_eq hm.le]
        last := by
          show lastFlag (chunkLenOf k s) s = decide (s.offset.toNat + (BitVec.ofNat 14 (chunkLenOf k s)).toNat = _)
          rw [hc, lastFlag_eq hb.2.2]
        frameLen := rfl
        rawStart := h0 }
      sending := fun _ => hf.1
      stage := fun hp => by simp [Phase.awaiting] at hp
      finalAck := fun hp => by simp at hp }⟩
    counts := {
      tx := fun q ho _ => by
        have e : k = q := Option.some.inj (h.opkind.symm.trans ho)
        subst e
        exact h.tx
      rx := fun q ho _ => by
        have e : k = q := Option.some.inj (h.opkind.symm.trans ho)
        subst e
        refine h.rx.trans (congrArg _ (hr.trans ?_))
        cases k <;> rfl
      done := fun hp => by simp at hp
      total := fun q _ ho => by
        have e : k = q := Option.some.inj (h.opkind.symm.trans ho)
        subst e
        exact ht
      index := fun q hq ho _ => by
        have e : k = q := Option.some.inj (h.opkind.symm.trans ho)
        subst e
        exact h.index hq } }

/-- The end of a transfer keeps the invariant: OK with all of the payload behind it, or an abort of an image or
firmware. -/
theorem Boundary.finish {k : Kind} {s : State} {r : Nat} (h : Boundary k s r) {c : ResultCode}
    (hc : c = .ok ∧ s.offset = s.totalLen ∨ c = .aborted ∧ k ≠ .raw)
    (hr : r = match k with
      | .image => 7 * s.chunkIdx.toNat + (if c = .ok then 12 else 0)
      | .firmware => 7 * s.chunkIdx.toNat
      | .raw => 5 + s.rawRespLen.toNat) :
    EngineInv (Machine.finish c s) where
  listed := {
    offset_le := h.base.offset_le
    chunk := fun hp => by simp at hp
    awaiting := fun hp => by simp at hp
    finalAck := fun hp => by simp at hp
    progress := fun q hq ho _ => by
      have e : k = q := Option.some.inj (h.opkind.symm.trans ho)
      subst e
      exact h.progress hq }
  stores q := by cases q <;> first
    | exact h.base.stores .payload
    | exact h.base.stores .rawCmdBuf
    | exact h.base.stores .rawRespHdr
    | exact h.base.stores .ackBuf
    | exact h.base.stores .rawRespPayload
  ranges := ⟨h.base.ranges.chunkLen, h.base.ranges.frameLen, h.base.ranges.txPos, h.base.ranges.rxStage,
    h.base.ranges.rxGot, h.base.ranges.ackPos, h.base.ranges.rawK⟩
  outcome := {
    cmdErr := h.base.cmdErr
    abortPending := fun hp => by simp at hp
    inFlight := fun hp => by simp [Phase.busy] at hp
    complete := fun _ => hc.imp And.left And.left
    failed := fun hp => by simp at hp
    never := by
      show c ≠ _
      rcases hc with ⟨rfl, _⟩ | ⟨rfl, _⟩ <;> decide }
  inFlight hb := by simp [Phase.busy] at hb
  counts := {
    tx := fun q ho _ => by
      have e : k = q := Option.some.inj (h.opkind.symm.trans ho)
      subst e
      refine h.tx.trans (congrArg _ ?_)
      simp [sentSoFar]
    rx := fun q ho _ => by
      have e : k = q := Option.some.inj (h.opkind.symm.trans ho)
      subst e
      refine h.rx.trans (congrArg _ (hr.trans ?_))
      cases k <;> simp [receivedSoFar, Phase.awaiting]
    done := fun _ hok => by
      refine ⟨?_, ?_⟩
      · show s.opkind ≠ none
        rw [h.opkind]
        exact Option.some_ne_none _
      · rcases hc with ⟨_, e⟩ | ⟨rfl, _⟩
        · exact e
        · simp at hok
    total := h.base.total
    index := fun q hq ho _ => by
      have e : k = q := Option.some.inj (h.opkind.symm.trans ho)
      subst e
      exact h.index hq }

/-! ### Inside an ack sequence -/

/-- The state inside an ack sequence, the current stage possibly with all its bytes. -/
structure Receiving (k : Kind) (s : State) : Prop where
  base : Base s
  opkind : s.opkind = some k
  chan : s.chan = .opened
  phase : s.phase.awaiting = true
  total : TotalOk k s.totalLen
  chunk : s.phase = .awaitAck → ChunkOk k s
  need : ackLen k s.phase s.rxStage.toNat s.rawRespLen = some s.rxNeed
  got : s.rxGot.toNat ≤ s.rxNeed.toNat
  sent : s.txPos = s.frameLen
  ackPos : s.ackPos.toNat = if k = .raw then 0 else ackSoFar k s
  finalAck : s.phase = .awaitFinalAck → k = .image ∧ s.offset = s.totalLen
  progress : k ≠ .raw → s.offset.toNat = ((partition k s.totalLen.toNat).take s.chunkIdx.toNat).sum
  index : k ≠ .raw → s.chunkIdx.toNat ≤ (partition k s.totalLen.toNat).length
  result : s.result = .none
  tx : s.txCount = BitVec.ofNat 32 (sentSoFar k s)
  rx : s.rxCount = BitVec.ofNat 32 (receivedSoFar k s)

theorem awaiting_cases {p : Phase} (h : p.awaiting = true) : p = .awaitAck ∨ p = .awaitFinalAck := by
  cases p <;> simp [Phase.awaiting] at h ⊢

theorem busy_of_awaiting {p : Phase} (h : p.awaiting = true) : p.busy = true := by
  cases p <;> simp [Phase.awaiting, Phase.busy] at h ⊢

theorem busy_iff {p : Phase} : p.busy = true ↔ p = .sending ∨ p.awaiting = true := by
  cases p <;> simp [Phase.awaiting, Phase.busy]

/-- The current chunk's length is at least 1 and at most the kind's maximum. -/
theorem ChunkOk.bounds {k : Kind} {s : State} (h : ChunkOk k s) :
    0 < s.chunkLen.toNat ∧ s.chunkLen.toNat ≤ k.maxChunk ∧
      s.offset.toNat + s.chunkLen.toNat ≤ s.totalLen.toNat := by
  have hp := maxChunk_pos k
  have hm := h.more
  rw [h.len]
  omega

/-- An incomplete stage is a state of the invariant. -/
theorem Receiving.engineInv {k : Kind} {s : State} (h : Receiving k s) (hg : s.rxGot.toNat < s.rxNeed.toNat) :
    EngineInv s where
  listed := {
    offset_le := h.base.offset_le
    chunk := fun hp => by
      have hp' : s.phase = .awaitAck := by
        rcases hp with hp | hp
        · have h' := h.phase
          rw [hp] at h'
          exact absurd h' (by decide)
        · exact hp
      have hb := (h.chunk hp').bounds
      exact ⟨hb.1, hb.2.2, h.base.ranges.txPos⟩
    awaiting := fun _ => ⟨h.sent, hg⟩
    finalAck := fun hp => by
      obtain ⟨rfl, e⟩ := h.finalAck hp
      exact ⟨h.opkind, by rw [e]; exact h.total⟩
    progress := fun q hq ho _ => by
      have e : k = q := Option.some.inj (h.opkind.symm.trans ho)
      subst e
      exact h.progress hq }
  stores := h.base.stores
  ranges := h.base.ranges
  outcome := {
    cmdErr := h.base.cmdErr
    abortPending := fun _ => busy_of_awaiting h.phase
    inFlight := fun _ => h.result
    complete := fun hp => by
      have h' := h.phase
      rw [hp] at h'
      exact absurd h' (by decide)
    failed := fun hp => by
      have h' := h.phase
      rw [hp] at h'
      exact absurd h' (by decide)
    never := by
      rw [h.result]
      decide }
  inFlight _ := ⟨k, {
    opkind := h.opkind
    chan := h.chan
    total := h.total
    chunk := fun hp => h.chunk <| hp.resolve_left fun hp => by
      have h' := h.phase
      rw [hp] at h'
      exact absurd h' (by decide)
    sending := fun hp => by
      have h' := h.phase
      rw [hp] at h'
      exact absurd h' (by decide)
    stage := fun _ => ⟨h.need, hg, h.sent, h.ackPos⟩
    finalAck := h.finalAck }⟩
  counts := {
    tx := fun q ho _ => by
      have e : k = q := Option.some.inj (h.opkind.symm.trans ho)
      subst e
      exact h.tx
    rx := fun q ho _ => by
      have e : k = q := Option.some.inj (h.opkind.symm.trans ho)
      subst e
      exact h.rx
    done := fun hp => by
      have h' := h.phase
      rw [hp] at h'
      exact absurd h' (by decide)
    total := h.base.total
    index := fun q hq ho _ => by
      have e : k = q := Option.some.inj (h.opkind.symm.trans ho)
      subst e
      exact h.index hq }

/-- A state of the invariant in an await phase is inside an ack sequence. -/
theorem EngineInv.receiving {s : State} (h : EngineInv s) (hp : s.phase.awaiting = true) :
    ∃ k, Receiving k s ∧ s.rxGot.toNat < s.rxNeed.toNat := by
  have hb := busy_of_awaiting hp
  obtain ⟨k, f⟩ := h.inFlight hb
  have st := f.stage hp
  have hnf : s.phase ≠ .failed := fun e => by
    rw [e] at hp
    exact absurd hp (by decide)
  exact ⟨k, {
    base := h.base
    opkind := f.opkind
    chan := f.chan
    phase := hp
    total := f.total
    chunk := fun e => f.chunk (.inr e)
    need := st.need
    got := st.got.le
    sent := st.sent
    ackPos := st.ackPos
    finalAck := f.finalAck
    progress := fun hk => h.listed.progress k hk f.opkind hnf
    index := fun hk => h.counts.index k hk f.opkind hnf
    result := h.outcome.inFlight hb
    tx := h.counts.tx k f.opkind (.inl hb)
    rx := h.counts.rx k f.opkind (.inl hb) }, st.got⟩

/-- `begin_stage` where the ack table has the stage (R142). -/
theorem beginStage_eq {k : Kind} {st : Nat} {s : State} {n : BitVec 8}
    (h : ackLen k s.phase st s.rawRespLen = some n) :
    beginStage k st s =
      .ok { s with rxStage := BitVec.ofNat 2 st, rxNeed := n, rxGot := 0, rxTimer := s.rxTimeout } := by
  unfold beginStage
  rw [h]

/-- The next stage of a sequence (R145): what has been received is counted in the new stage's start. -/
theorem Receiving.beginStage {k : Kind} {s : State} (h : Receiving k s) (hg : s.rxGot = s.rxNeed) {n : BitVec 8}
    (hn : ackLen k s.phase (s.rxStage.toNat + 1) s.rawRespLen = some n) :
    ∃ t, Machine.beginStage k (s.rxStage.toNat + 1) s = .ok t ∧ EngineInv t := by
  refine ⟨_, beginStage_eq hn, ?_⟩
  have hpos := ackLen_pos hn
  have hneed := h.need
  have hst : s.rxStage.toNat + 1 ≤ 2 := by
    by_contra hlt
    have h3 : s.rxStage.toNat + 1 = (s.rxStage.toNat - 2) + 3 := by
      have := h.base.ranges.rxStage
      omega
    rw [h3] at hn
    revert hn
    generalize s.rxStage.toNat - 2 = z
    rcases awaiting_cases h.phase with e | e <;> rw [e] <;> cases k <;> simp [ackLen]
  have hst' : (BitVec.ofNat 2 (s.rxStage.toNat + 1)).toNat = s.rxStage.toNat + 1 := by
    rw [BitVec.toNat_ofNat]
    omega
  have hsame : ackSoFar k { s with
      rxStage := BitVec.ofNat 2 (s.rxStage.toNat + 1), rxNeed := n, rxGot := 0, rxTimer := s.rxTimeout }
      = ackSoFar k s := by
    have hgot : s.rxGot.toNat = s.rxNeed.toNat := by rw [hg]
    simp only [ackSoFar, hst', hgot]
    revert hneed hn hst
    generalize s.rxStage.toNat = z
    generalize s.rxNeed = m
    intro hn hneed hst
    rcases awaiting_cases h.phase with e | e <;> rw [e] at hneed hn <;> cases k <;>
      rcases z with _ | _ | z <;> simp [ackLen] at hneed hn ⊢ <;> first | omega | (subst hneed; rfl)
  refine Receiving.engineInv (k := k) ?_ hpos
  exact {
    base := ⟨h.base.offset_le, fun q => by cases q <;> first
      | exact h.base.stores .payload
      | exact h.base.stores .rawCmdBuf
      | exact h.base.stores .rawRespHdr
      | exact h.base.stores .ackBuf
      | exact h.base.stores .rawRespPayload,
      ⟨h.base.ranges.chunkLen, h.base.ranges.frameLen, h.base.ranges.txPos, by
        show (BitVec.ofNat 2 (s.rxStage.toNat + 1)).toNat ≤ 2
        omega, Nat.zero_le _, h.base.ranges.ackPos, h.base.ranges.rawK⟩, h.base.cmdErr, h.base.total⟩
    opkind := h.opkind
    chan := h.chan
    phase := h.phase
    total := h.total
    chunk := fun e => ⟨(h.chunk e).more, (h.chunk e).len, (h.chunk e).last, (h.chunk e).frameLen,
      (h.chunk e).rawStart⟩
    need := by
      show ackLen k s.phase (BitVec.ofNat 2 (s.rxStage.toNat + 1)).toNat s.rawRespLen = some n
      rw [hst', hn]
    got := Nat.zero_le _
    sent := h.sent
    ackPos := by
      rw [hsame]
      exact h.ackPos
    finalAck := h.finalAck
    progress := h.progress
    index := h.index
    result := h.result
    tx := h.tx
    rx := by
      refine h.rx.trans (congrArg _ ?_)
      simp only [receivedSoFar, h.phase, hsame] }

/-! ### The end of an ack sequence -/

/-- The bytes of a complete ack sequence (R92 to R94). -/
def ackTotal (k : Kind) (s : State) : Nat :=
  if s.phase = .awaitFinalAck then 12 else if k = .raw then 5 + s.rawRespLen.toNat else 7

/-- A complete last stage completes the sequence's byte count. -/
theorem Receiving.ackSoFar_last {k : Kind} {s : State} (h : Receiving k s) (hg : s.rxGot = s.rxNeed) {n : Nat}
    (hn : ackStages k s.phase s.rawRespLen = some n) (hl : ¬ s.rxStage.toNat + 1 < n) :
    ackSoFar k s = ackTotal k s := by
  have hneed := h.need
  have hlt : s.rxStage.toNat < n := (ackLen_isSome_iff hn _).1 (by rw [hneed]; rfl)
  have hst : s.rxStage.toNat = n - 1 := by omega
  have hgot : s.rxGot.toNat = s.rxNeed.toNat := by rw [hg]
  simp only [ackSoFar, ackTotal, hgot]
  rw [hst] at hneed ⊢
  revert hn hneed
  generalize s.rxNeed = m
  intro hn hneed
  rcases awaiting_cases h.phase with e | e <;> rw [e] at hneed hn ⊢ <;> cases k <;>
    simp only [ackStages, Option.some.injEq, reduceCtorEq] at hn <;> subst hn
  · simp [ackLen] at hneed ⊢
    subst hneed
    rfl
  · simp [ackLen] at hneed ⊢
    subst hneed
    rfl
  · by_cases hr : s.rawRespLen = 0
    · simp only [hr] at hneed ⊢
      simp [ackLen] at hneed ⊢
      subst hneed
      rfl
    · simp only [hr, if_false] at hneed ⊢
      simp [ackLen] at hneed ⊢
      rw [hneed.2]
  · simp [ackLen] at hneed ⊢
    subst hneed
    rfl

/-- A transfer in flight with a chunk of kind image or firmware: OFFSET is a whole number of full chunks. -/
theorem offset_eq_mul {k : Kind} {s : State}
    (hp : s.offset.toNat = ((partition k s.totalLen.toNat).take s.chunkIdx.toNat).sum)
    (hm : s.offset.toNat < s.totalLen.toNat) : s.offset.toNat = s.chunkIdx.toNat * k.maxChunk := by
  rw [partition_take_sum] at hp
  omega

/-- OFFSET past the acknowledged chunk. -/
theorem offset_add_toNat {k : Kind} {s : State} (h : ChunkOk k s) :
    (s.offset + s.chunkLen.setWidth 32).toNat = s.offset.toNat + s.chunkLen.toNat := by
  have hb := h.bounds
  have ht := s.totalLen.isLt
  have hc : (s.chunkLen.setWidth 32).toNat = s.chunkLen.toNat := by
    rw [BitVec.toNat_setWidth]
    omega
  rw [BitVec.toNat_add, hc]
  omega

/-- CHUNK_IDX of a chunk inside the payload counts on without wrapping. -/
theorem chunkIdx_succ_toNat {k : Kind} {s : State} (hk : k ≠ .raw)
    (hm : s.chunkIdx.toNat * k.maxChunk < s.totalLen.toNat) :
    (s.chunkIdx + 1).toNat = s.chunkIdx.toNat + 1 := by
  have ht := s.totalLen.isLt
  have h2 : s.chunkIdx.toNat * 2 ≤ s.chunkIdx.toNat * k.maxChunk :=
    Nat.mul_le_mul_left _ (by cases k <;> decide)
  rw [BitVec.toNat_add]
  show (s.chunkIdx.toNat + 1) % 2 ^ 32 = _
  omega

/-- After a chunk's ack the progress registers stand at the next boundary (R146). -/
theorem Receiving.ackChunk {k : Kind} {s : State} (h : Receiving k s) (hp : s.phase = .awaitAck)
    (hl : ackSoFar k s = ackTotal k s) :
    Boundary k (Machine.ackChunk s)
      (if k = .raw then 5 + s.rawRespLen.toNat else 7 * (Machine.ackChunk s).chunkIdx.toNat) := by
  have hc := h.chunk hp
  have hb := hc.bounds
  have ho := offset_add_toNat hc
  have hi : k ≠ .raw → s.offset.toNat = s.chunkIdx.toNat * k.maxChunk := fun hk =>
    offset_eq_mul (h.progress hk) hc.more
  have hs : k ≠ .raw → (s.chunkIdx + 1).toNat = s.chunkIdx.toNat + 1 := fun hk => by
    have hm := hc.more
    rw [hi hk] at hm
    exact chunkIdx_succ_toNat hk hm
  exact {
    base := ⟨by
        show (s.offset + s.chunkLen.setWidth 32).toNat ≤ s.totalLen.toNat
        omega, fun q => by cases q <;> first
      | exact h.base.stores .payload
      | exact h.base.stores .rawCmdBuf
      | exact h.base.stores .rawRespHdr
      | exact h.base.stores .ackBuf
      | exact h.base.stores .rawRespPayload,
      ⟨h.base.ranges.chunkLen, h.base.ranges.frameLen, h.base.ranges.txPos, h.base.ranges.rxStage,
        h.base.ranges.rxGot, h.base.ranges.ackPos, h.base.ranges.rawK⟩, h.base.cmdErr, h.base.total⟩
    opkind := h.opkind
    chan := h.chan
    total := .inl h.total
    progress := fun hk => by
      show (s.offset + s.chunkLen.setWidth 32).toNat
        = ((partition k s.totalLen.toNat).take (s.chunkIdx + 1).toNat).sum
      rw [ho, hs hk, partition_take_sum, hc.len, hi hk, Nat.add_mul, Nat.one_mul]
      have hm := hc.more
      rw [hi hk] at hm
      omega
    index := fun hk => by
      show (s.chunkIdx + 1).toNat ≤ (partition k s.totalLen.toNat).length
      rw [hs hk]
      have hm := hc.more
      rw [hi hk] at hm
      exact (lt_partition_length_iff k _ _).2 hm
    result := h.result
    tx := by
      refine h.tx.trans (congrArg _ ?_)
      show sentSoFar k s = (s.offset + s.chunkLen.setWidth 32).toNat + headerBytes k * (s.chunkIdx + 1).toNat
      have hf := frameLenOf_toNat hb.2.1
      rw [ho]
      simp only [sentSoFar, hp, h.sent, hc.frameLen, or_true, if_true, hf]
      cases k
      · simp [headerBytes]
      · have e := hs (by decide)
        simp only [headerBytes, Config.fwHdrBytes] at *
        omega
      · have ht : s.totalLen.toNat = 68 := h.total
        have hlen := hc.len
        rw [hc.rawStart rfl, ht, maxChunk_raw] at hlen
        have h0 : (0 : Word).toNat = 0 := rfl
        rw [h0] at hlen
        simp only [headerBytes]
        omega
    rx := by
      refine h.rx.trans (congrArg _ ?_)
      unfold receivedSoFar
      have hna : s.phase ≠ .awaitFinalAck := by
        rw [hp]
        decide
      rw [if_pos h.phase, hl]
      by_cases hk : k = .raw
      · simp [ackTotal, hna, hk]
      · simp only [ackTotal, hna, hk, if_false, ackChunk_chunkIdx, hs hk]
        omega }

/-- `begin_sequence` where the ack table has the sequence (R142). -/
theorem beginSequence_eq {k : Kind} {ph : Phase} {s : State} {n : BitVec 8}
    (h : ackLen k ph 0 s.rawRespLen = some n) :
    beginSequence k ph s =
      .ok { s with
        phase := ph, ackPos := 0, rxStage := 0, rxNeed := n, rxGot := 0, rxTimer := s.rxTimeout } :=
  beginStage_eq (s := { s with phase := ph, ackPos := 0 }) h

/-- The end-of-image ack begins (R146): the invariant holds in it. -/
theorem Boundary.beginFinal {s : State} (h : Boundary .image s (7 * s.chunkIdx.toNat))
    (ho : s.offset = s.totalLen) (ht : s.txPos = s.frameLen) :
    ∃ t, beginSequence .image .awaitFinalAck s = .ok t ∧ EngineInv t := by
  refine ⟨_, beginSequence_eq (n := 5) rfl, Receiving.engineInv (k := .image) ?_ (by show 0 < 5; decide)⟩
  exact {
    base := ⟨h.base.offset_le, fun q => by cases q <;> first
      | exact h.base.stores .payload
      | exact h.base.stores .rawCmdBuf
      | exact h.base.stores .rawRespHdr
      | exact h.base.stores .ackBuf
      | exact h.base.stores .rawRespPayload,
      ⟨h.base.ranges.chunkLen, h.base.ranges.frameLen, h.base.ranges.txPos, Nat.zero_le _, Nat.zero_le _, Nat.zero_le _,
        h.base.ranges.rawK⟩, h.base.cmdErr, h.base.total⟩
    opkind := h.opkind
    chan := h.chan
    phase := rfl
    total := h.total.resolve_right fun e => absurd e.1 (by decide)
    chunk := fun e => by simp at e
    need := rfl
    got := Nat.zero_le _
    sent := ht
    ackPos := rfl
    finalAck := fun _ => ⟨rfl, ho⟩
    progress := h.progress
    index := h.index
    result := h.result
    tx := by
      refine h.tx.trans (congrArg _ ?_)
      simp [sentSoFar]
    rx := h.rx }

/-- `sequence_done()` keeps the invariant and does not fault (R146). -/
theorem Receiving.sequenceDone {k : Kind} {s : State} (h : Receiving k s) (hl : ackSoFar k s = ackTotal k s) :
    ∃ t, Machine.sequenceDone k s = .ok t ∧ EngineInv t := by
  unfold Machine.sequenceDone
  by_cases hf : s.phase = .awaitFinalAck
  · obtain ⟨rfl, ho⟩ := h.finalAck hf
    rw [if_pos hf]
    refine ⟨_, rfl, Boundary.finish (k := .image) (r := 7 * s.chunkIdx.toNat + 12) ?_ (.inl ⟨rfl, ho⟩) rfl⟩
    exact {
      base := h.base
      opkind := h.opkind
      chan := h.chan
      total := .inl h.total
      progress := h.progress
      index := h.index
      result := h.result
      tx := by
        refine h.tx.trans (congrArg _ ?_)
        simp [sentSoFar, hf]
      rx := by
        refine h.rx.trans (congrArg _ ?_)
        unfold receivedSoFar
        rw [if_pos h.phase, hl, ackTotal, if_pos hf]
        rfl }
  · have hp : s.phase = .awaitAck := (awaiting_cases h.phase).resolve_right hf
    have hb := h.ackChunk hp hl
    have hc := h.chunk hp
    rw [if_neg hf]
    unfold chunkAcked
    by_cases hk : k = .raw
    · subst hk
      rw [if_pos rfl]
      refine ⟨_, rfl, hb.finish (.inl ⟨rfl, ?_⟩) rfl⟩
      have ht : s.totalLen.toNat = 68 := h.total
      have hlen := hc.len
      have h0 : s.offset.toNat = 0 := by rw [hc.rawStart rfl]; rfl
      rw [ht, h0, maxChunk_raw] at hlen
      rw [word_eq_iff]
      show (s.offset + s.chunkLen.setWidth 32).toNat = s.totalLen.toNat
      rw [offset_add_toNat hc]
      omega
    · rw [if_neg hk] at hb ⊢
      split
      · next ho =>
        split
        · next hi =>
          subst hi
          exact hb.beginFinal ho h.sent
        · next hi =>
          refine ⟨_, rfl, hb.finish (.inl ⟨rfl, ho⟩) ?_⟩
          cases k
          · exact absurd rfl hi
          · rfl
          · exact absurd rfl hk
      · next ho =>
        split
        · refine ⟨_, rfl, hb.finish (.inr ⟨rfl, hk⟩) ?_⟩
          cases k
          · rfl
          · rfl
          · exact absurd rfl hk
        · refine ⟨_, rfl, hb.setupChunk ?_ ?_ fun e => absurd e hk⟩
          · rw [if_neg hk]
          · have hle := hb.base.offset_le
            rw [word_eq_iff] at ho
            omega

/-- `stage_done()` keeps the invariant and does not fault (R145). -/
theorem Receiving.stageDone {k : Kind} {s : State} (h : Receiving k s) (hg : s.rxGot = s.rxNeed) :
    ∃ t, Machine.stageDone k s = .ok t ∧ EngineInv t := by
  obtain ⟨n, hn⟩ : ∃ n, ackStages k s.phase s.rawRespLen = some n := by
    rcases awaiting_cases h.phase with e | e
    · rw [e]
      cases k <;> exact ⟨_, rfl⟩
    · obtain ⟨rfl, _⟩ := h.finalAck e
      rw [e]
      exact ⟨_, rfl⟩
  unfold Machine.stageDone
  rw [hn]
  by_cases hl : s.rxStage.toNat + 1 < n
  · obtain ⟨m, hm⟩ := Option.isSome_iff_exists.1 ((ackLen_isSome_iff hn _).2 hl)
    simp only [hl, if_true]
    exact h.beginStage hg hm
  · simp only [hl, if_false]
    exact h.sequenceDone (h.ackSoFar_last hg hn hl)

end Sys2Proof.Safety
end

