-- ==== Sys2Proof/Laws/Steps.lean ====
section
/-! SUPPORT. The engine's TX and RX steps and the commands keep the invariant and do not fault; what a whole cycle can do. -/

namespace Sys2Proof.Safety

open Sys2Proof.Machine

/-! ### The RX step -/

/-- The bytes of an ack sequence of an image or firmware fit in ACK_BUF (R144). -/
theorem Receiving.ackSoFar_lt {k : Kind} {s : State} (h : Receiving k s) (hk : k ≠ .raw)
    (hg : s.rxGot.toNat < s.rxNeed.toNat) : ackSoFar k s < 12 := by
  have hneed := h.need
  unfold ackSoFar
  revert hneed hg
  generalize s.rxNeed = m
  generalize s.rxStage.toNat = z
  intro hg hneed
  rcases awaiting_cases h.phase with e | e <;> rw [e] at hneed <;> cases k <;> first | exact absurd rfl hk | skip
  all_goals
    rcases z with _ | _ | z <;> simp [ackLen] at hneed ⊢ <;> subst hneed <;>
      simp only [BitVec.toNat_ofNat] at hg <;> omega

/-- One more byte of the current stage, wherever it is stored. -/
theorem Receiving.count {k : Kind} {s : State} (h : Receiving k s) (hg : s.rxGot.toNat < s.rxNeed.toNat)
    {ap : BitVec 4} {rl : BitVec 8} {m1 m2 m3 : Memory} (q rh : List Byte)
    (hap : ap.toNat = if k = .raw then 0 else ackSoFar k s + 1)
    (hrl : ackLen k s.phase s.rxStage.toNat rl = some s.rxNeed) (h1 : StoreOk .ackBuf m1) (h2 : StoreOk .rawRespHdr m2)
    (h3 : StoreOk .rawRespPayload m3) :
    Receiving k { s with
      ackPos := ap, rawRespLen := rl, ackBuf := m1, rawRespHdr := m2, rawRespPayload := m3, rxq := q, rxh := rh,
      rxCount := s.rxCount + 1, rxGot := s.rxGot + 1 } := by
  have hn := s.rxNeed.isLt
  have hgot : (s.rxGot + 1).toNat = s.rxGot.toNat + 1 := by
    rw [BitVec.toNat_add]
    show (s.rxGot.toNat + 1) % 2 ^ 8 = _
    omega
  have hsf : ackSoFar k { s with
      ackPos := ap, rawRespLen := rl, ackBuf := m1, rawRespHdr := m2, rawRespPayload := m3, rxq := q, rxh := rh,
      rxCount := s.rxCount + 1, rxGot := s.rxGot + 1 } = ackSoFar k s + 1 := by
    simp only [ackSoFar, hgot]
    omega
  exact {
    base := ⟨h.base.offset_le, fun r => by cases r <;> first
      | exact h.base.stores .payload
      | exact h.base.stores .rawCmdBuf
      | exact h2
      | exact h1
      | exact h3,
      ⟨h.base.ranges.chunkLen, h.base.ranges.frameLen, h.base.ranges.txPos, h.base.ranges.rxStage, by
        show (s.rxGot + 1).toNat ≤ s.rxNeed.toNat
        omega, by
        show ap.toNat ≤ 12
        rw [hap]
        split
        · omega
        · next hk =>
          have hlt := h.ackSoFar_lt hk hg
          omega, h.base.ranges.rawK⟩, h.base.cmdErr, h.base.total⟩
    opkind := h.opkind
    chan := h.chan
    phase := h.phase
    total := h.total
    chunk := fun e => ⟨(h.chunk e).more, (h.chunk e).len, (h.chunk e).last, (h.chunk e).frameLen,
      (h.chunk e).rawStart⟩
    need := hrl
    got := by
      show (s.rxGot + 1).toNat ≤ s.rxNeed.toNat
      omega
    sent := h.sent
    ackPos := by
      rw [hsf]
      exact hap
    finalAck := h.finalAck
    progress := h.progress
    index := h.index
    result := h.result
    tx := h.tx
    rx := by
      refine (count_succ h.rx).trans (congrArg _ ?_)
      simp only [receivedSoFar, h.phase, if_true, hsf]
      omega }

theorem ackPos_succ {k : Kind} {s : State} (h : Receiving k s) (hk : k ≠ .raw)
    (hg : s.rxGot.toNat < s.rxNeed.toNat) : (s.ackPos + 1).toNat = ackSoFar k s + 1 := by
  have ha := h.ackPos
  have hlt := h.ackSoFar_lt hk hg
  rw [if_neg hk] at ha
  rw [BitVec.toNat_add]
  show (s.ackPos.toNat + 1) % 2 ^ 4 = _
  omega

/-- The byte is counted, and a complete stage is done (R143). -/
theorem Receiving.afterCount {k : Kind} {t : State} (h : Receiving k { t with rxGot := t.rxGot + 1 }) :
    ∃ u, countByte k t = .ok u ∧ EngineInv u := by
  unfold countByte
  by_cases he : t.rxGot + 1 = t.rxNeed
  · dsimp only
    rw [if_pos he]
    exact h.stageDone he
  · dsimp only
    rw [if_neg he]
    refine ⟨_, rfl, h.engineInv ?_⟩
    have hle := h.got
    rw [word_eq_iff] at he
    exact Nat.lt_of_le_of_ne hle he

/-- The RX step keeps the invariant and does not fault (R143, R144). -/
theorem Receiving.rxStep {k : Kind} {s : State} (h : Receiving k s) (hg : s.rxGot.toNat < s.rxNeed.toNat) (b : Byte)
    (rest : List Byte) : ∃ t, Machine.rxStep k b rest s = .ok t ∧ EngineInv t := by
  unfold Machine.rxStep
  have hack : k ≠ .raw → Region.holds .ackBuf s.ackPos.toNat = true := fun hk => by
    have hlt := h.ackSoFar_lt hk hg
    have ha := h.ackPos
    rw [if_neg hk] at ha
    simp only [Region.holds, decide_eq_true_eq]
    omega
  cases k
  · have hs := hack (by decide)
    simp only [storeAckByte, storeByte, takeByte_ackPos, hs, if_true]
    refine Receiving.afterCount (h.count hg rest (s.rxh ++ [b]) ?_ h.need ((h.base.stores .ackBuf).write hs)
      (h.base.stores .rawRespHdr) (h.base.stores .rawRespPayload))
    rw [if_neg (by decide)]
    exact ackPos_succ h (by decide) hg
  · have hs := hack (by decide)
    simp only [storeAckByte, storeByte, takeByte_ackPos, hs, if_true]
    refine Receiving.afterCount (h.count hg rest (s.rxh ++ [b]) ?_ h.need ((h.base.stores .ackBuf).write hs)
      (h.base.stores .rawRespHdr) (h.base.stores .rawRespPayload))
    rw [if_neg (by decide)]
    exact ackPos_succ h (by decide) hg
  · have hpz : s.ackPos.toNat = if Kind.raw = Kind.raw then 0 else ackSoFar .raw s + 1 := h.ackPos
    have hph : s.phase = .awaitAck := by
      rcases awaiting_cases h.phase with e | e
      · exact e
      · exact absurd (h.finalAck e).1 (by decide)
    have hneed := h.need
    rw [hph] at hneed
    simp only [storeAckByte, takeByte_rxStage, takeByte_rxGot]
    generalize hz : s.rxStage.toNat = z at hneed
    rcases z with _ | _ | _ | z
    · have hr : s.rxNeed = 4 := by simpa [ackLen, eq_comm] using hneed
      have hs : Region.holds .rawRespHdr s.rxGot.toNat = true := by
        rw [hr] at hg
        simpa [Region.holds] using hg
      simp only [storeByte, hs, if_true]
      exact Receiving.afterCount (h.count hg rest (s.rxh ++ [b]) hpz h.need (h.base.stores .ackBuf)
        ((h.base.stores .rawRespHdr).write hs) (h.base.stores .rawRespPayload))
    · refine Receiving.afterCount (h.count hg rest (s.rxh ++ [b]) hpz ?_ (h.base.stores .ackBuf)
        (h.base.stores .rawRespHdr) (h.base.stores .rawRespPayload))
      rw [hph, hz]
      simpa [ackLen] using hneed
    · have hs : Region.holds .rawRespPayload s.rxGot.toNat = true := by
        have hn := s.rxNeed.isLt
        simp only [Region.holds, decide_eq_true_eq]
        omega
      simp only [storeByte, hs, if_true]
      exact Receiving.afterCount (h.count hg rest (s.rxh ++ [b]) hpz h.need (h.base.stores .ackBuf)
        (h.base.stores .rawRespHdr) ((h.base.stores .rawRespPayload).write hs))
    · simp [ackLen] at hneed

theorem EngineInv.rxEvent {s : State} (h : EngineInv s) (r : Bool) :
    ∃ t, Machine.rxEvent r s = .ok t ∧ EngineInv t := by
  unfold Machine.rxEvent
  split
  · exact ⟨_, rfl, h⟩
  · next b rest _ =>
    split
    · next hr =>
      simp only [rxReady, Bool.and_eq_true] at hr
      obtain ⟨k, hk, hg⟩ := h.receiving hr.2.1.1
      rw [hk.opkind]
      exact hk.rxStep hg b rest
    · exact ⟨_, rfl, h⟩

/-! ### The TX step -/

theorem TotalOk.le_payload {k : Kind} {w : Word} (h : TotalOk k w) (hk : k ≠ .raw) :
    w.toNat ≤ Config.payloadBytes := by
  have hp := payloadBytes_ge
  cases k
  · exact (show w.toNat = Config.imageBytes from h) ▸ hp
  · exact h.2
  · exact absurd rfl hk

/-- An address inside the chunk is inside the payload space (R60). -/
theorem payloadAddr_eq {k : Kind} {s : State} (hc : ChunkOk k s) {p : Nat} (hp : p < s.chunkLen.toNat) :
    payloadAddr s p = s.offset.toNat + p := by
  have hb := hc.bounds
  have ht := s.totalLen.isLt
  unfold payloadAddr
  rw [BitVec.toNat_add, BitVec.toNat_ofNat, Nat.mod_eq_of_lt (a := p) (by omega), Nat.mod_eq_of_lt (by omega)]

theorem loadByte_payload {k : Kind} {s : State} (hc : ChunkOk k s) (ht : TotalOk k s.totalLen) (hk : k ≠ .raw) {p : Nat}
    (hp : p < s.chunkLen.toNat) :
    loadByte .payload (payloadAddr s p) s = .ok (s.readByte .payload (s.offset.toNat + p)) := by
  have hb := hc.bounds
  have hle := ht.le_payload hk
  rw [payloadAddr_eq hc hp, loadByte, if_pos]
  exact (inPayload_iff _).2 (by omega)

/-- Inside the frame of a chunk, `frame_byte` has a value (R116). -/
theorem frameByte_eq {k : Kind} {s : State} (hc : ChunkOk k s) (ht : TotalOk k s.totalLen) {p : Nat}
    (hp : p < s.frameLen.toNat) : frameByte k p s = .ok (frameByteValue k s p) := by
  have hb := hc.bounds
  have hf := frameLenOf_toNat hb.2.1
  rw [hc.frameLen] at hp
  unfold frameByte
  rw [if_pos hp]
  rw [hf] at hp
  cases k
  · exact loadByte_payload hc ht (by decide) hp
  · have hp' : p < s.chunkLen.toNat + 8 := hp
    by_cases h8 : p < 8
    · have hl : p < (fwHeader s.chunkLen.toNat).length := h8
      simp only [frameByteValue, h8, if_true, List.getElem?_eq_getElem hl, List.getD_eq_getElem _ _ hl]
    · have hn : (fwHeader s.chunkLen.toNat)[p]? = none :=
        List.getElem?_eq_none (by rw [fwHeader_length]; omega)
      simp only [hn, frameByteValue, h8, if_false]
      exact loadByte_payload hc ht (by decide) (p := p - 8) (by omega)
  · simp only at hp
    simp only [rawByte, frameByteValue]
    split
    · rw [loadByte, if_pos]
      simpa [Region.holds] using hp
    · rfl

/-- A byte of the frame out, the frame not yet all out. -/
theorem EngineInv.emitByte {k : Kind} {s : State} (h : EngineInv s) (f : InFlight k s) (hs : s.phase = .sending)
    (b : Byte) (hp : (s.txPos + 1).toNat = s.txPos.toNat + 1) (hl : s.txPos.toNat + 1 < s.frameLen.toNat) :
    EngineInv (Machine.emitByte b s) where
  listed := {
    offset_le := h.listed.offset_le
    chunk := fun e => by
      have hc := h.listed.chunk (.inl hs)
      refine ⟨hc.1, hc.2.1, ?_⟩
      show (s.txPos + 1).toNat ≤ s.frameLen.toNat
      omega
    awaiting := fun e => by
      have e' : s.phase = .awaitAck ∨ s.phase = .awaitFinalAck := e
      rw [hs] at e'
      simp at e'
    finalAck := h.listed.finalAck
    progress := h.listed.progress }
  stores q := by cases q <;> first
    | exact h.stores .payload
    | exact h.stores .rawCmdBuf
    | exact h.stores .rawRespHdr
    | exact h.stores .ackBuf
    | exact h.stores .rawRespPayload
  ranges := ⟨h.ranges.chunkLen, h.ranges.frameLen, by
    show (s.txPos + 1).toNat ≤ s.frameLen.toNat
    omega, h.ranges.rxStage, h.ranges.rxGot, h.ranges.ackPos, h.ranges.rawK⟩
  outcome := ⟨h.outcome.cmdErr, h.outcome.abortPending, h.outcome.inFlight, h.outcome.complete, h.outcome.failed,
    h.outcome.never⟩
  inFlight _ := ⟨k, f.opkind, f.chan, f.total,
    fun hp => ⟨(f.chunk hp).more, (f.chunk hp).len, (f.chunk hp).last, (f.chunk hp).frameLen,
      (f.chunk hp).rawStart⟩, fun _ => by
      show (s.txPos + 1).toNat < s.frameLen.toNat
      omega, fun e => by
      have e' : s.phase.awaiting = true := e
      rw [hs] at e'
      exact absurd e' (by decide), f.finalAck⟩
  counts := {
    tx := fun q ho hb => by
      refine (count_succ (h.counts.tx q ho hb)).trans (congrArg _ ?_)
      simp only [sentSoFar, emitByte_phase, emitByte_offset, emitByte_chunkIdx, emitByte_txPos, hs, true_or, if_true, hp]
      omega
    rx := h.counts.rx
    done := h.counts.done
    total := h.counts.total
    index := h.counts.index }

/-- The last byte of a frame out: the ack sequence begins (R141). -/
theorem EngineInv.frameSent {k : Kind} {s : State} (h : EngineInv s) (f : InFlight k s) (hs : s.phase = .sending)
    (b : Byte) (hp : (s.txPos + 1).toNat = s.txPos.toNat + 1) (hl : s.txPos + 1 = s.frameLen) :
    ∃ t, Machine.frameSent k (Machine.emitByte b s) = .ok t ∧ EngineInv t := by
  obtain ⟨n, hn⟩ : ∃ n, ackLen k .awaitAck 0 s.rawRespLen = some n := by cases k <;> exact ⟨_, rfl⟩
  have hb : s.phase.busy = true := by rw [hs]; rfl
  have hc := f.chunk (.inl hs)
  refine ⟨_, beginSequence_eq (s := Machine.emitByte b s) hn, Receiving.engineInv (k := k) ?_ (ackLen_pos hn)⟩
  have hpos : (s.txPos + 1).toNat ≤ s.frameLen.toNat := by rw [hl]
  exact {
    base := ⟨h.listed.offset_le, fun q => by cases q <;> first
      | exact h.stores .payload
      | exact h.stores .rawCmdBuf
      | exact h.stores .rawRespHdr
      | exact h.stores .ackBuf
      | exact h.stores .rawRespPayload,
      ⟨h.ranges.chunkLen, h.ranges.frameLen, hpos, Nat.zero_le _, Nat.zero_le _, Nat.zero_le _,
        h.ranges.rawK⟩, h.outcome.cmdErr, h.counts.total⟩
    opkind := f.opkind
    chan := f.chan
    phase := rfl
    total := f.total
    chunk := fun _ => ⟨hc.more, hc.len, hc.last, hc.frameLen, hc.rawStart⟩
    need := hn
    got := Nat.zero_le _
    sent := hl
    ackPos := by cases k <;> rfl
    finalAck := fun e => by simp at e
    progress := fun hk => h.listed.progress k hk f.opkind (by rw [hs]; decide)
    index := fun hk => h.counts.index k hk f.opkind (by rw [hs]; decide)
    result := h.outcome.inFlight hb
    tx := by
      refine (count_succ (h.counts.tx k f.opkind (.inl hb))).trans (congrArg _ ?_)
      simp only [sentSoFar, emitByte_offset, emitByte_chunkIdx, emitByte_txPos, hs, true_or, or_true, if_true, hp]
      omega
    rx := by
      refine (h.counts.rx k f.opkind (.inl hb)).trans (congrArg _ ?_)
      simp only [receivedSoFar, hs]
      cases k <;> rfl }

/-- The TX step keeps the invariant and does not fault (R140). -/
theorem EngineInv.txStep {k : Kind} {s : State} (h : EngineInv s) (f : InFlight k s) (hs : s.phase = .sending) :
    ∃ t, Machine.txStep k s = .ok t ∧ EngineInv t := by
  have hlt := f.sending hs
  have h8 := h.ranges.frameLen
  have hp : (s.txPos + 1).toNat = s.txPos.toNat + 1 := by
    rw [BitVec.toNat_add]
    show (s.txPos.toNat + 1) % 2 ^ 14 = _
    omega
  unfold Machine.txStep
  rw [frameByte_eq (f.chunk (.inl hs)) f.total hlt]
  dsimp only
  split
  · next he => exact h.frameSent f hs _ hp he
  · next he =>
    refine ⟨_, rfl, h.emitByte f hs _ hp ?_⟩
    have he' : s.txPos + 1 ≠ s.frameLen := he
    rw [Ne, word_eq_iff] at he'
    omega

theorem EngineInv.txEvent {s : State} (h : EngineInv s) (r : Bool) :
    ∃ t, Machine.txEvent r s = .ok t ∧ EngineInv t := by
  unfold Machine.txEvent
  split
  · next hr =>
    simp only [txValid, Bool.and_eq_true, decide_eq_true_eq] at hr
    obtain ⟨k, f⟩ := h.inFlight (by rw [hr.2.1]; rfl)
    rw [f.opkind]
    exact h.txStep f hr.2.1
  · exact ⟨_, rfl, h⟩

/-- The engine's events of a cycle keep the invariant and do not fault. -/
theorem EngineInv.engineEvents {s : State} (h : EngineInv s) (i : CycleInput) :
    ∃ t, Machine.engineEvents i s = .ok t ∧ EngineInv t := by
  obtain ⟨a, ha, ia⟩ := (h.linkEvent.txErrEvent i.txErr).rxEvent (rxReady s)
  obtain ⟨b, hb, ib⟩ := ia.txEvent (txValid s && i.txReady && !i.txErr)
  refine ⟨_, ?_, ib.tickEvent i.tick⟩
  unfold Machine.engineEvents
  rw [ha]
  dsimp only
  rw [hb]

/-! ### The commands -/

/-- A transfer that starts, channel open or not (R188, R217). -/
theorem EngineInv.startTransfer {s : State} (h : EngineInv s) {k : Kind} {w : Word}
    (hw : TotalOk k w ∨ (k = .firmware ∧ w.toNat = 0)) {rk : BitVec 7} (hrk : rk.toNat ≤ 68) (rl : BitVec 8) :
    EngineInv (Machine.startTransfer k w { s with rawK := rk, rawRespLen := rl }) := by
  have hbase : Base (freshTransfer k w { s with rawK := rk, rawRespLen := rl }) :=
    ⟨Nat.zero_le _, fun q => by cases q <;> first
      | exact h.stores .payload
      | exact h.stores .rawCmdBuf
      | exact h.stores .rawRespHdr
      | exact h.stores .ackBuf
      | exact h.stores .rawRespPayload,
      ⟨Nat.zero_le _, Nat.zero_le _, Nat.zero_le _, Nat.zero_le _, Nat.zero_le _, Nat.zero_le _, hrk⟩,
      h.outcome.cmdErr, fun q hq ho => by
        have e : k = q := Option.some.inj ho
        subst e
        exact hw.resolve_right fun e => hq e.1⟩
  unfold Machine.startTransfer
  dsimp only
  split
  · exact hbase.fail (.inl rfl) s.chan
  · next hc =>
    have ho : s.chan = .opened := by simpa using hc
    have hbd : Boundary k (freshTransfer k w { s with rawK := rk, rawRespLen := rl }) 0 := {
      base := hbase
      opkind := rfl
      chan := ho
      total := hw
      progress := fun _ => rfl
      index := fun _ => Nat.zero_le _
      result := rfl
      tx := by cases k <;> rfl
      rx := rfl }
    split
    · next hz =>
      have hf : k = .firmware := by
        rcases hw with hw | hw
        · exfalso
          subst hz
          cases k
          · exact absurd (show (0 : Nat) = Config.imageBytes from hw) (by decide)
          · exact absurd hw.1 (by decide)
          · exact absurd (show (0 : Nat) = Config.rawCmdBytes from hw) (by decide)
        · exact hw.1
      subst hf
      exact hbd.finish (.inl ⟨rfl, hz.symm⟩) rfl
    · next hz =>
      refine hbd.setupChunk (by cases k <;> rfl) ?_ fun _ => rfl
      rw [word_eq_iff] at hz
      exact Nat.pos_of_ne_zero hz

/-- A command's outcome keeps the invariant when its body does (R180). -/
theorem EngineInv.runCommand {s : State} (h : EngineInv s) (c : Cause) {body : State → State}
    (hb : c = .none → EngineInv (body (Machine.accept s))) :
    ∃ t, Machine.runCommand c body s = .next t ∧ EngineInv t := by
  cases c
  · exact ⟨_, rfl, hb rfl⟩
  all_goals exact ⟨_, rfl, h.reject (by decide)⟩

/-- Every command ends in a next state that keeps the invariant. -/
theorem EngineInv.exec {s : State} (h : EngineInv s) (i : Instr) :
    ∃ t, Machine.exec i s = .next t ∧ EngineInv t := by
  cases i with
  | nop => exact h.runCommand .none fun _ => h.accept
  | sendImage => exact h.runCommand _ fun _ =>
      h.accept.startTransfer (k := .image) (w := BitVec.ofNat 32 Config.imageBytes) (.inl rfl) h.ranges.rawK _
  | updateFw =>
    refine h.runCommand _ fun hc => h.accept.startTransfer ?_ h.ranges.rawK _
    have hx : exceedsPayload s.fwLen.toNat = false := by
      unfold updateFwCause at hc
      by_contra hx
      rw [Bool.not_eq_false] at hx
      split at hc
      · simp at hc
      · next hn => exact hn ⟨hc, hx⟩
    rw [exceedsPayload_false_iff] at hx
    rcases Nat.eq_zero_or_pos s.fwLen.toNat with hz | hz
    · exact .inr ⟨rfl, hz⟩
    · exact .inl ⟨hz, hx⟩
  | rawCmd k =>
    refine h.runCommand _ fun hc =>
      h.accept.startTransfer (k := .raw) (w := BitVec.ofNat 32 Config.rawCmdBytes) (.inl rfl) ?_ _
    unfold rawCmdCause at hc
    split at hc
    · next hk =>
      simp only [rawCountOk, Config.rawCmdBytes, decide_eq_true_eq] at hk
      rw [BitVec.toNat_setWidth]
      omega
    · simp at hc
  | abort => exact h.runCommand .none fun _ => h.accept.requestAbort
  | quit => exact h.runCommand _ fun _ => h.accept.leaveSession

end Sys2Proof.Safety
end

