-- ==== Sys2Proof/Laws/HostBus.lean ====
section
/-! SUPPORT. What the host's events of a cycle can do: the targets of R51 and R63, the cases of a host access and of a
payload-port write, and that they keep the engine's invariant and never fault. -/

namespace Sys2Proof.Machine

/-! ### Targets -/

/-- A buffer found for an access holds every byte of it. -/
theorem bufferAt?_holds {a n i : Nat} {r : Region} (h : bufferAt? a n = some (r, i)) {j : Nat} (hj : j < n) :
    Region.holds r (i + j) = true := by
  unfold bufferAt? at h
  rw [Option.map_eq_some_iff] at h
  obtain ⟨x, hx, he⟩ := h
  have hm := List.mem_of_find?_eq_some hx
  have hp := List.find?_some hx
  simp only [Bool.and_eq_true, decide_eq_true_eq] at hp
  cases he
  simp only [hostBuffers, List.mem_cons, List.not_mem_nil, or_false] at hm
  rcases hm with rfl | rfl | rfl | rfl <;> simp only [Region.holds, decide_eq_true_eq, Config.rawCmdBytes] at hp ⊢ <;> omega

/-- The bytes of a target lie in its buffer. -/
def Target.Inside : Target → Prop
  | .reg _ => True
  | .byte r i => Region.holds r i = true
  | .word r i => ∀ j < 4, Region.holds r (i + j) = true

theorem target?_inside {size : Size} {a : BitVec 12} {t : Target} (h : target? size a = some t) : t.Inside := by
  unfold target? at h
  split at h
  · rw [Option.map_eq_some_iff] at h
    obtain ⟨⟨r, i⟩, hx, rfl⟩ := h
    exact bufferAt?_holds hx (j := 0) (by decide)
  · split at h
    · split at h
      · cases h
        trivial
      · rw [Option.map_eq_some_iff] at h
        obtain ⟨⟨r, i⟩, hx, rfl⟩ := h
        exact fun j hj => bufferAt?_holds hx hj
    · cases h

/-! ### A host access -/

/-- What a host write can do (R190): run or reject a command, store in a configuration register or in RAW_CMD_BUF, or
nothing. -/
theorem hostWrite_cases {t : Target} {w : Word} {s : State} :
    t = .reg .cmd ∧ hostWrite t w s = dispatch w s ∨
    t = .reg .fwLen ∧ hostWrite t w s = .next { s with fwLen := w } ∨
    t = .reg .rxTimeout ∧ hostWrite t w s = .next { s with rxTimeout := w } ∨
    (∃ i, t = .byte .rawCmdBuf i ∧ hostWrite t w s = .next (s.writeByte .rawCmdBuf i (lane w 0))) ∨
    (∃ i, t = .word .rawCmdBuf i ∧ hostWrite t w s = .next (writeWord .rawCmdBuf i w s)) ∨
    hostWrite t w s = .next s := by
  cases t with
  | reg r => cases r <;> simp [hostWrite]
  | byte r i => cases r <;> simp [hostWrite]
  | word r i => cases r <;> simp [hostWrite]

/-- Dispatch runs the decoded command or rejects (R180, R187). -/
theorem dispatch_cases (w : Word) (s : State) :
    (∃ i, decode w = .ok i ∧ dispatch w s = exec i s) ∨
      (∃ e, decode w = .error e) ∧ dispatch w s = .next (reject .illegal s) := by
  unfold dispatch
  split
  · next i h => exact .inl ⟨i, h, rfl⟩
  · next e h => exact .inr ⟨⟨e, h⟩, rfl⟩

/-- A host access that is admitted is a read that answers, or a write. -/
theorem hostEvent_cases {a : Option HostAccess} {s t : State} (h : hostEvent a s = .next t) :
    a = none ∧ t = s ∨
    (∃ size addr tg, a = some (.read size addr) ∧ target? size addr = some tg ∧
      t = { s with busResp := some ⟨false, some (targetRead tg s)⟩ }) ∨
    (∃ size addr w tg, a = some (.write size addr w) ∧ target? size addr = some tg ∧
      (tg.inRawCmdBuf && rawBufLocked s) = false ∧
      hostWrite tg w { s with busResp := some ⟨false, none⟩ } = .next t) := by
  unfold hostEvent at h
  split at h
  · cases h
    exact .inl ⟨rfl, rfl⟩
  · next acc =>
    split at h
    · cases h
    · next hr =>
      cases acc with
      | read size addr =>
        cases htg : target? size addr with
        | none => simp [accessRefusal?, HostAccess.target?, htg] at hr
        | some tg =>
          simp only [busAccess, HostAccess.target?, htg] at h
          cases h
          exact .inr (.inl ⟨size, addr, tg, rfl, htg, rfl⟩)
      | write size addr w =>
        cases htg : target? size addr with
        | none => simp [accessRefusal?, HostAccess.target?, htg] at hr
        | some tg =>
          simp only [accessRefusal?, HostAccess.target?, htg] at hr
          simp only [busAccess, HostAccess.target?, htg] at h
          refine .inr (.inr ⟨size, addr, w, tg, rfl, htg, ?_, h⟩)
          by_contra hl
          rw [Bool.not_eq_false] at hl
          rw [if_pos hl] at hr
          cases hr

theorem payloadEvent_cases {w : Option PayloadWrite} {s t : State} (h : payloadEvent w s = .next t) :
    w = none ∧ t = s ∨
      ∃ p, w = some p ∧ payloadLocked p.addr s = false ∧ t = payloadPort p s := by
  unfold payloadEvent at h
  split at h
  · cases h
    exact .inl ⟨rfl, rfl⟩
  · next p =>
    split at h
    · cases h
    · next hl =>
      cases h
      exact .inr ⟨p, rfl, by simpa using hl, rfl⟩

theorem hostEvents_cases {i : CycleInput} {s t : State} (h : hostEvents i s = .next t) :
    ∃ u, hostEvent i.host s = .next u ∧ payloadEvent i.payloadWrite u = .next t := by
  unfold hostEvents at h
  split at h
  · next u hu => exact ⟨u, hu, h⟩
  · cases h
  · cases h

/-- What no host access and no payload-port write changes: the link, the queue and the wire; CHAN can only start closing. -/
structure HostFrame (s t : State) : Prop where
  chan : t.chan = s.chan ∨ s.chan = .opened ∧ t.chan = .closing
  linkUp : t.linkUp = s.linkUp
  rxq : t.rxq = s.rxq
  txh : t.txh = s.txh
  rxh : t.rxh = s.rxh
  inputs : t.inputs = s.inputs
  resets : t.resets = s.resets

theorem HostFrame.refl (s : State) : HostFrame s s := ⟨.inl rfl, rfl, rfl, rfl, rfl, rfl, rfl⟩

theorem HostFrame.trans {s t u : State} (h : HostFrame s t) (g : HostFrame t u) : HostFrame s u :=
  ⟨by
    rcases h.chan with e | ⟨e, e'⟩
    · rw [← e]
      exact g.chan
    · refine .inr ⟨e, ?_⟩
      rcases g.chan with f | ⟨_, f⟩
      · exact f.trans e'
      · exact f, g.linkUp.trans h.linkUp, g.rxq.trans h.rxq, g.txh.trans h.txh, g.rxh.trans h.rxh,
    g.inputs.trans h.inputs, g.resets.trans h.resets⟩

theorem hostFrame_busResp (s : State) (r : Option BusResponse) : HostFrame s { s with busResp := r } :=
  ⟨.inl rfl, rfl, rfl, rfl, rfl, rfl, rfl⟩

theorem hostFrame_writeByte (s : State) (r : Region) (a : Nat) (b : Byte) : HostFrame s (s.writeByte r a b) :=
  ⟨.inl (writeByte_chan s r a b), writeByte_linkUp s r a b, writeByte_rxq s r a b, writeByte_txh s r a b,
    writeByte_rxh s r a b, writeByte_inputs s r a b, writeByte_resets s r a b⟩

theorem hostFrame_dispatch {w : Word} {s t : State} (h : dispatch w s = .next t) : HostFrame s t := by
  rcases dispatch_cases w s with ⟨i, _, e⟩ | ⟨_, e⟩ <;> rw [e] at h
  · have g := commandFrame_exec h
    exact ⟨g.chan, g.linkUp, g.rxq, g.txh, g.rxh, g.inputs, g.resets⟩
  · cases h
    exact ⟨.inl rfl, rfl, rfl, rfl, rfl, rfl, rfl⟩

theorem hostFrame_hostWrite {tg : Target} {w : Word} {s t : State} (h : hostWrite tg w s = .next t) : HostFrame s t := by
  rcases hostWrite_cases (t := tg) (w := w) (s := s) with
    ⟨_, e⟩ | ⟨_, e⟩ | ⟨_, e⟩ | ⟨i, _, e⟩ | ⟨i, _, e⟩ | e <;> rw [e] at h
  · exact hostFrame_dispatch h
  · cases h
    exact ⟨.inl rfl, rfl, rfl, rfl, rfl, rfl, rfl⟩
  · cases h
    exact ⟨.inl rfl, rfl, rfl, rfl, rfl, rfl, rfl⟩
  · rw [← Host.Outcome.next.inj h]
    exact hostFrame_writeByte _ _ _ _
  · rw [← Host.Outcome.next.inj h]
    exact (((hostFrame_writeByte _ _ _ _).trans (hostFrame_writeByte _ _ _ _)).trans
      (hostFrame_writeByte _ _ _ _)).trans (hostFrame_writeByte _ _ _ _)
  · cases h
    exact .refl _

/-- The frame of the host's events of a cycle. -/
theorem hostFrame_hostEvents {i : CycleInput} {s t : State} (h : hostEvents i s = .next t) : HostFrame s t := by
  obtain ⟨u, hu, hp⟩ := hostEvents_cases h
  have h2 : HostFrame u t := by
    rcases payloadEvent_cases hp with ⟨_, rfl⟩ | ⟨p, _, _, rfl⟩
    · exact .refl _
    · unfold payloadPort
      split
      · exact hostFrame_writeByte _ _ _ _
      · exact .refl _
  refine HostFrame.trans ?_ h2
  rcases hostEvent_cases hu with ⟨_, rfl⟩ | ⟨_, _, _, _, _, rfl⟩ | ⟨_, _, w, tg, _, _, _, hw⟩
  · exact .refl _
  · exact hostFrame_busResp _ _
  · exact (hostFrame_busResp s _).trans (hostFrame_hostWrite hw)

/-- What a cycle can do when it does not reset (R220). -/
theorem step_cases {s t : State} (h : step s = .next t) :
    (nextInput s).rst = true ∧ t = resetEvent (environmentEvent (nextInput s) (consumeInput s)) ∨
    (nextInput s).rst = false ∧
      ∃ u, engineEvents (nextInput s) (environmentEvent (nextInput s) (consumeInput s)) = .ok u ∧
        hostEvents (nextInput s) u = .next t := by
  unfold step cycle at h
  dsimp only at h
  split at h
  · next hr =>
    cases h
    exact .inl ⟨hr, rfl⟩
  · next hr =>
    split at h
    · cases h
    · next u hu => exact .inr ⟨by simpa using hr, u, hu, h⟩

end Sys2Proof.Machine

namespace Sys2Proof.Safety

open Sys2Proof.Machine

/-! ### The host's events and the engine's invariant -/

theorem EngineInv.writeWord {s : State} (h : EngineInv s) {r : Region} {i : Nat} (w : Word)
    (hi : ∀ j < 4, Region.holds r (i + j) = true) : EngineInv (Machine.writeWord r i w s) :=
  (((h.writeByte _ (hi 0 (by decide))).writeByte _ (hi 1 (by decide))).writeByte _ (hi 2 (by decide))).writeByte _
    (hi 3 (by decide))

theorem EngineInv.dispatch {s : State} (h : EngineInv s) (w : Word) :
    ∃ t, Machine.dispatch w s = .next t ∧ EngineInv t := by
  rcases dispatch_cases w s with ⟨i, _, e⟩ | ⟨_, e⟩ <;> rw [e]
  · exact h.exec i
  · exact ⟨_, rfl, h.reject (by decide)⟩

theorem EngineInv.hostWrite {s : State} (h : EngineInv s) {size : Size} {a : BitVec 12} {tg : Target} (w : Word)
    (ht : target? size a = some tg) : ∃ t, Machine.hostWrite tg w s = .next t ∧ EngineInv t := by
  have hin := target?_inside ht
  rcases hostWrite_cases (t := tg) (w := w) (s := s) with ⟨_, e⟩ | ⟨_, e⟩ | ⟨_, e⟩ | ⟨i, rfl, e⟩ | ⟨i, rfl, e⟩ | e <;> rw [e]
  · exact h.dispatch w
  · exact ⟨_, rfl, h.frame _ s.rxTimeout s.rxTimer s.linkUp s.rxq s.txh s.rxh s.inputs s.busResp s.busErrors
      h.outcome.cmdErr h.outcome.abortPending⟩
  · exact ⟨_, rfl, h.frame s.fwLen _ s.rxTimer s.linkUp s.rxq s.txh s.rxh s.inputs s.busResp s.busErrors
      h.outcome.cmdErr h.outcome.abortPending⟩
  · exact ⟨_, rfl, h.writeByte _ hin⟩
  · exact ⟨_, rfl, h.writeWord w hin⟩
  · exact ⟨_, rfl, h⟩

theorem EngineInv.hostEvent {s t : State} (h : EngineInv s) {a : Option HostAccess}
    (ht : Machine.hostEvent a s = .next t) : EngineInv t := by
  rcases hostEvent_cases ht with ⟨_, rfl⟩ | ⟨_, _, _, _, _, rfl⟩ | ⟨_, _, w, tg, _, htg, _, hw⟩
  · exact h
  · exact h.busResp _
  · obtain ⟨u, hu, hi⟩ := (h.busResp (some ⟨false, none⟩)).hostWrite w htg
    rw [hu] at hw
    cases hw
    exact hi

theorem EngineInv.payloadPort {s : State} (h : EngineInv s) (p : PayloadWrite) : EngineInv (Machine.payloadPort p s) := by
  unfold Machine.payloadPort
  split
  · next hp => exact h.writeByte _ hp
  · exact h

theorem EngineInv.payloadEvent {s t : State} (h : EngineInv s) {p : Option PayloadWrite}
    (ht : Machine.payloadEvent p s = .next t) : EngineInv t := by
  rcases payloadEvent_cases ht with ⟨_, rfl⟩ | ⟨p, _, _, rfl⟩
  · exact h
  · exact h.payloadPort p

theorem EngineInv.hostEvents {s t : State} (h : EngineInv s) {i : CycleInput} (ht : Machine.hostEvents i s = .next t) :
    EngineInv t := by
  obtain ⟨u, hu, hp⟩ := hostEvents_cases ht
  exact (h.hostEvent hu).payloadEvent hp

/-- Reset leaves the engine's invariant. -/
theorem engineInv_resetEvent (s : State) : EngineInv (resetEvent s) where
  listed := ⟨Nat.zero_le _, fun h => by cases h <;> contradiction, fun h => by cases h <;> contradiction,
    fun h => by contradiction, fun _ _ h => by contradiction⟩
  stores r := by cases r <;> exact .nil _
  ranges := ⟨Nat.zero_le _, Nat.zero_le _, Nat.zero_le _, Nat.zero_le _, Nat.zero_le _, Nat.zero_le _, Nat.zero_le _⟩
  outcome := ⟨iff_of_true rfl rfl, fun h => by contradiction, fun h => by contradiction, fun h => by contradiction,
    fun h => by contradiction, fun h => by contradiction⟩
  inFlight h := by contradiction
  counts := ⟨fun _ h => by contradiction, fun _ h => by contradiction, fun h => by contradiction,
    fun _ _ h => by contradiction, fun _ _ h => by contradiction⟩

end Sys2Proof.Safety
end

