-- ==== Sys2Proof/Laws/Cycle.lean ====
section
/-! SUPPORT. A cycle without reset and without a host access, event by event. -/

namespace Sys2Proof.Safety

open Sys2Proof.Machine

/-- A cycle in which the host does nothing is the engine's events (R220). -/
theorem step_of_engineEvents {s t : State} (hr : (nextInput s).rst = false) (hh : (nextInput s).host = none)
    (hp : (nextInput s).payloadWrite = none) (h : engineEvents (nextInput s) (started s) = .ok t) :
    step s = .next t := by
  unfold started at h
  unfold step cycle
  simp only [hr, h, hostEvents, hh, hostEvent, hp, payloadEvent]
  rfl

/-- The engine's events of a cycle, from the outcome of each (R220). -/
theorem engineEvents_eq {i : CycleInput} {s a b : State}
    (ha : rxEvent (rxReady s) (txErrEvent i.txErr (linkEvent s)) = .ok a)
    (hb : txEvent (txValid s && i.txReady && !i.txErr) a = .ok b) : engineEvents i s = .ok (tickEvent i.tick b) := by
  unfold engineEvents
  rw [ha]
  dsimp only
  rw [hb]

/-- With the link up and the channel open the link event does nothing. -/
theorem linkEvent_of_opened {s : State} (hl : s.linkUp = true) (hc : s.chan = .opened) : linkEvent s = s := by
  unfold linkEvent linkOpen
  rw [if_pos hl, if_neg (by rw [hc]; simp)]

/-- A cycle with the link up and no bytes arriving starts from the state itself. -/
theorem started_of_quiet {s : State} (hl : (nextInput s).linkUp = true) (ha : (nextInput s).arriving = []) :
    started s = unchanged s := by
  unfold started environmentEvent unchanged
  simp only [hl, ha, if_true, List.append_nil]

theorem rxEvent_not_awaiting {s : State} (r : Bool) (h : s.phase.awaiting = false) : rxEvent r s = .ok s := by
  unfold rxEvent rxReady
  rw [h]
  split <;> simp

theorem rxEvent_empty {s : State} (r : Bool) (h : s.rxq = []) : rxEvent r s = .ok s := by
  unfold rxEvent
  rw [h]

theorem txEvent_not_sending {s : State} (r : Bool) (h : s.phase ≠ .sending) : txEvent r s = .ok s := by
  unfold txEvent txValid
  simp [h]

theorem txEvent_no_handshake {s : State} : txEvent false s = .ok s := rfl

theorem rxEvent_not_ready {s : State} : rxEvent false s = .ok s := by
  unfold rxEvent
  split <;> rfl

/-- A cycle of a ready transport in SENDING is the TX step (R140). -/
theorem step_txStep {s t : State} {k : Kind} (hs : s.phase = .sending) (ho : s.opkind = some k) (hc : s.chan = .opened)
    (hi : nextInput s = { quietInput true with txReady := true }) (h : txStep k (unchanged s) = .ok t) :
    step s = .next t := by
  refine step_of_engineEvents (by rw [hi]; rfl) (by rw [hi]; rfl) (by rw [hi]; rfl) ?_
  rw [started_of_quiet (by rw [hi]; rfl) (by rw [hi]; rfl), hi]
  have ha : rxEvent (rxReady (unchanged s)) (txErrEvent false (linkEvent (unchanged s))) = .ok (unchanged s) := by
    rw [linkEvent_of_opened (s := unchanged s) rfl hc]
    exact rxEvent_not_awaiting _ (by show s.phase.awaiting = false; rw [hs]; rfl)
  have hv : txValid (unchanged s) = true := by
    unfold txValid
    rw [show (unchanged s).phase = .sending from hs, show (unchanged s).chan = .opened from hc]
    rfl
  refine engineEvents_eq ha (b := t) ?_
  unfold txEvent
  rw [hv, show (unchanged s).opkind = some k from ho]
  exact h

/-- A cycle with a byte of RXQ at hand in an awaiting phase is the RX step (R143). -/
theorem step_rxStep {s t : State} {k : Kind} {b : Byte} {q : List Byte} (hp : s.phase.awaiting = true)
    (ho : s.opkind = some k) (hc : s.chan = .opened) (hg : s.rxGot.toNat < s.rxNeed.toNat) (hq : s.rxq = b :: q)
    (hi : nextInput s = quietInput true) (h : rxStep k b q (unchanged s) = .ok t) : step s = .next t := by
  refine step_of_engineEvents (by rw [hi]; rfl) (by rw [hi]; rfl) (by rw [hi]; rfl) ?_
  rw [started_of_quiet (by rw [hi]; rfl) (by rw [hi]; rfl), hi]
  have hr : rxReady (unchanged s) = true := by
    unfold rxReady
    rw [show (unchanged s).phase = s.phase from rfl, hp, show (unchanged s).chan = .opened from hc,
      show (unchanged s).rxGot = s.rxGot from rfl, show (unchanged s).rxNeed = s.rxNeed from rfl, decide_eq_true hg]
    rfl
  have ha : rxEvent (rxReady (unchanged s)) (txErrEvent false (linkEvent (unchanged s))) = .ok t := by
    rw [linkEvent_of_opened (s := unchanged s) rfl hc]
    unfold rxEvent
    rw [show (txErrEvent false (unchanged s)).rxq = b :: q from hq]
    dsimp only
    rw [show txErrEvent false (unchanged s) = unchanged s from rfl, hr, show (unchanged s).opkind = some k from ho]
    exact h
  have hb : txEvent (txValid (unchanged s) && (quietInput true).txReady && !(quietInput true).txErr) t = .ok t := by
    rw [show (quietInput true).txReady = false from rfl, Bool.and_false, Bool.false_and]
    rfl
  exact engineEvents_eq ha hb

/-- A run of one step more, on any machine. -/
theorem run_succ {M : Host.Core} {s t : M.State} (h : M.step s = .next t) (m : Nat) : M.run (m + 1) s = M.run m t := by
  simp only [Host.Core.run, h]

/-- A run of one step more. -/
theorem run_of_step {s t : State} (h : step s = .next t) (m : Nat) :
    Host.Core.run core (m + 1) s = Host.Core.run core m t :=
  run_succ (M := core) h m

end Sys2Proof.Safety
end

