-- ==== Sys2Proof/Laws/Decode.lean ====
section
/-! SUPPORT. What the decoder answers, said once by the fields of a word (R81, R82). -/

namespace Sys2Proof

theorem plainCommand_ok_iff {a : BitVec 8} {i j : Instr} : plainCommand a i = .ok j ↔ a = 0#8 ∧ i = j := by
  unfold plainCommand
  split <;> simp_all

/-- The case split of the decoder on a word whose reserved bits are 0, over the sixteen values of OP. -/
theorem decodeFields_ok_iff (a : BitVec 8) (i : Instr) (n : Fin 16) :
    (match (n : Nat) with
      | 0 => plainCommand a .nop
      | 1 => plainCommand a .sendImage
      | 2 => plainCommand a .updateFw
      | 3 => if rawCountOk a then .ok (.rawCmd a) else .error .rawCountTooLarge
      | 4 => plainCommand a .abort
      | 5 => plainCommand a .quit
      | _ => .error IllegalWord.opReserved) = .ok i ↔
    (n : Nat) = (opOf i).toNat ∧ a = argOf i ∧ wellFormed i = true := by
  fin_cases n <;> simp only [plainCommand_ok_iff] <;> cases i <;> simp [opOf, argOf, wellFormed]
  all_goals
    by_cases h : rawCountOk a = true
    · simp [h] <;> exact fun e => e ▸ h
    · simp [h] <;> exact fun e => by rw [← e]; simpa using h

/-- A word decodes to a command exactly when its fields are the command's and the command is well formed. -/
theorem decode_ok_iff (w : Word) (i : Instr) :
    decode w = .ok i ↔ reservedLow w = 0#4 ∧ reservedHigh w = 0#16 ∧ opField w = opOf i ∧ argField w = argOf i ∧
      wellFormed i = true := by
  unfold decode
  by_cases h : reservedLow w ≠ 0#4 ∨ reservedHigh w ≠ 0#16
  · rw [if_pos h]
    constructor
    · intro e
      cases e
    · rintro ⟨h1, h2, _⟩
      exact absurd h (by simp [h1, h2])
  · rw [if_neg h]
    simp only [not_or, not_not] at h
    have hn := decodeFields_ok_iff (argField w) i ⟨(opField w).toNat, (opField w).isLt⟩
    refine hn.trans ⟨fun e => ⟨h.1, h.2, BitVec.eq_of_toNat_eq e.1, e.2⟩, fun e => ⟨congrArg BitVec.toNat e.2.2.1, e.2.2.2⟩⟩

end Sys2Proof
end

