-- ==== Sys2Proof/Laws/PerInstr.lean ====
section
/-! SUPPORT. The encoding of each command: the fields of its word are those of R81 and R82, and the word selects its row. -/

namespace Sys2Proof.Laws.Encoding

open Sys2Proof

/-- The word of a command has the command's OP and ARG, its reserved bits are 0, and, the ARG of RAW_CMD apart, it is the
row's value under the row's mask (R81, R82). -/
def Statement (i : Instr) : Prop :=
  opField (encode i) = opOf i ∧ reservedLow (encode i) = 0#4 ∧ argField (encode i) = argOf i ∧
    reservedHigh (encode i) = 0#16 ∧ (rowOf i).selects (encode i) = true

theorem nop : Statement .nop := by
  refine ⟨?_, ?_, ?_, ?_, ?_⟩ <;> decide

theorem sendImage : Statement .sendImage := by
  refine ⟨?_, ?_, ?_, ?_, ?_⟩ <;> decide

theorem updateFw : Statement .updateFw := by
  refine ⟨?_, ?_, ?_, ?_, ?_⟩ <;> decide

theorem rawCmd (k : BitVec 8) : Statement (.rawCmd k) := by
  refine ⟨?_, ?_, ?_, ?_, ?_⟩ <;> revert k <;> decide

theorem abort : Statement .abort := by
  refine ⟨?_, ?_, ?_, ?_, ?_⟩ <;> decide

theorem quit : Statement .quit := by
  refine ⟨?_, ?_, ?_, ?_, ?_⟩ <;> decide

end Sys2Proof.Laws.Encoding
end

