-- ==== Sys2Proof/Laws/Run.lean ====
section
/-! SUPPORT. What the end of a run is (R252). -/

namespace Sys2Proof.Machine

/-- An accepted command: the cycle answers `t`, and CMD_ERR is 0 in it. -/
theorem accepted?_eq_some {s t : State} {i : Instr} (h : accepted? s = some (i, t)) :
    commandOf? s = some i ∧ step s = .next t ∧ t.cmdErr = false := by
  unfold accepted? at h
  split at h
  · next hc hs =>
    split at h
    · cases h
    · next he =>
      cases h
      exact ⟨hc, hs, Bool.eq_false_iff.2 he⟩
  · cases h

/-- A run of one operation ends in COMPLETE or FAILED. -/
theorem runEnded_of_operationEndWithin {n : Nat} {s u : State} (h : operationEndWithin n s = some u) :
    runEnded u = true := by
  induction n generalizing s with
  | zero =>
    unfold operationEndWithin at h
    split at h
    · next he =>
      cases h
      exact he
    · cases h
  | succ n ih =>
    unfold operationEndWithin at h
    split at h
    · next he =>
      cases h
      exact he
    · split at h
      · next e _ _ =>
        cases e
        split at h
        · next he =>
          cases h
          exact he
        · split at h
          · exact ih h
          · cases h
      · cases h

/-- A run of one operation begins with an accepted transfer command. -/
theorem operationEnd_eq_some {n : Nat} {s u : State} (h : operationEnd n s = some u) :
    ∃ i t, accepted? s = some (i, t) ∧ startsTransfer i = true ∧ operationEndWithin n t = some u := by
  unfold operationEnd at h
  split at h
  · next i t ha =>
    split at h
    · next hi => exact ⟨i, t, ha, hi, h⟩
    · cases h
  · cases h

/-- The wait for CHAN = CLOSED ends there. -/
theorem chan_of_closedWithin {n : Nat} {s u : State} (h : closedWithin n s = some u) : u.chan = .closed := by
  induction n generalizing s with
  | zero =>
    unfold closedWithin at h
    split at h
    · next hc =>
      cases h
      exact hc
    · cases h
  | succ n ih =>
    unfold closedWithin at h
    split at h
    · next hc =>
      cases h
      exact hc
    · split at h
      · next e _ =>
        cases e
        exact ih h
      · cases h

/-- A run of a session ends after an accepted QUIT, with CHAN = CLOSED. -/
theorem sessionEnd_eq_some {n : Nat} {s u : State} (h : sessionEnd n s = some u) :
    (∃ t, accepted? s = some (.quit, t) ∧ closedWithin n t = some u) ∧ u.chan = .closed := by
  unfold sessionEnd at h
  split at h
  · next t ha => exact ⟨⟨t, ha, h⟩, chan_of_closedWithin h⟩
  · cases h

end Sys2Proof.Machine
end

