-- ==== Sys2Proof/Tests/Slice0.lean ====
section
/-! SUPPORT. Small tests against the vectors of 95_test_vectors.md (V1 to V12, P1 to P7), the smoke test of WellFormed, and
for every obligation with hypotheses a concrete state and operands that meet them. -/

namespace Sys2Proof.Tests

open Sys2Proof Sys2Proof.Machine Sys2Proof.Safety

/-! ### WellFormed and Decode (V6) -/

theorem test_wellFormed_refuses_69 : wellFormed (.rawCmd 69#8) = false := by decide
theorem test_wellFormed_refuses_255 : wellFormed (.rawCmd 255#8) = false := by decide
theorem test_wellFormed_takes_0_and_68 : wellFormed (.rawCmd 0#8) = true ∧ wellFormed (.rawCmd 68#8) = true := by decide

/-- The words written bit by bit from R81: bits [31:16], ARG, bits [7:4], OP. -/
theorem test_decode_nop : decode 0b0000000000000000_00000000_0000_0000#32 = .ok .nop := rfl
theorem test_decode_sendImage : decode 0b0000000000000000_00000000_0000_0001#32 = .ok .sendImage := rfl
theorem test_decode_updateFw : decode 0b0000000000000000_00000000_0000_0010#32 = .ok .updateFw := rfl
theorem test_decode_rawCmd_0 : decode 0b0000000000000000_00000000_0000_0011#32 = .ok (.rawCmd 0#8) := rfl
theorem test_decode_rawCmd_68 : decode 0b0000000000000000_01000100_0000_0011#32 = .ok (.rawCmd 68#8) := rfl
theorem test_decode_abort : decode 0b0000000000000000_00000000_0000_0100#32 = .ok .abort := rfl
theorem test_decode_quit : decode 0b0000000000000000_00000000_0000_0101#32 = .ok .quit := rfl
theorem test_decode_rawCmd_69 : decode 0x00004503#32 = .error .rawCountTooLarge := rfl
theorem test_decode_abort_with_arg : decode 0x00000104#32 = .error .argNotZero := rfl
theorem test_decode_op_6 : decode 0x00000006#32 = .error .opReserved := rfl
theorem test_decode_op_15 : decode 0x0000000F#32 = .error .opReserved := rfl
theorem test_decode_bit_4 : decode 0x00000013#32 = .error .reservedBitsSet := rfl
theorem test_decode_bit_7 : decode 0x00000083#32 = .error .reservedBitsSet := rfl
theorem test_decode_bit_16 : decode 0x00010003#32 = .error .reservedBitsSet := rfl
theorem test_decode_bit_31 : decode 0x80000005#32 = .error .reservedBitsSet := rfl
theorem test_decodeTableWord_rawCmd_3 : decodeTableWord 32 0x303 = some (.rawCmd 3#8) := rfl

/-- A word that selects the RAW_CMD row, and one that selects the QUIT row (R82). -/
theorem witness_DecodingIsRowSelection :
    (rowOf (.rawCmd 0#8)).selects 0x00004403#32 = true ∧ (rowOf .quit).selects 0x00000005#32 = true ∧
      rowOf .quit ∈ opcodeTable := by decide

/-! ### The Frame Codec (V1, V3, V4, V7) -/

theorem test_partition_fw_0 : partition .firmware 0 = [] := rfl
theorem test_partition_fw_1 : partition .firmware 1 = [1] := rfl
theorem test_partition_fw_8184 : partition .firmware 8184 = [8184] := rfl
theorem test_partition_fw_8185 : partition .firmware 8185 = [8184, 1] := rfl
theorem test_partition_fw_16368 : partition .firmware 16368 = [8184, 8184] := rfl
theorem test_partition_fw_100000 : partition .firmware 100000 = List.replicate 12 8184 ++ [1792] := rfl
theorem test_partition_image : partition .image 134400 = List.replicate 16 8192 ++ [3328] := rfl
theorem test_partition_raw : partition .raw 68 = [68] := rfl

theorem test_fwHeader_1 : fwHeader 1 = [0xA0, 0xA0, 0xE0, 0xE0, 0x09, 0x00, 0x00, 0x00] := rfl
theorem test_fwHeader_248 : fwHeader 248 = [0xA0, 0xA0, 0xE0, 0xE0, 0x00, 0x01, 0x00, 0x00] := rfl
theorem test_fwHeader_1816 : fwHeader 1816 = [0xA0, 0xA0, 0xE0, 0xE0, 0x20, 0x07, 0x00, 0x00] := rfl
theorem test_fwHeader_8183 : fwHeader 8183 = [0xA0, 0xA0, 0xE0, 0xE0, 0xFF, 0x1F, 0x00, 0x00] := rfl
theorem test_fwHeader_8184 : fwHeader 8184 = [0xE0, 0xE0, 0xE0, 0xE0, 0x00, 0x20, 0x00, 0x00] := rfl

theorem test_decodeFwFrame_9 :
    decodeFwFrame [0xA0, 0xA0, 0xE0, 0xE0, 0x09, 0x00, 0x00, 0x00, 0x7F] = some ⟨true, 9, [0x7F]⟩ := by decide
theorem test_decodeFwFrame_10 :
    decodeFwFrame [0xA0, 0xA0, 0xE0, 0xE0, 0x0A, 0x00, 0x00, 0x00, 0x01, 0x02] = some ⟨true, 10, [0x01, 0x02]⟩ := by
  decide
theorem test_decodeFwFrame_magic_order :
    decodeFwFrame [0xA0, 0xE0, 0xA0, 0xE0, 0x09, 0x00, 0x00, 0x00, 0x7F] = none := by decide
theorem test_decodeFwFrame_busy_short :
    decodeFwFrame [0xE0, 0xE0, 0xE0, 0xE0, 0x09, 0x00, 0x00, 0x00, 0x7F] = none := by decide
theorem test_decodeFwFrame_length :
    decodeFwFrame [0xA0, 0xA0, 0xE0, 0xE0, 0x0A, 0x00, 0x00, 0x00, 0x7F] = none := by decide
theorem test_decodeFwFrame_empty_chunk :
    decodeFwFrame [0xA0, 0xA0, 0xE0, 0xE0, 0x08, 0x00, 0x00, 0x00] = none := by decide

theorem test_ackLen_image : [ackLen .image .awaitAck 0 0, ackLen .image .awaitAck 1 0, ackLen .image .awaitFinalAck 0 0,
    ackLen .image .awaitFinalAck 1 0] = [some 5, some 2, some 5, some 7] := by decide
theorem test_ackLen_firmware : [ackLen .firmware .awaitAck 0 0, ackLen .firmware .awaitAck 1 0,
    ackLen .firmware .awaitAck 2 0] = [some 5, some 2, none] := by decide
theorem test_ackLen_raw : [ackLen .raw .awaitAck 0 2, ackLen .raw .awaitAck 1 2, ackLen .raw .awaitAck 2 2,
    ackLen .raw .awaitAck 2 0] = [some 4, some 1, some 2, none] := by decide
theorem test_wireTotals : [wireTxTotal .firmware 10000, wireRxTotal .firmware 10000 0, wireTxTotal .firmware 16369,
    wireRxTotal .image 134400 0, wireRxTotal .raw 68 255] = [10016, 14, 16393, 131, 260] := by decide

theorem witness_AckTable : (255#8 : BitVec 8) ≠ 0 ∧ Phase.sending.awaiting = false ∧ Kind.firmware ≠ .image := by decide

theorem witness_PartitionCoversThePayload : 0 + 1 < (partition .image 134400).length ∧
    15 + 1 < (partition .image 134400).length ∧ 16 + 1 = (partition .image 134400).length := by
  rw [test_partition_image]
  simp

/-- A frame that decodes, for the second clause; the first needs a payload of 1 to 8,184 bytes. -/
theorem witness_FirmwareFrameRoundTrip : ([0x7F#8] : List Byte).length = 1 ∧
    (List.replicate 8184 (0x33#8 : Byte)).length = 8184 ∧ (decodeFwFrame (fwFrame [0x7F#8])).isSome = true := by
  refine ⟨rfl, List.length_replicate, by decide⟩

theorem witness_FirmwareHeaderBytes : 1 ≤ 1 ∧ 1 ≤ 8184 ∧ 8184 ≤ 8184 := by decide

/-! ### Small states -/

/-- IDLE with an open channel (the start state of P1 to P6). -/
def idleOpen : State := { resetEvent State.reset with chan := .opened, linkUp := true }

/-- A state with bytes at hand in RXQ and with the inputs of the coming cycles. -/
def given (s : State) (q : List Byte) (is : List CycleInput) : State := { s with rxq := q, inputs := is }

/-- A transfer just started on the open channel. -/
def starting (k : Kind) (total : Word) (rk : BitVec 7) : State :=
  startTransfer k total { idleOpen with rawK := rk, rawRespLen := 0 }

/-- An operation that waits for acknowledgement bytes: the chunk of `len` bytes at `offset` is out, and `got` bytes of the
stage `stage` of `need` bytes have come. -/
def waiting (k : Kind) (ph : Phase) (total offset idx : Word) (len : BitVec 14) (stage : BitVec 2) (need got : BitVec 8)
    (ack : BitVec 4) (resp : BitVec 8) (ab : Bool) : State :=
  let s := { idleOpen with
    phase := ph, opkind := some k, totalLen := total, offset := offset, chunkIdx := idx, chunkLen := len
    lastChunk := decide (offset.toNat + len.toNat = total.toNat), txPos := frameLenOf k len, frameLen := frameLenOf k len
    rxStage := stage, rxNeed := need, rxGot := got, ackPos := ack, rawRespLen := resp, abortPending := ab }
  { s with txCount := BitVec.ofNat 32 (sentSoFar k s), rxCount := BitVec.ofNat 32 (receivedSoFar k s) }

/-- A firmware of 10 bytes, its one frame out. -/
def fwWaiting (stage : BitVec 2) (need got : BitVec 8) (ack : BitVec 4) : State :=
  waiting .firmware .awaitAck 10 0 0 10 stage need got ack 0 false

/-- The chunk of an image at `offset`, its frame out. -/
def imageWaiting (offset idx : Word) (len : BitVec 14) (stage : BitVec 2) (need got : BitVec 8) (ack : BitVec 4)
    (ab : Bool) : State :=
  waiting .image .awaitAck 134400 offset idx len stage need got ack 0 ab

/-- An image at its end-of-image acknowledgement. -/
def imageFinal (stage : BitVec 2) (need got : BitVec 8) (ack : BitVec 4) (ab : Bool) : State :=
  waiting .image .awaitFinalAck 134400 134400 17 3328 stage need got ack 0 ab

/-- A raw command, its frame out. -/
def rawWaiting (stage : BitVec 2) (need got : BitVec 8) (resp : BitVec 8) : State :=
  waiting .raw .awaitAck 68 0 0 68 stage need got 0 resp false

theorem engineInv_idleOpen : EngineInv idleOpen :=
  ((engineInv_resetEvent State.reset).setChan rfl .opened).frame 0 Config.rxTimeoutReset 0 true [] [] [] [] none 0
    (iff_of_true rfl rfl) fun h => by contradiction

theorem inv_given {s : State} (h : EngineInv s) (hl : s.linkUp = true) (q : List Byte) (is : List CycleInput) :
    Inv (given s q is) where
  engine := h.frame s.fwLen s.rxTimeout s.rxTimer s.linkUp q s.txh s.rxh is s.busResp s.busErrors h.outcome.cmdErr
    h.outcome.abortPending
  link _ := hl
  queue hf := by
    have e : s.linkUp = false := hf
    rw [hl] at e
    contradiction

theorem linkUp_starting (k : Kind) (total : Word) (rk : BitVec 7) : (starting k total rk).linkUp = true :=
  (commandFrame_startTransfer k total _).linkUp

theorem inv_starting {k : Kind} {total : Word} {rk : BitVec 7} (ht : TotalOk k total) (hk : rk.toNat ≤ 68)
    (q : List Byte) (is : List CycleInput) : Inv (given (starting k total rk) q is) :=
  inv_given (engineInv_idleOpen.startTransfer (.inl ht) hk 0) (linkUp_starting k total rk) q is

/-- What a waiting state must satisfy to be one that the invariant admits: the chunk is one of the partition, the stage a row
of the ack table. -/
structure WaitingOk (k : Kind) (ph : Phase) (total offset idx : Word) (len : BitVec 14) (stage : BitVec 2)
    (need got : BitVec 8) (ack : BitVec 4) (resp : BitVec 8) : Prop where
  isWaiting : ph.awaiting = true
  isTotal : TotalOk k total
  more : ph = .awaitAck → offset.toNat < total.toNat ∧ len.toNat = min k.maxChunk (total.toNat - offset.toNat)
  rawStart : k = .raw → offset = 0
  isRow : ackLen k ph stage.toNat resp = some need
  gotLess : got.toNat < need.toNat
  ackPlace : ack.toNat = if k = .raw then 0 else (if stage.toNat = 0 then 0 else 5) + got.toNat
  small : stage.toNat ≤ 2 ∧ ack.toNat ≤ 12 ∧ len.toNat ≤ k.maxChunk ∧ 0 < len.toNat
  atEnd : ph = .awaitFinalAck → k = .image ∧ offset = total
  inside : offset.toNat ≤ total.toNat
  progress : k ≠ .raw → offset.toNat = min (idx.toNat * k.maxChunk) total.toNat
  index : k ≠ .raw → idx.toNat ≤ ceilDiv total.toNat k.maxChunk

theorem engineInv_waiting {k : Kind} {ph : Phase} {total offset idx : Word} {len : BitVec 14} {stage : BitVec 2}
    {need got : BitVec 8} {ack : BitVec 4} {resp : BitVec 8} (ab : Bool)
    (h : WaitingOk k ph total offset idx len stage need got ack resp) :
    EngineInv (waiting k ph total offset idx len stage need got ack resp ab) := by
  have hf := frameLenOf_bounds h.small.2.2.2 h.small.2.2.1
  have h8 := maxChunk_le k
  have hs := h.small
  refine Receiving.engineInv (k := k) ?_ h.gotLess
  exact {
    base := ⟨h.inside, fun r => by cases r <;> exact .nil _,
      ⟨hs.2.2.1.trans h8, hf.2, Nat.le_refl _, hs.1, h.gotLess.le, hs.2.1, Nat.zero_le _⟩, iff_of_true rfl rfl,
      fun q _ ho => by
        cases ho
        exact h.isTotal⟩
    opkind := rfl
    chan := rfl
    phase := h.isWaiting
    total := h.isTotal
    chunk := fun e => ⟨(h.more e).1, (h.more e).2, rfl, rfl, h.rawStart⟩
    need := h.isRow
    got := h.gotLess.le
    sent := rfl
    ackPos := by
      refine h.ackPlace.trans ?_
      by_cases hk : k = .raw
      · rw [if_pos hk, if_pos hk]
      · rw [if_neg hk, if_neg hk]
        show _ = ackSoFar k _
        unfold ackSoFar
        show _ = _ + got.toNat
        congr 1
        show _ = match k, stage.toNat with
          | _, 0 => 0
          | .image, _ => 5
          | .firmware, _ => 5
          | .raw, 1 => 4
          | .raw, _ => 5
        generalize stage.toNat = z
        cases k <;> first | exact absurd rfl hk | (rcases z with _ | z <;> simp)
    finalAck := h.atEnd
    progress := fun hk => by
      rw [partition_take_sum]
      exact h.progress hk
    index := fun hk => by
      rw [partition_length]
      exact h.index hk
    result := rfl
    tx := rfl
    rx := rfl }

theorem inv_waiting {k : Kind} {ph : Phase} {total offset idx : Word} {len : BitVec 14} {stage : BitVec 2}
    {need got : BitVec 8} {ack : BitVec 4} {resp : BitVec 8} (ab : Bool) (q : List Byte) (is : List CycleInput)
    (h : WaitingOk k ph total offset idx len stage need got ack resp) :
    Inv (given (waiting k ph total offset idx len stage need got ack resp ab) q is) :=
  inv_given (engineInv_waiting ab h) rfl q is

/-! ### The commands, one step each (V9) -/

/-- The value of a field after a step. -/
def after {α : Type} (o : Host.Outcome State Fault Refusal) (f : State → α) : Option α :=
  match o with
  | .next t => some (f t)
  | .fault _ => none
  | .refused _ => none

/-- COMPLETE with an open channel. -/
def completeOpen : State := { idleOpen with phase := .complete, opkind := some .raw, result := .ok }

/-- FAILED with an open channel. -/
def failedOpen : State := { idleOpen with phase := .failed, opkind := some .image, result := .timeout }

/-- SENDING the first byte of RAW_CMD 3. -/
def rawSending : State := starting .raw 68 3

theorem test_step_nop : after (step ({ idleOpen with cmdErr := true, cmdErrCause := .busy }.withFetchWord 32 0))
    (fun t => (t.cmdErr, t.cmdErrCause, t.phase)) = some (false, .none, .idle) := by decide

theorem test_step_sendImage : after (step (idleOpen.withFetchWord 32 1)) (fun t => (t.phase, t.opkind, t.chunkLen,
    t.frameLen)) = some (.sending, some .image, 8192, 8192) := rfl

theorem test_step_sendImage_after_reset : after (step (State.reset.withFetchWord 32 1))
    (fun t => (t.phase, t.result, t.cmdErr, t.txCount)) = some (.failed, .connectionError, false, 0) := rfl

theorem test_step_updateFw_8185 : after (step ({ idleOpen with fwLen := 8185 }.withFetchWord 32 2))
    (fun t => (t.phase, t.chunkLen, t.lastChunk, t.frameLen)) = some (.sending, 8184, false, 8192) := rfl

theorem test_step_updateFw_0 : after (step (idleOpen.withFetchWord 32 2))
    (fun t => (t.phase, t.result, t.txCount)) = some (.complete, .ok, 0) := rfl

theorem test_step_rawCmd_3 : after (step (idleOpen.withFetchWord 32 0x303))
    (fun t => (t.phase, t.rawK, t.frameLen, t.totalLen)) = some (.sending, 3, 68, 68) := rfl

theorem test_step_rawCmd_failed : after (step (failedOpen.withFetchWord 32 0x203))
    (fun t => (t.phase, t.cmdErr, t.cmdErrCause)) = some (.failed, true, .failedState) := by decide

theorem test_step_abort_sending : after (step (rawSending.withFetchWord 32 4))
    (fun t => (t.phase, t.abortPending)) = some (.sending, true) := rfl

theorem test_step_abort_idle : after (step (idleOpen.withFetchWord 32 4))
    (fun t => (t.phase, t.abortPending)) = some (.idle, false) := by decide

theorem test_step_quit_failed : after (step (failedOpen.withFetchWord 32 5))
    (fun t => (t.phase, t.opkind, t.chan, t.result)) = some (.idle, none, .closing, .timeout) := by decide

theorem test_step_quit_busy : after (step (rawSending.withFetchWord 32 5))
    (fun t => (t.phase, t.cmdErr, t.cmdErrCause)) = some (.sending, true, .busy) := rfl

/-! ### Registers and host accesses (V11, V12, P1, P3, P4) -/

theorem test_status_P1 : statusWord { idleOpen with phase := .complete, opkind := some .firmware, lastChunk := true }
    = 0x01002124 := by decide
theorem test_status_P4 : statusWord (reject .failedState { failedOpen with opkind := some .firmware, lastChunk := true })
    = 0x01312125 := by decide
theorem test_framePos_P1 : framePosWord { idleOpen with txPos := 1824, frameLen := 1824 } = 0x07200720 := by decide
theorem test_rxStat_P2 : rxStatWord { idleOpen with rxStage := 1, rxNeed := 7, rxGot := 7, ackPos := 12 }
    = 0x0C070701 := by decide
theorem test_rawStat_P3 : rawStatWord { idleOpen with rawRespLen := 2, rawK := 3 } = 0x00030002 := by decide

theorem test_targets_admitted : [target? .word 0x004, target? .word 0x040, target? .word 0x080, target? .byte 0x08B,
    target? .word 0x098, target? .byte 0x1FE] = [some (.reg .status), some (.word .rawCmdBuf 0),
    some (.word .rawCmdBuf 64), some (.byte .rawRespHdr 3), some (.word .ackBuf 8), some (.byte .rawRespPayload 254)] := by
  decide
theorem test_targets_not_admitted : [target? .byte 0x004, target? .word 0x002, target? .word 0x03C, target? .word 0x084,
    target? .word 0x09C, target? .word 0x1FC, target? .word 0xFFC] = [none, none, none, none, none, none, none] := by
  decide
theorem test_write_word_little_endian : after (hostEvent (some (.write .word 0x040 0x04030201)) idleOpen)
    (fun t => (List.range 4).map (t.readByte .rawCmdBuf)) = some [0x01, 0x02, 0x03, 0x04] := by decide
theorem test_write_read_only : after (hostEvent (some (.write .byte 0x090 0xFF)) idleOpen) (fun t => t.ackBuf) = some [] := by
  decide

/-! ### Host programs (R85, P3, P4) -/

theorem test_raw_lines : rawLines [0x01, 0x02, 0x03] = [.wrb 0x040 0x01, .wrb 0x041 0x02, .wrb 0x042 0x03,
    .wr 0x000 0x00000303] := by decide
theorem test_updateFw_lines : updateFwLines 16368 = [.wr 0x030 0x00003FF0, .wr 0x000 0x00000002] := by decide

/-! ### Frame bytes, ticks, bytes and links (V5, V8, V10) -/

theorem test_frameByte_fw : frameByte .firmware 4 { idleOpen with offset := 8184, chunkLen := 1816 } = .ok 0x20 := rfl
theorem test_frameByte_raw : frameByte .raw 3 { idleOpen with rawK := 3 } = .ok 0x00 := rfl

/-- The input of a cycle with a tick and with nothing else. -/
def tickInput : CycleInput := { quietInput true with tick := true }

theorem test_tick_timeout : after (step (given (fwWaiting 0 5 0 0) [] [tickInput])) (fun t => (t.phase, t.result))
    = some (.failed, .timeout) := rfl
theorem test_tick_shortRead : after (step (given (fwWaiting 0 5 1 1) [] [tickInput])) (fun t => (t.phase, t.result))
    = some (.failed, .shortRead) := rfl
theorem test_byte_before_tick : after (step (given { fwWaiting 0 5 4 4 with rxTimeout := 3 } [0x14] [tickInput]))
    (fun t => (t.rxStage, t.rxNeed, t.rxGot, t.rxTimer)) = some (1, 2, 0, 2) := rfl
/-- The last row of V8. -/
theorem test_byte_before_tick_at_timeout_0 : after (step (given { fwWaiting 0 5 4 4 with rxTimeout := 0 } [0x14] [tickInput]))
    (fun t => (t.phase, t.result, t.rxStage, t.rxGot)) = some (.failed, .timeout, 1, 0) := rfl
theorem test_byte_arrives_and_is_taken : after (step (given (fwWaiting 0 5 0 0) []
    [{ quietInput true with arriving := [0x10, 0x11] }])) (fun t => (t.rxq, t.rxh, t.rxGot))
    = some ([0x11], [0x10], 1) := rfl
theorem test_link_beats_tick : after (step (given (fwWaiting 0 5 0 0) [] [{ tickInput with linkUp := false }]))
    (fun t => (t.phase, t.result, t.chan)) = some (.failed, .connectionError, .closed) := rfl
theorem test_closing_stays : after (step (given State.reset [] [quietInput true])) (fun t => t.chan) = some .closing := by
  decide
theorem test_failed_ignores_link : after (step (given { failedOpen with chan := .closed } [] [quietInput true]))
    (fun t => t.chan) = some .closed := by decide
theorem test_txErr_sends_nothing : after (step (given rawSending [] [{ quietInput true with txErr := true, txReady := true }]))
    (fun t => (t.phase, t.result, t.txh, t.chan)) = some (.failed, .connectionError, [], .opened) := rfl

/-! ### Witnesses: states and operands that meet the hypotheses of the obligations -/

/-- A cycle that brings a command word. -/
def commandInput (w : Word) : CycleInput := { quietInput true with host := some (.write .word 0x000#12 w) }

theorem witness_StepRunsTheDecodedCommand :
    (nextInput (given idleOpen [] [commandInput 1])).rst = false ∧
    (nextInput (given idleOpen [] [commandInput 1])).host = some (.write .word 0x000#12 1) ∧ decode 1 = .ok .sendImage ∧
    engineEvents (nextInput (given idleOpen [] [commandInput 1])) (started (given idleOpen [] [commandInput 1])) =
      .ok (started (given idleOpen [] [commandInput 1])) := ⟨rfl, rfl, rfl, rfl⟩

/-- The second clause: a cycle that brings a read of STATUS and no payload write. -/
theorem witness_StepRunsTheDecodedCommand_access :
    (nextInput (given idleOpen [] [{ quietInput true with host := some (.read .word 0x004#12) }])).host =
      some (.read .word 0x004#12) ∧
    (nextInput (given idleOpen [] [{ quietInput true with host := some (.read .word 0x004#12) }])).payloadWrite = none :=
  ⟨rfl, rfl⟩

theorem witness_IllegalWordIsRejected : ∀ i, decode 0x00000006 ≠ .ok i := by
  intro i
  rw [show decode 0x00000006 = .error .opReserved from rfl]
  simp

theorem witness_RejectionCausesAndOrder :
    68 < (69#8).toNat ∧
    (wellFormed (.rawCmd 68) = true ∧ Instr.rawCmd 68 ≠ .nop ∧ Instr.rawCmd 68 ≠ .abort ∧ rawSending.phase.busy = true) ∧
    (wellFormed .sendImage = true ∧ Instr.sendImage ≠ .nop ∧ Instr.sendImage ≠ .abort ∧ Instr.sendImage ≠ .quit ∧
      failedOpen.phase = .failed) := ⟨by decide, ⟨rfl, by decide, by decide, rfl⟩, rfl, by decide, by decide, by decide, rfl⟩

/-- The clause of an accepted command. -/
theorem witness_RejectionCausesAndOrder_accepted : wellFormed .updateFw = true ∧ idleOpen.phase = .idle ∧
    idleOpen.fwLen.toNat ≤ Config.payloadBytes := ⟨rfl, rfl, Nat.zero_le _⟩

/-- The LENGTH clause: R6 allows PAYLOAD_BYTES = 2^32 - 1, where no FW_LEN is too long; below that one is. -/
theorem witness_RejectionCausesAndOrder_length (h : Config.payloadBytes < 0xFFFFFFFF) :
    ({ idleOpen with fwLen := 0xFFFFFFFF } : State).phase = .idle ∧
      Config.payloadBytes < ({ idleOpen with fwLen := 0xFFFFFFFF } : State).fwLen.toNat := ⟨rfl, h⟩

theorem witness_SendImageStartsTheFirstChunk : idleOpen.phase = .idle ∧ idleOpen.chan = .opened ∧
    completeOpen.phase = .complete ∧ completeOpen.chan = .opened := by decide

theorem witness_UpdateFwStartsTheFirstChunk :
    0 < ({ completeOpen with fwLen := 1 } : State).fwLen.toNat ∧
    ({ completeOpen with fwLen := 1 } : State).fwLen.toNat ≤ Config.payloadBytes ∧
    ({ completeOpen with fwLen := 134400 } : State).fwLen.toNat ≤ Config.payloadBytes ∧
    completeOpen.phase = .complete ∧ completeOpen.chan = .opened :=
  ⟨by decide, Nat.le_trans (by decide) payloadBytes_ge, payloadBytes_ge, rfl, rfl⟩

theorem witness_UpdateFwOfLengthZeroCompletes : idleOpen.phase = .idle ∧ idleOpen.chan = .opened ∧ idleOpen.fwLen = 0 := by
  decide

theorem witness_RawCmdStartsItsFrame : (0#8).toNat ≤ 68 ∧ (68#8).toNat ≤ 68 ∧ idleOpen.phase = .idle ∧
    idleOpen.chan = .opened := by decide

theorem witness_AbortIsRecordedWhileBusy : rawSending.phase.busy = true ∧ idleOpen.phase.busy = false := ⟨rfl, rfl⟩

theorem witness_QuitEndsTheSession : idleOpen.phase.busy = false ∧ failedOpen.phase.busy = false := ⟨rfl, rfl⟩

theorem witness_TransferWithoutAChannelFails : State.reset.phase = .idle ∧ State.reset.chan ≠ .opened ∧
    State.reset.fwLen.toNat ≤ Config.payloadBytes ∧ (68#8).toNat ≤ 68 :=
  ⟨rfl, by decide, Nat.zero_le _, by decide⟩

theorem witness_CommandsLeaveTheRestUnchanged : exec .quit failedOpen =
    .next { failedOpen with phase := .idle, opkind := none, chan := .closing } := rfl

theorem witness_RawFrameIsPaddedWithZeros : 0 < 68 ∧ 67 < 68 ∧ 2 < rawSending.rawK.toNat ∧ ¬ 3 < rawSending.rawK.toNat :=
  ⟨by decide, by decide, by decide, by decide⟩

theorem witness_PayloadFramesAreTheirBytes :
    (imageWaiting 131072 16 3328 0 5 0 0 false).offset.toNat + (imageWaiting 131072 16 3328 0 5 0 0 false).chunkLen.toNat
      ≤ Config.payloadBytes ∧
    (imageWaiting 131072 16 3328 0 5 0 0 false).chunkLen.toNat ≤ 8184 ∧
    3327 < (imageWaiting 131072 16 3328 0 5 0 0 false).chunkLen.toNat ∧
    8 ≤ 3335 ∧ 3335 < (imageWaiting 131072 16 3328 0 5 0 0 false).chunkLen.toNat + 8 :=
  ⟨payloadBytes_ge, by decide, by decide, by decide, by decide⟩

/-- A ready transport and nothing else. -/
def readyInput : CycleInput := { quietInput true with txReady := true }

theorem witness_TxStepSendsTheNextByte : Inv (given rawSending [] [readyInput]) ∧
    (given rawSending [] [readyInput]).phase = .sending ∧ (given rawSending [] [readyInput]).opkind = some .raw ∧
    nextInput (given rawSending [] [readyInput]) = { quietInput true with txReady := true } ∧
    (given rawSending [] [readyInput]).txPos.toNat + 1 < (given rawSending [] [readyInput]).frameLen.toNat :=
  ⟨inv_starting (k := .raw) (total := 68) (rk := 3) rfl (by decide) _ _, rfl, rfl, rfl, by decide⟩

theorem waitingOk_fw {stage : BitVec 2} {need got : BitVec 8} {ack : BitVec 4}
    (hn : ackLen .firmware .awaitAck stage.toNat 0 = some need) (hg : got.toNat < need.toNat)
    (ha : ack.toNat = (if stage.toNat = 0 then 0 else 5) + got.toNat) (hs : stage.toNat ≤ 2 ∧ ack.toNat ≤ 12) :
    WaitingOk .firmware .awaitAck 10 0 0 10 stage need got ack 0 where
  isWaiting := rfl
  isTotal := ⟨by decide, Nat.le_trans (by decide) payloadBytes_ge⟩
  more _ := ⟨by decide, by decide⟩
  rawStart h := by cases h
  isRow := hn
  gotLess := hg
  ackPlace := ha
  small := ⟨hs.1, hs.2, by decide, by decide⟩
  atEnd h := by cases h
  inside := by decide
  progress _ := by decide
  index _ := by decide

theorem waitingOk_raw {stage : BitVec 2} {need got resp : BitVec 8}
    (hn : ackLen .raw .awaitAck stage.toNat resp = some need) (hg : got.toNat < need.toNat) (hs : stage.toNat ≤ 2) :
    WaitingOk .raw .awaitAck 68 0 0 68 stage need got 0 resp where
  isWaiting := rfl
  isTotal := rfl
  more _ := ⟨by decide, by decide⟩
  rawStart _ := rfl
  isRow := hn
  gotLess := hg
  ackPlace := rfl
  small := ⟨hs, by decide, by decide, by decide⟩
  atEnd h := by cases h
  inside := by decide
  progress h := absurd rfl h
  index h := absurd rfl h

theorem waitingOk_image {offset idx : Word} {len : BitVec 14} {stage : BitVec 2} {need got : BitVec 8} {ack : BitVec 4}
    (hm : offset.toNat < 134400) (hl : len.toNat = min 8192 (134400 - offset.toNat))
    (hn : ackLen .image .awaitAck stage.toNat 0 = some need) (hg : got.toNat < need.toNat)
    (ha : ack.toNat = (if stage.toNat = 0 then 0 else 5) + got.toNat) (hs : stage.toNat ≤ 2 ∧ ack.toNat ≤ 12)
    (hp : offset.toNat = min (idx.toNat * 8192) 134400) (hi : idx.toNat ≤ 17) :
    WaitingOk .image .awaitAck 134400 offset idx len stage need got ack 0 where
  isWaiting := rfl
  isTotal := rfl
  more _ := ⟨hm, hl⟩
  rawStart h := by cases h
  isRow := hn
  gotLess := hg
  ackPlace := ha
  small := ⟨hs.1, hs.2, by rw [hl]; exact Nat.min_le_left _ _, by rw [hl]; omega⟩
  atEnd h := by cases h
  inside := Nat.le_of_lt hm
  progress _ := hp
  index _ := hi

theorem waitingOk_final {stage : BitVec 2} {need got : BitVec 8} {ack : BitVec 4}
    (hn : ackLen .image .awaitFinalAck stage.toNat 0 = some need) (hg : got.toNat < need.toNat)
    (ha : ack.toNat = (if stage.toNat = 0 then 0 else 5) + got.toNat) (hs : stage.toNat ≤ 2 ∧ ack.toNat ≤ 12) :
    WaitingOk .image .awaitFinalAck 134400 134400 17 3328 stage need got ack 0 where
  isWaiting := rfl
  isTotal := rfl
  more h := by cases h
  rawStart h := by cases h
  isRow := hn
  gotLess := hg
  ackPlace := ha
  small := ⟨hs.1, hs.2, by decide, by decide⟩
  atEnd _ := ⟨rfl, rfl⟩
  inside := by decide
  progress _ := by decide
  index _ := by decide

/-- In AWAIT_ACK of each kind, inside a stage. -/
theorem witness_RxStepStoresTheByte :
    (Inv (given (fwWaiting 0 5 0 0) [0x10] [quietInput true]) ∧
      (given (fwWaiting 0 5 0 0) [0x10] [quietInput true]).rxGot.toNat + 1 <
        (given (fwWaiting 0 5 0 0) [0x10] [quietInput true]).rxNeed.toNat) ∧
    (Inv (given (rawWaiting 0 4 0 0) [0x10] [quietInput true]) ∧
      (given (rawWaiting 0 4 0 0) [0x10] [quietInput true]).rxStage = 0) ∧
    (Inv (given (rawWaiting 2 255 253 255) [0x10] [quietInput true]) ∧
      (given (rawWaiting 2 255 253 255) [0x10] [quietInput true]).rxStage = 2 ∧
      (given (rawWaiting 2 255 253 255) [0x10] [quietInput true]).rxGot.toNat + 1 <
        (given (rawWaiting 2 255 253 255) [0x10] [quietInput true]).rxNeed.toNat) :=
  ⟨⟨inv_waiting _ _ _ (waitingOk_fw rfl (by decide) rfl (by decide)), by decide⟩,
    ⟨inv_waiting _ _ _ (waitingOk_raw rfl (by decide) (by decide)), rfl⟩,
    ⟨inv_waiting _ _ _ (waitingOk_raw rfl (by decide) (by decide)), rfl, by decide⟩⟩

theorem witness_FirstStageOpensTheSecond :
    (Inv (given (fwWaiting 0 5 4 4) [0x10] [quietInput true]) ∧ (fwWaiting 0 5 4 4).rxGot.toNat + 1 = 5) ∧
    (Inv (given (imageFinal 0 5 4 4 false) [0xC4] [quietInput true]) ∧ (imageFinal 0 5 4 4 false).rxGot.toNat + 1 = 5 ∧
      (imageFinal 0 5 4 4 false).phase = .awaitFinalAck) :=
  ⟨⟨inv_waiting _ _ _ (waitingOk_fw rfl (by decide) rfl (by decide)), rfl⟩,
    ⟨inv_waiting _ _ _ (waitingOk_final rfl (by decide) rfl (by decide)), rfl, rfl⟩⟩

/-- The two clauses with a tick, for RX_TIMEOUT = 3 and RX_TIMEOUT = 0. -/
theorem witness_FirstStageOpensTheSecond_tick (w : Word) :
    Inv (given { fwWaiting 0 5 4 4 with rxTimeout := w } [0x14] [tickInput]) ∧
    nextInput (given { fwWaiting 0 5 4 4 with rxTimeout := w } [0x14] [tickInput]) =
      { quietInput true with tick := true } ∧ (3 : Word) ≠ 0 :=
  ⟨inv_given ((engineInv_waiting false (waitingOk_fw rfl (by decide) rfl (by decide))).frame 0 w 0 true [] [] [] [] none 0
    (iff_of_true rfl rfl) (fun _ => rfl)) rfl _ _, rfl, by decide⟩

theorem witness_RawResponseStages :
    (Inv (given (rawWaiting 0 4 3 0) [0x00] [quietInput true]) ∧ (rawWaiting 0 4 3 0).rxGot.toNat + 1 = 4) ∧
    (Inv (given (rawWaiting 1 1 0 0) [0x02] [quietInput true]) ∧ (rawWaiting 1 1 0 0).rxStage = 1 ∧ (0x02 : Byte) ≠ 0) ∧
    (Inv (given (rawWaiting 1 1 0 0) [0x00] [quietInput true]) ∧ (rawWaiting 1 1 0 0).rxStage = 1) ∧
    (Inv (given (rawWaiting 2 255 254 255) [0xAA] [quietInput true]) ∧
      (rawWaiting 2 255 254 255).rxGot.toNat + 1 = (rawWaiting 2 255 254 255).rxNeed.toNat) :=
  ⟨⟨inv_waiting _ _ _ (waitingOk_raw rfl (by decide) (by decide)), rfl⟩,
    ⟨inv_waiting _ _ _ (waitingOk_raw rfl (by decide) (by decide)), rfl, by decide⟩,
    ⟨inv_waiting _ _ _ (waitingOk_raw rfl (by decide) (by decide)), rfl⟩,
    ⟨inv_waiting _ _ _ (waitingOk_raw rfl (by decide) (by decide)), rfl⟩⟩

/-- The last byte of a chunk's ack: the last chunk of an image, the last of a firmware, and a first chunk of an image with and
without a pending abort. -/
theorem witness_ChunkAckMovesOn :
    (Inv (given (imageWaiting 131072 16 3328 1 2 1 6 false) [0x10] [quietInput true]) ∧
      (imageWaiting 131072 16 3328 1 2 1 6 false).offset.toNat +
        (imageWaiting 131072 16 3328 1 2 1 6 false).chunkLen.toNat = 134400) ∧
    (Inv (given (fwWaiting 1 2 1 6) [0x10] [quietInput true]) ∧ (fwWaiting 1 2 1 6).rxGot = 1) ∧
    (Inv (given (imageWaiting 0 0 8192 1 2 1 6 true) [0x00] [quietInput true]) ∧
      (imageWaiting 0 0 8192 1 2 1 6 true).abortPending = true) ∧
    (Inv (given (imageWaiting 0 0 8192 1 2 1 6 false) [0x00] [quietInput true]) ∧
      (imageWaiting 0 0 8192 1 2 1 6 false).abortPending = false) :=
  ⟨⟨inv_waiting _ _ _ (waitingOk_image (by decide) (by decide) rfl (by decide) rfl (by decide) (by decide) (by decide)),
      rfl⟩,
    ⟨inv_waiting _ _ _ (waitingOk_fw rfl (by decide) rfl (by decide)), rfl⟩,
    ⟨inv_waiting _ _ _ (waitingOk_image (by decide) (by decide) rfl (by decide) rfl (by decide) (by decide) (by decide)),
      rfl⟩,
    ⟨inv_waiting _ _ _ (waitingOk_image (by decide) (by decide) rfl (by decide) rfl (by decide) (by decide) (by decide)),
      rfl⟩⟩

theorem witness_EndOfImageAckCompletes : Inv (given (imageFinal 1 7 6 11 true) [0xCB] [quietInput true]) ∧
    (imageFinal 1 7 6 11 true).rxGot.toNat = 6 ∧ (imageFinal 1 7 6 11 true).phase = .awaitFinalAck :=
  ⟨inv_waiting _ _ _ (waitingOk_final rfl (by decide) rfl (by decide)), rfl, rfl⟩

/-- A firmware of 10 bytes with 17 of its 18 frame bytes out. -/
def fwLastByte : State := { starting .firmware 10 0 with txPos := 17, txCount := 17 }

theorem engineInv_fwLastByte : EngineInv fwLastByte := by
  have h : EngineInv (starting .firmware 10 0) := engineInv_idleOpen.startTransfer (k := .firmware) (w := 10) (rk := 0)
    (.inl ⟨by decide, Nat.le_trans (by decide) payloadBytes_ge⟩) (by decide) 0
  exact {
    listed := ⟨h.listed.offset_le, fun _ => ⟨by decide, by decide, by decide⟩, fun e => by cases e <;> contradiction,
      fun e => by contradiction, h.listed.progress⟩
    stores := fun r => by cases r <;> exact .nil _
    ranges := ⟨by decide, by decide, by decide, by decide, by decide, by decide, by decide⟩
    outcome := ⟨h.outcome.cmdErr, h.outcome.abortPending, h.outcome.inFlight, h.outcome.complete, h.outcome.failed,
      h.outcome.never⟩
    inFlight := fun hb => by
      obtain ⟨k, f⟩ := h.inFlight hb
      refine ⟨k, f.opkind, f.chan, f.total, fun hp => ?_, fun _ => by decide, fun e => by contradiction, f.finalAck⟩
      have c := f.chunk hp
      exact ⟨c.more, c.len, c.last, c.frameLen, c.rawStart⟩
    counts := ⟨fun k ho _ => by cases ho; rfl, fun k ho _ => by cases ho; rfl, fun e => by contradiction,
      h.counts.total, h.counts.index⟩ }

theorem witness_LastByteOpensTheAckSequence : Inv (given fwLastByte [] [readyInput]) ∧ fwLastByte.phase = .sending ∧
    fwLastByte.opkind = some .firmware ∧ fwLastByte.txPos.toNat + 1 = fwLastByte.frameLen.toNat :=
  ⟨inv_given engineInv_fwLastByte rfl _ _, rfl, rfl, rfl⟩

theorem witness_AckContentIsNeverChecked :
    (rxStep .firmware 0x10 [] (fwWaiting 0 5 0 0)).isOk = true ∧ (rxStep .image 0x10 [] (imageFinal 1 7 6 11 false)).isOk = true :=
  ⟨rfl, rfl⟩

theorem witness_TickCountsDownOrFails :
    ((fwWaiting 0 5 0 0).phase.awaiting = true ∧ (fwWaiting 0 5 0 0).rxTimer = 0 ∧ (fwWaiting 0 5 0 0).rxq = []) ∧
    ({ fwWaiting 0 5 0 0 with rxTimer := 1 } : State).rxTimer ≠ 0 ∧ idleOpen.phase.awaiting = false ∧
    (fwWaiting 0 5 0 0).chan = .opened := ⟨⟨rfl, rfl, rfl⟩, by decide, rfl, rfl⟩

/-- The clauses about a cycle with a byte: it completes a stage, and the timer of the next one is 3, or 0. -/
theorem witness_TickCountsDownOrFails_byte :
    (tickInput.rst = false ∧ tickInput.host = none ∧ tickInput.payloadWrite = none) ∧
    after (cycle { tickInput with tick := false } (given { fwWaiting 0 5 4 4 with rxTimeout := 3 } [0x14] []))
      (fun t => (t.phase.awaiting, t.rxTimer)) = some (true, 3) ∧
    after (cycle { tickInput with tick := false } (given { fwWaiting 0 5 4 4 with rxTimeout := 0 } [0x14] []))
      (fun t => (t.phase.awaiting, t.rxTimer)) = some (true, 0) ∧
    after (cycle { tickInput with tick := false } idleOpen) (fun t => t.phase.awaiting) = some false :=
  ⟨⟨rfl, rfl, rfl⟩, rfl, rfl, rfl⟩

theorem witness_StageFailsAtTheTickAfterTheLast :
    ({ fwWaiting 0 5 0 0 with rxTimer := 2, inputs := List.replicate 3 tickInput } : State).rxTimer.toNat = 2 ∧
    ({ fwWaiting 0 5 0 0 with rxTimer := 2, inputs := List.replicate 3 tickInput } : State).inputs =
      List.replicate (2 + 1) { quietInput true with tick := true } ++ [] := ⟨rfl, rfl⟩

theorem witness_LinkLossClosesTheChannel :
    nextInput (given rawSending [] [quietInput false]) = quietInput false ∧ rawSending.chan = .opened ∧
    rawSending.phase.busy = true ∧ completeOpen.chan = .opened ∧ completeOpen.phase.busy = false ∧
    State.reset.chan = .closing ∧ ({ idleOpen with chan := .closed } : State).chan = .closed :=
  ⟨rfl, rfl, rfl, rfl, rfl, rfl, rfl⟩

/-- A link that is down, the channel closed. -/
def closedDown : State := { idleOpen with chan := .closed, linkUp := false, inputs := [quietInput true] }

theorem witness_LinkOpensAClosedChannel : nextInput closedDown = quietInput true ∧ closedDown.chan = .closed ∧
    closedDown.phase ≠ .failed ∧ closedDown.linkUp = false ∧ Inv closedDown ∧
    ({ failedOpen with chan := .closed } : State).phase = .failed :=
  ⟨rfl, rfl, by decide, rfl, ⟨((engineInv_idleOpen.setChan rfl .closed).frame 0 Config.rxTimeoutReset 0 false [] [] []
    [quietInput true] none 0 (iff_of_true rfl rfl) fun h => by contradiction), fun h => by contradiction, fun _ => rfl⟩, rfl⟩

theorem witness_TransportErrorFailsASend : rawSending.chan = .opened ∧ rawSending.phase = .sending ∧
    nextInput (given rawSending [] [{ quietInput true with txErr := true, txReady := true }]) =
      { quietInput true with txErr := true, txReady := true } ∧
    (fwWaiting 0 5 0 0).phase ≠ .sending := ⟨rfl, rfl, rfl, by decide⟩

theorem witness_LinkLossBeatsTheOtherEvents :
    (nextInput (given rawSending [] [{ tickInput with linkUp := false, txErr := true, txReady := true }])).linkUp = false ∧
    rawSending.chan = .opened ∧ rawSending.phase.busy = true := ⟨rfl, rfl, rfl⟩

theorem witness_SendWithoutReadyWaitsForEver : rawSending.phase = .sending ∧ rawSending.chan = .opened ∧
    (given rawSending [] [tickInput, quietInput true]).inputs = [tickInput] ++ [quietInput true] ∧
    ∀ i ∈ [tickInput], i.rst = false ∧ i.linkUp = true ∧ i.txErr = false ∧ i.txReady = false ∧ i.host = none ∧
      i.payloadWrite = none := ⟨rfl, rfl, rfl, by decide⟩

theorem witness_ClosingWaitsForTheLinkToFall : State.reset.phase.busy = false ∧ State.reset.chan = .closing ∧
    (given State.reset [] [tickInput, quietInput true]).inputs = [tickInput] ++ [quietInput true] ∧
    ∀ i ∈ [tickInput], i.rst = false ∧ i.linkUp = true ∧ i.host = none ∧ i.payloadWrite = none :=
  ⟨rfl, rfl, rfl, by decide⟩

theorem witness_ResetSetsEveryRegister :
    (nextInput (given rawSending [] [{ quietInput true with rst := true }])).rst = true ∧
    (nextInput (given rawSending [] [{ quietInput false with rst := true }])).rst = true := ⟨rfl, rfl⟩

/-- An access of each kind that is not admitted, and the boundary addresses of the buffers that are. -/
theorem witness_AdmittedAccesses : (HostAccess.read .word 0x03C).target? = none ∧
    (HostAccess.write .byte 0x004 0).target? = none ∧ (target? .word 0x038).isSome = true ∧
    (target? .byte 0x083).isSome = true ∧ target? .byte 0x084 = none ∧ (target? .word 0x1F8).isSome = true := by decide

theorem witness_HostReadAnswersAndChangesNothing : target? .word 0x004 = some (.reg .status) ∧
    target? .byte 0x1FE = some (.byte .rawRespPayload 254) := by decide

theorem witness_ReadOnlyWritesHaveNoEffect : target? .word 0x00C = some (.reg .totalLen) ∧
    target? .byte 0x090 = some (.byte .ackBuf 0) ∧ Target.reg .totalLen ≠ .reg .cmd ∧ Target.reg .totalLen ≠ .reg .fwLen ∧
    Target.reg .totalLen ≠ .reg .rxTimeout := by decide

theorem witness_RawBufferWritesByLanes : 0 + 4 ≤ 68 ∧ 64 + 4 ≤ 68 ∧ 64 % 4 = 0 ∧ 67 < 68 ∧ rawBufLocked idleOpen = false ∧
    rawBufLocked (rawWaiting 0 4 0 0) = false := ⟨by decide, by decide, rfl, by decide, rfl, rfl⟩

theorem witness_PayloadPortStoresBelowTheBound : payloadLocked 0 idleOpen = false ∧ payloadLocked 10 (fwWaiting 0 5 0 0) = false ∧
    (134399 : Word).toNat < Config.payloadBytes ∧ Config.payloadBytes ≤ (0xFFFFFFFF : Word).toNat :=
  ⟨rfl, by decide, payloadBytes_ge, Nat.le_of_lt_succ payloadBytes_lt⟩

theorem witness_HazardousWritesAreRefused :
    ((fwWaiting 0 5 0 0).opkind = some .firmware ∧ (fwWaiting 0 5 0 0).phase.busy = true ∧
      (9 : Word).toNat < (fwWaiting 0 5 0 0).totalLen.toNat) ∧
    (rawSending.opkind = some .raw ∧ rawSending.phase = .sending ∧
      target? .byte 0x083 = some (.byte .rawCmdBuf 67) ∧ target? .word 0x040 = some (.word .rawCmdBuf 0)) :=
  ⟨⟨rfl, rfl, by decide⟩, rfl, rfl, by decide, by decide⟩

theorem witness_PayloadCannotBeReadBack : after (step (given rawSending [] [readyInput])) (fun t => t.txPos) = some 1 := rfl

/-- A cycle with everything but a reset and a bus access: a byte arrives, tx_ready, tx_err, a tick and a payload write. -/
def fullInput (linkUp : Bool) : CycleInput :=
  { quietInput linkUp with
    arriving := [0x5A], txErr := true, txReady := true, tick := true, payloadWrite := some ⟨0#32, 0x77#8⟩ }

/-- The hypotheses in IDLE, COMPLETE and FAILED with a payload write, and without one; the link rises and falls in IDLE and
rises in FAILED; the written byte and its neighbour. -/
theorem witness_RestingPhasesHaveNoEngineStep :
    (∀ s ∈ [idleOpen, completeOpen, failedOpen], ∀ up ∈ [true, false],
      (given s [] [fullInput up]).phase.busy = false ∧ (nextInput (given s [] [fullInput up])).rst = false ∧
      (nextInput (given s [] [fullInput up])).host = none) ∧
    (nextInput failedOpen).rst = false ∧ (nextInput failedOpen).host = none ∧ (nextInput failedOpen).payloadWrite = none ∧
    after (step (given { idleOpen with chan := .closed } [] [fullInput true])) (fun t => t.chan) = some .opened ∧
    after (step (given idleOpen [] [fullInput false])) (fun t => t.chan) = some .closed ∧
    after (step (given { failedOpen with chan := .closed } [] [fullInput true])) (fun t => t.chan) = some .closed ∧
    after (step (given failedOpen [] [fullInput true])) (fun t => t.readByte .payload 0) = some (some 0x77#8) :=
  ⟨by decide, rfl, rfl, rfl, rfl, rfl, rfl, rfl⟩

theorem witness_FailedIsLeftOnlyByQuitOrReset : failedOpen.phase = .failed ∧
    after (step (failedOpen.withFetchWord 32 5)) (fun t => t.phase) = some .idle ∧
    after (step (failedOpen.withFetchWord 32 1)) (fun t => t.phase) = some .failed := ⟨rfl, rfl, rfl⟩

theorem witness_OpkindIsWrittenByCommandsOnly : after (step (idleOpen.withFetchWord 32 0x303)) (fun t => t.opkind)
    = some (some .raw) ∧ idleOpen.opkind = none := ⟨rfl, rfl⟩

theorem witness_EveryStepKeepsTheInvariant : Inv (given rawSending [] [readyInput]) ∧
    after (step (given rawSending [] [readyInput])) (fun t => t.phase) = some .sending :=
  ⟨inv_starting (k := .raw) (total := 68) (rk := 3) rfl (by decide) _ _, rfl⟩

theorem witness_NoStepFaultsUnderTheInvariant : Inv (given (imageFinal 1 7 6 11 true) [0xCB] [quietInput true]) :=
  inv_waiting _ _ _ (waitingOk_final rfl (by decide) rfl (by decide))

theorem witness_ListedInvariantsInReachableStates : Reachable { State.reset with inputs := [quietInput true] } := .reset _

/-- A chunk length of 0, where OFFSET is TOTAL_LEN already; none is above the maximum, which `chunk_len()` bounds it by (R111). -/
theorem witness_ListedInvariantsInReachableStates_chunk : chunkLenOf .image idleOpen = 0 := rfl

/-- A raw command whose response is complete. -/
def rawComplete : State := finish .ok { ackChunk (rawWaiting 1 1 0 0) with rxGot := 1, rxCount := 5 }

theorem witness_WireTotalsOfACompletedTransfer : EngineInv rawComplete ∧ rawComplete.phase = .complete ∧
    rawComplete.result = .ok ∧ rawComplete.opkind = some .raw ∧ rawComplete.txCount = 68 ∧ rawComplete.rxCount = 5 := by
  have h := engineInv_waiting false (waitingOk_raw (stage := 1) (need := 1) (got := 0) (resp := 0) rfl (by decide) (by decide))
  obtain ⟨k, r, hg⟩ := h.receiving rfl
  obtain rfl : Kind.raw = k := Option.some.inj r.opkind
  obtain ⟨t, ht, hi⟩ := r.rxStep hg 0 []
  have e : rxStep .raw 0 [] (rawWaiting 1 1 0 0) = .ok { rawComplete with rxh := [0] } := rfl
  have e' : t = { rawComplete with rxh := [0] } := Except.ok.inj (ht.symm.trans e)
  rw [e'] at hi
  exact ⟨hi.frame 0 Config.rxTimeoutReset 0 true [] [] [] [] none 0 (iff_of_true rfl rfl) fun h => by contradiction,
    rfl, rfl, rfl, rfl, rfl⟩

theorem witness_EveryStepKeepsTheWireStream : Inv (given rawSending [] [readyInput]) ∧
    WireOk (given rawSending [] [readyInput]) := by
  refine ⟨inv_starting (k := .raw) (total := 68) (rk := 3) rfl (by decide) _ _, fun _ k ho _ => ?_⟩
  obtain rfl : Kind.raw = k := Option.some.inj ho
  exact List.nil_suffix

/-- The last ack byte of a firmware of 10 bytes, with its frame on the wire. -/
def fwEnding : State :=
  given { fwWaiting 1 2 1 6 with txh := frameAt .firmware idleOpen 10 0 } [0x16] [quietInput true]

theorem witness_CompletedTransferHasSentItsFrames : Inv fwEnding ∧ WireOk fwEnding ∧ fwEnding.phase.busy = true ∧
    (nextInput fwEnding).rst = false ∧
    (engineEvents (nextInput fwEnding) (started fwEnding)).toOption.map (fun u => (u.phase, u.result)) =
      some (.complete, .ok) := by
  refine ⟨⟨(inv_waiting false [0x16] [quietInput true] (waitingOk_fw rfl (by decide) rfl (by decide))).engine.frame 0
    Config.rxTimeoutReset 0 true _ _ [] _ none 0 (iff_of_true rfl rfl) (fun _ => rfl), fun _ => rfl,
    fun h => by contradiction⟩, fun _ k ho _ => ?_, rfl, rfl, rfl⟩
  obtain rfl : Kind.firmware = k := Option.some.inj ho
  have hl : (frameAt .firmware idleOpen 10 0).length = 18 := rfl
  show [] ++ (frameAt .firmware idleOpen 10 0).take 18 <:+ frameAt .firmware idleOpen 10 0
  rw [List.nil_append, ← hl, List.take_length]

/-- A raw command with 67 of its 68 frame bytes out. -/
def rawLastByte : State :=
  { rawSending with txPos := 67, txCount := 67, txh := (rawFrame rawSending).take 67, inputs := [readyInput] }

theorem engineInv_rawLastByte : EngineInv rawLastByte := by
  have h : EngineInv (starting .raw 68 3) :=
    engineInv_idleOpen.startTransfer (k := .raw) (w := 68) (rk := 3) (.inl rfl) (by decide) 0
  exact {
    listed := ⟨h.listed.offset_le, fun _ => ⟨by decide, by decide, by decide⟩, fun e => by cases e <;> contradiction,
      fun e => by contradiction, h.listed.progress⟩
    stores := fun r => by cases r <;> exact .nil _
    ranges := ⟨by decide, by decide, by decide, by decide, by decide, by decide, by decide⟩
    outcome := ⟨h.outcome.cmdErr, h.outcome.abortPending, h.outcome.inFlight, h.outcome.complete, h.outcome.failed,
      h.outcome.never⟩
    inFlight := fun hb => by
      obtain ⟨k, f⟩ := h.inFlight hb
      refine ⟨k, f.opkind, f.chan, f.total, fun hp => ?_, fun _ => by decide, fun e => by contradiction, f.finalAck⟩
      have c := f.chunk hp
      exact ⟨c.more, c.len, c.last, c.frameLen, c.rawStart⟩
    counts := ⟨fun k ho _ => by cases ho; rfl, fun k ho _ => by cases ho; rfl, fun e => by contradiction,
      h.counts.total, h.counts.index⟩ }

/-- The clause of the RAW frame. -/
theorem witness_CompletedTransferHasSentItsFrames_raw : Inv rawLastByte ∧ WireOk rawLastByte ∧
    rawLastByte.phase = .sending ∧ rawLastByte.opkind = some .raw ∧
    after (step rawLastByte) (fun t => t.phase) = some .awaitAck := by
  refine ⟨⟨engineInv_rawLastByte, fun _ => rfl, fun h => by contradiction⟩, fun _ k ho _ => ?_, rfl, rfl, rfl⟩
  obtain rfl : Kind.raw = k := Option.some.inj ho
  exact List.suffix_refl _

/-- The clause of a run: UPDATE_FW of length 0 ends in the cycle of its command. -/
theorem witness_CompletedTransferHasSentItsFrames_run : Inv (given idleOpen [] [commandInput 2]) ∧
    WireOk (given idleOpen [] [commandInput 2]) ∧
    (operationEnd 0 (given idleOpen [] [commandInput 2])).map (fun u => (u.opkind, u.result)) =
      some (some .firmware, .ok) := ⟨inv_given engineInv_idleOpen rfl _ _, fun h => by contradiction, rfl⟩

/-! ### Runs (R252) -/

theorem test_operation_ends_before_the_host_access :
    (operationEndWithin 1 { fwEnding with inputs := [commandInput 1] }).map (fun u => (u.phase, u.result, u.offset)) =
      some (.complete, .ok, 10) := rfl
theorem test_operation_without_channel : (operationOutcome 0 (given State.reset [] [commandInput 1])).map (fun o => o.result)
    = some .connectionError := rfl
theorem test_no_operation_in_a_rejected_command : operationEnd 3 (given failedOpen [] [commandInput 1]) = none := rfl
theorem test_reset_ends_no_operation :
    operationEndWithin 3 (given rawSending [] [{ quietInput true with rst := true }, commandInput 2]) = none := rfl
theorem test_session_ends_closed : (sessionEnd 1 (given idleOpen [] [commandInput 5, quietInput false])).map
    (fun u => (u.phase, u.chan)) = some (.idle, .closed) := rfl
/-- A command while CHAN is CLOSING fails, and the session still ends where CHAN becomes CLOSED. -/
theorem test_session_ends_after_a_failed_command :
    (sessionEnd 2 (given idleOpen [] [commandInput 5, commandInput 1, quietInput false])).map (fun u => (u.phase, u.chan)) =
      some (.failed, .closed) := rfl
/-- Without QUIT no session ends, closed as CHAN becomes. -/
theorem test_no_session_end_without_quit : sessionEnd 3 (given State.reset [] [quietInput false]) = none := rfl

end Sys2Proof.Tests
end

section
/-! The state as a whole (spec/10_state.md): what keeps its invariant, what the commands and the host's writes leave
unchanged, and the registers made of fields. -/

namespace Sys2Proof.Machine

/-! ### The link event -/

/-- What the link event can do (R218, R219): nothing, open a closed channel, close one, or fail the operation in
flight. -/
theorem linkEvent_cases (s : State) :
    linkEvent s = s ∨
    s.linkUp = true ∧ s.chan = .closed ∧ s.phase ≠ .failed ∧ linkEvent s = { s with chan := .opened } ∨
    s.linkUp = false ∧ s.chan ≠ .closed ∧ linkEvent s = { s with chan := .closed } ∨
    s.linkUp = false ∧ s.chan = .opened ∧ s.phase.busy = true ∧
      linkEvent s = fail .connectionError { s with chan := .closed } := by
  cases hl : s.linkUp with
  | true =>
    by_cases hc : s.chan = .closed ∧ s.phase ≠ .failed
    · simp [linkEvent, linkOpen, hl, hc]
    · simp only [linkEvent, linkOpen, hl, if_true, if_neg hc, true_or]
  | false =>
    cases hc : s.chan with
    | closed => simp [linkEvent, linkDown, hl, hc]
    | closing => simp [linkEvent, linkDown, hl, hc]
    | opened => cases hb : s.phase.busy <;> simp [linkEvent, linkDown, hl, hc, hb]

@[simp] theorem linkEvent_opkind (s : State) : (linkEvent s).opkind = s.opkind := by
  rcases linkEvent_cases s with e | ⟨_, _, _, e⟩ | ⟨_, _, e⟩ | ⟨_, _, _, e⟩ <;> simp [e]

@[simp] theorem linkEvent_linkUp (s : State) : (linkEvent s).linkUp = s.linkUp := by
  rcases linkEvent_cases s with e | ⟨_, _, _, e⟩ | ⟨_, _, e⟩ | ⟨_, _, _, e⟩ <;> simp [e]

@[simp] theorem linkEvent_rxq (s : State) : (linkEvent s).rxq = s.rxq := by
  rcases linkEvent_cases s with e | ⟨_, _, _, e⟩ | ⟨_, _, e⟩ | ⟨_, _, _, e⟩ <;> simp [e]

/-! ### The engine's events and the queue -/

theorem txEvent_rxq {r : Bool} {s t : State} (h : txEvent r s = .ok t) : t.rxq = s.rxq := by
  rcases txEvent_cases h with rfl | ⟨k, _, _, _, _, h⟩
  · rfl
  · exact txStep_rxq h

/-- The engine's events put no byte into RXQ. -/
theorem engineEvents_rxq {i : CycleInput} {s t : State} (h : engineEvents i s = .ok t) (hq : s.rxq = []) :
    t.rxq = [] := by
  obtain ⟨a, b, ha, hb, rfl⟩ := engineEvents_cases h
  have hlink : (txErrEvent i.txErr (linkEvent s)).rxq = [] := by
    rw [(progressOnly_txErrEvent _ _).wire.rxq, linkEvent_rxq, hq]
  rw [(progressOnly_tickEvent i.tick b).wire.rxq, txEvent_rxq hb, rxEvent_rxq ha hlink]

/-- RXQ is empty where the cycle's link is down (R48). -/
theorem environmentEvent_rxq_of_down {i : CycleInput} (s : State) (h : i.linkUp = false) :
    (environmentEvent i s).rxq = [] := by
  simp [h]

/-! ### The commands -/

/-- What a command does once it is accepted (R181 to R186). -/
def commandBody : Instr → State → State
  | .nop, s => s
  | .sendImage, s => startTransfer .image (BitVec.ofNat 32 Config.imageBytes) s
  | .updateFw, s => startTransfer .firmware s.fwLen s
  | .rawCmd k, s => startRaw k s
  | .abort, s => requestAbort s
  | .quit, s => leaveSession s

/-- Why a command is rejected, if it is (R180, R215). -/
def commandCause : Instr → State → Cause
  | .nop, _ => .none
  | .sendImage, s => transferCause s
  | .updateFw, s => updateFwCause s
  | .rawCmd k, s => rawCmdCause k s
  | .abort, _ => .none
  | .quit, s => quitCause s

theorem exec_eq_runCommand (i : Instr) (s : State) :
    exec i s = runCommand (commandCause i s) (commandBody i) s := by
  cases i with
  | updateFw =>
    show runCommand (updateFwCause s) _ s = runCommand (updateFwCause s) _ s
    cases updateFwCause s <;> rfl
  | _ => rfl

/-- A command is accepted and carried out, or rejected with its cause (R180). -/
theorem exec_cases {i : Instr} {s t : State} (h : exec i s = .next t) :
    commandCause i s = .none ∧ t = commandBody i (accept s) ∨
      commandCause i s ≠ .none ∧ t = reject (commandCause i s) s :=
  runCommand_cases (exec_eq_runCommand i s ▸ h)

/-- Past the fresh TransferState, the start of a transfer moves progress registers only (R188). -/
theorem progressOnly_startTransfer (k : Kind) (w : Word) (s : State) :
    ProgressOnly (freshTransfer k w s) (startTransfer k w s) := by
  unfold startTransfer
  dsimp only
  split
  · exact progressOnly_fail _ _
  · split
    · exact progressOnly_finish _ _
    · exact progressOnly_setupChunk k _

theorem requestAbort_eq (s : State) : requestAbort s = { s with abortPending := s.phase.busy || s.abortPending } := by
  unfold requestAbort
  cases h : s.phase.busy <;> simp

theorem commandBody_chan {i : Instr} (h : i ≠ .quit) (s : State) : (commandBody i s).chan = s.chan := by
  cases i with
  | nop => rfl
  | sendImage => exact (progressOnly_startTransfer _ _ s).engine.chan
  | updateFw => exact (progressOnly_startTransfer _ _ s).engine.chan
  | rawCmd k => exact (progressOnly_startTransfer _ _ { s with rawK := k.setWidth 7, rawRespLen := 0 }).engine.chan
  | abort => simp [commandBody, requestAbort_eq]
  | quit => exact absurd rfl h

theorem commandBody_raw {i : Instr} (h : ∀ k, i ≠ .rawCmd k) (s : State) :
    (commandBody i s).rawK = s.rawK ∧ (commandBody i s).rawRespLen = s.rawRespLen := by
  cases i with
  | nop => exact ⟨rfl, rfl⟩
  | sendImage =>
    have g := progressOnly_startTransfer .image (BitVec.ofNat 32 Config.imageBytes) s
    exact ⟨g.engine.rawK, g.wire.rawRespLen⟩
  | updateFw =>
    have g := progressOnly_startTransfer .firmware s.fwLen s
    exact ⟨g.engine.rawK, g.wire.rawRespLen⟩
  | rawCmd k => exact absurd rfl (h k)
  | abort => simp [commandBody, requestAbort_eq]
  | quit => exact ⟨rfl, rfl⟩

/-- NOP and ABORT leave OPKIND (R22). -/
theorem exec_opkind {i : Instr} {s t : State} (h : exec i s = .next t) (hi : i = .nop ∨ i = .abort) :
    t.opkind = s.opkind := by
  rcases exec_cases h with ⟨_, rfl⟩ | ⟨_, rfl⟩
  · rcases hi with rfl | rfl
    · rfl
    · simp [commandBody, requestAbort_eq]
  · rfl

/-- The stores after a command are those before it. -/
theorem CommandFrame.mem {s t : State} (h : CommandFrame s t) (r : Region) : t.mem r = s.mem r := by
  cases r with
  | payload => exact h.payload
  | rawCmdBuf => exact h.rawCmdBuf
  | rawRespHdr => exact h.rawRespHdr
  | ackBuf => exact h.ackBuf
  | rawRespPayload => exact h.rawRespPayload

/-! ### Host accesses -/

/-- A write that the model admits is the host write of its target (R190). -/
theorem hostEvent_write {size : Size} {a : BitVec 12} {tg : Target} {s : State} (h : target? size a = some tg)
    (hl : (tg.inRawCmdBuf && rawBufLocked s) = false) (w : Word) :
    hostEvent (some (.write size a w)) s = hostWrite tg w { s with busResp := some ⟨false, none⟩ } := by
  simp [hostEvent, accessRefusal?, busAccess, HostAccess.target?, h, hl]

theorem regAt?_cmd {n : Nat} (h : regAt? n = some .cmd) : n = 0 := by
  unfold regAt? at h
  split at h <;> first | rfl | cases h

/-- CMD is reached by a word access to offset 0 only (R51, R63). -/
theorem target?_cmd {size : Size} {a : BitVec 12} (h : target? size a = some (.reg .cmd)) :
    size = .word ∧ a = 0x000#12 := by
  cases size with
  | byte => simp [target?] at h
  | word =>
    refine ⟨rfl, BitVec.eq_of_toNat_eq (regAt?_cmd ?_)⟩
    simp only [target?] at h
    split at h
    · split at h
      · next r hr => simpa [hr] using h
      · simp at h
    · cases h

@[simp] theorem writeWord_opkind (r : Region) (i : Nat) (w : Word) (s : State) :
    (writeWord r i w s).opkind = s.opkind := by
  simp [writeWord]

@[simp] theorem payloadPort_opkind (p : PayloadWrite) (s : State) : (payloadPort p s).opkind = s.opkind := by
  unfold payloadPort
  split
  · exact writeByte_opkind _ _ _ _
  · rfl

theorem payloadEvent_opkind {p : Option PayloadWrite} {s t : State} (h : payloadEvent p s = .next t) :
    t.opkind = s.opkind := by
  rcases payloadEvent_cases h with ⟨_, rfl⟩ | ⟨p, _, _, rfl⟩
  · rfl
  · exact payloadPort_opkind p s

/-- A word written to CMD leaves OPKIND unless it is a transfer command or QUIT (R22). -/
theorem dispatch_opkind {w : Word} {s t : State} (h : dispatch w s = .next t) :
    t.opkind = s.opkind ∨ ∃ i, decode w = .ok i ∧ i ≠ .nop ∧ i ≠ .abort := by
  rcases dispatch_cases w s with ⟨i, hi, e⟩ | ⟨_, e⟩ <;> rw [e] at h
  · by_cases hk : i = .nop ∨ i = .abort
    · exact .inl (exec_opkind h hk)
    · exact .inr ⟨i, hi, not_or.1 hk⟩
  · cases h
    exact .inl rfl

/-- A host access leaves OPKIND unless it writes a transfer command or QUIT to CMD (R22). -/
theorem hostEvent_opkind {a : Option HostAccess} {s t : State} (h : hostEvent a s = .next t) :
    t.opkind = s.opkind ∨
      ∃ w i, a = some (.write .word 0x000#12 w) ∧ decode w = .ok i ∧ i ≠ .nop ∧ i ≠ .abort := by
  rcases hostEvent_cases h with ⟨_, rfl⟩ | ⟨_, _, _, _, _, rfl⟩ | ⟨size, addr, w, tg, rfl, htg, _, hw⟩
  · exact .inl rfl
  · exact .inl rfl
  · rcases hostWrite_cases (t := tg) (w := w) (s := { s with busResp := some ⟨false, none⟩ }) with
      ⟨rfl, e⟩ | ⟨_, e⟩ | ⟨_, e⟩ | ⟨i, _, e⟩ | ⟨i, _, e⟩ | e <;> rw [e] at hw
    · obtain ⟨rfl, rfl⟩ := target?_cmd htg
      exact (dispatch_opkind hw).imp_right fun ⟨i, hi⟩ => ⟨w, i, rfl, hi⟩
    all_goals
      rw [← Host.Outcome.next.inj hw]
      exact .inl (by simp)

end Sys2Proof.Machine

namespace Sys2Proof.Safety

open Sys2Proof.Machine

/-! ### The invariant of the machine -/

/-- The engine's invariant does not speak of the count of resets. -/
theorem EngineInv.setResets {s : State} (h : EngineInv s) (n : Nat) : EngineInv { s with resets := n } where
  listed := ⟨h.listed.offset_le, h.listed.chunk, h.listed.awaiting, h.listed.finalAck, h.listed.progress⟩
  stores r := by cases r <;> first
    | exact h.stores .payload
    | exact h.stores .rawCmdBuf
    | exact h.stores .rawRespHdr
    | exact h.stores .ackBuf
    | exact h.stores .rawRespPayload
  ranges := ⟨h.ranges.chunkLen, h.ranges.frameLen, h.ranges.txPos, h.ranges.rxStage, h.ranges.rxGot, h.ranges.ackPos,
    h.ranges.rawK⟩
  outcome := ⟨h.outcome.cmdErr, h.outcome.abortPending, h.outcome.inFlight, h.outcome.complete, h.outcome.failed,
    h.outcome.never⟩
  inFlight hb := by
    obtain ⟨k, f⟩ := h.inFlight hb
    exact ⟨k, f.opkind, f.chan, f.total,
      fun hp => ⟨(f.chunk hp).more, (f.chunk hp).len, (f.chunk hp).last, (f.chunk hp).frameLen,
        (f.chunk hp).rawStart⟩, f.sending,
      fun hp => ⟨(f.stage hp).need, (f.stage hp).got, (f.stage hp).sent, (f.stage hp).ackPos⟩, f.finalAck⟩
  counts := ⟨h.counts.tx, h.counts.rx, h.counts.done, h.counts.total, h.counts.index⟩

theorem inv_reset (inputs : List CycleInput) : Inv { State.reset with inputs := inputs } where
  engine := (engineInv_resetEvent { State.reset with inputs := inputs }).setResets 0
  link h := by cases h
  queue _ := rfl

/-- A reset cycle leaves the invariant: CHAN is CLOSING, and RXQ is what the transport made it. -/
theorem inv_resetEvent (i : CycleInput) (s : State) : Inv (resetEvent (environmentEvent i s)) where
  engine := engineInv_resetEvent _
  link h := by cases h
  queue h := environmentEvent_rxq_of_down s h

/-- A cycle without reset keeps the invariant: the engine's part event by event; an open channel was open after the link
event, and a queue that the transport emptied is still empty. -/
theorem EngineInv.inv_cycle {s u t : State} {i : CycleInput} (h : EngineInv s)
    (hu : Machine.engineEvents i (Machine.environmentEvent i s) = .ok u) (ht : Machine.hostEvents i u = .next t) :
    Inv t := by
  have hf := engineFrame_engineEvents hu
  have hh := hostFrame_hostEvents ht
  have hup : t.linkUp = i.linkUp := by rw [hh.linkUp, hf.linkUp, linkEvent_linkUp]; rfl
  obtain ⟨u', hu', hi⟩ := (h.environmentEvent i).engineEvents i
  obtain rfl : u' = u := Except.ok.inj (hu'.symm.trans hu)
  refine ⟨hi.hostEvents ht, fun hc => ?_, fun hl => ?_⟩
  · have huc : u'.chan = .opened := by
      rcases hh.chan with e | ⟨e, _⟩
      · rw [← e, hc]
      · exact e
    rw [hup]
    simpa using linkEvent_opened (hf.chan.symm.trans huc)
  · rw [hh.rxq]
    exact engineEvents_rxq hu (environmentEvent_rxq_of_down s (hup.symm.trans hl))

/-- Settles O55: the cases of a step, reset and the events of R220. -/
theorem everyStepKeepsTheInvariant : Obligations.EveryStepKeepsTheInvariant := by
  unfold Obligations.EveryStepKeepsTheInvariant
  intro s t h ht
  rcases step_cases ht with ⟨_, rfl⟩ | ⟨_, u, hu, hh⟩
  · exact inv_resetEvent _ _
  · exact h.engine.consumeInput.inv_cycle hu hh

/-- The invariant holds in every state reached from reset. -/
theorem Reachable.inv {s : State} (h : Reachable s) : Inv s := by
  induction h with
  | reset inputs => exact inv_reset inputs
  | step s t _ ht ih => exact everyStepKeepsTheInvariant s t ih ht

/-- Chunk setup on a length of 0 or above the kind's maximum (R213). -/
theorem setupChunk_of_bad {k : Kind} {s : State} (h : badChunkLen k (chunkLenOf k s) = true) :
    setupChunk k s = fail .invalidChunkBoundary s := by
  unfold setupChunk
  exact if_pos h

/-- Settles O57: the invariant's first part, and the length check of chunk setup. -/
theorem listedInvariantsInReachableStates : Obligations.ListedInvariantsInReachableStates := by
  unfold Obligations.ListedInvariantsInReachableStates
  refine ⟨fun s h => ⟨h.inv.engine.listed, h.inv.engine.outcome.never⟩, fun k s hbad => ?_⟩
  exact setupChunk_of_bad (by simpa [badChunkLen] using hbad)

/-! ### What commands and host accesses leave unchanged -/

/-- Settles O16: the frame of every command; CHAN and the two raw registers by command. -/
theorem commandsLeaveTheRestUnchanged : Obligations.CommandsLeaveTheRestUnchanged := by
  unfold Obligations.CommandsLeaveTheRestUnchanged
  intro i s t h
  have g := commandFrame_exec h
  refine ⟨fun r a => readByte_congr (g.mem r) g.resets a, g.mem, g.fwLen, g.rxTimeout, g.linkUp, g.rxq, g.txh, g.rxh,
    g.inputs, g.busResp, g.resets, g.busErrors, fun hq => ?_, fun hr => ?_⟩ <;>
    rcases exec_cases h with ⟨_, rfl⟩ | ⟨_, rfl⟩
  · exact commandBody_chan hq (accept s)
  · rfl
  · exact commandBody_raw hr (accept s)
  · exact ⟨rfl, rfl⟩

/-- Settles O53: neither the engine's events nor the payload port write OPKIND, and a host access does so by a transfer
command or QUIT. -/
theorem opkindIsWrittenByCommandsOnly : Obligations.OpkindIsWrittenByCommandsOnly := by
  unfold Obligations.OpkindIsWrittenByCommandsOnly
  intro s t ht hne
  rcases step_cases ht with ⟨hr, _⟩ | ⟨_, u, hu, hh⟩
  · exact .inl hr
  · have hopu : u.opkind = s.opkind := by rw [(engineFrame_engineEvents hu).opkind, linkEvent_opkind]; rfl
    obtain ⟨v, hv, hp⟩ := hostEvents_cases hh
    refine .inr ((hostEvent_opkind hv).resolve_left fun hopv => hne ?_)
    rw [payloadEvent_opkind hp, hopv, hopu]

/-- Settles O45: of the cases of a host write only the last, which does nothing, has a read-only target. -/
theorem readOnlyWritesHaveNoEffect : Obligations.ReadOnlyWritesHaveNoEffect := by
  unfold Obligations.ReadOnlyWritesHaveNoEffect
  intro s size a w tg htg hcmd hfw hrt hbyte hword
  have hbuf : tg.inRawCmdBuf = false := by
    unfold Target.inRawCmdBuf
    split
    · next i => exact absurd rfl (hbyte i)
    · next i => exact absurd rfl (hword i)
    · rfl
  rw [hostEvent_write htg (by rw [hbuf]; rfl)]
  rcases hostWrite_cases (t := tg) (w := w) (s := { s with busResp := some ⟨false, none⟩ }) with
    ⟨e, _⟩ | ⟨e, _⟩ | ⟨e, _⟩ | ⟨i, e, _⟩ | ⟨i, e, _⟩ | h
  · exact absurd e hcmd
  · exact absurd e hfw
  · exact absurd e hrt
  · exact absurd e (hbyte i)
  · exact absurd e (hword i)
  · exact h

/-- Settles O46: the targets of the two offsets are FW_LEN and RX_TIMEOUT. -/
theorem configurationWritesStore : Obligations.ConfigurationWritesStore := by
  unfold Obligations.ConfigurationWritesStore
  intro s w
  have hfw : target? .word 0x030#12 = some (.reg .fwLen) := rfl
  have hrt : target? .word 0x034#12 = some (.reg .rxTimeout) := rfl
  exact ⟨hostEvent_write hfw rfl w, hostEvent_write hrt rfl w⟩

/-! ### Registers made of fields -/

/-- Settles O41: a field of STATUS lies above the fields appended after it and below those before it, which the two
append laws drop. -/
theorem statusFields : Obligations.StatusFields := by
  unfold Obligations.StatusFields
  refine ⟨fun s => ?_, by decide⟩
  simp (disch := decide) only [statusWord, BitVec.extractLsb'_append_eq_of_add_le,
    BitVec.extractLsb'_append_eq_of_le]
  simp

/-- Settles O42, as O41: each field is what remains when those above and below it are dropped. -/
theorem positionRegisterFields : Obligations.PositionRegisterFields := by
  unfold Obligations.PositionRegisterFields
  refine ⟨fun s => ?_, by decide⟩
  simp (disch := decide) only [framePosWord, rxStatWord, rawStatWord, BitVec.extractLsb'_append_eq_of_add_le,
    BitVec.extractLsb'_append_eq_of_le]
  simp

end Sys2Proof.Safety
end

section
/-! The host register space and the payload space (spec/20_memory.md): which accesses have a target, what a word or byte
written to a store leaves, and that under the invariant the host's events and the engine's do not fault. -/

namespace Sys2Proof.Machine

/-! ### The admitted accesses -/

theorem bufferAt?_ne_none_iff (a n : Nat) :
    bufferAt? a n ≠ none ↔ ∃ b ∈ hostBuffers, b.2.1 ≤ a ∧ a + n ≤ b.2.1 + b.2.2 := by
  simp [bufferAt?]

/-- No two buffers overlap (R51). -/
theorem hostBuffers_disjoint : ∀ b ∈ hostBuffers, ∀ c ∈ hostBuffers,
    b = c ∨ b.2.1 + b.2.2 ≤ c.2.1 ∨ c.2.1 + c.2.2 ≤ b.2.1 := by
  decide

/-- An access inside a buffer is found there, with the index of its first byte: no other buffer holds that byte. -/
theorem bufferAt?_of_mem {r : Region} {base len i n : Nat} (hb : (r, base, len) ∈ hostBuffers) (hn : 0 < n)
    (hi : i + n ≤ len) : bufferAt? (base + i) n = some (r, i) := by
  cases hf : hostBuffers.find? fun b => decide (b.2.1 ≤ base + i) && decide (base + i + n ≤ b.2.1 + b.2.2) with
  | none =>
    have h := List.find?_eq_none.1 hf _ hb
    simp only [Bool.and_eq_true, decide_eq_true_eq] at h
    omega
  | some c =>
    have hc := List.find?_some hf
    simp only [Bool.and_eq_true, decide_eq_true_eq] at hc
    have he : (r, base, len) = c := by
      refine (hostBuffers_disjoint _ hb _ (List.mem_of_find?_eq_some hf)).resolve_right fun h => ?_
      simp only at h
      omega
    rw [bufferAt?, hf, ← he, Option.map_some, Nat.add_sub_cancel_left]

/-- The aligned offsets with a register are those up to RAWSTAT at 0x038 (R51). -/
theorem regAt?_ne_none_iff {n : Nat} (h : n % 4 = 0) : regAt? n ≠ none ↔ n ≤ 0x03B := by
  constructor
  · intro hr
    unfold regAt? at hr
    split at hr
    case h_16 => exact absurd rfl hr
    all_goals decide
  · have hq : ∀ q < 15, regAt? (4 * q) ≠ none := by decide
    intro hn
    have hreg := hq (n / 4) (by omega)
    rwa [Nat.mul_div_cancel' (Nat.dvd_of_mod_eq_zero h)] at hreg

theorem target?_byte_ne_none_iff (a : BitVec 12) :
    target? .byte a ≠ none ↔ bufferAt? a.toNat 1 ≠ none := by
  simp [target?]

theorem target?_word_ne_none_iff (a : BitVec 12) :
    target? .word a ≠ none ↔ a.toNat % 4 = 0 ∧ (a.toNat ≤ 0x03B ∨ bufferAt? a.toNat 4 ≠ none) := by
  unfold target?
  by_cases h : a.toNat % 4 = 0
  · rw [← regAt?_ne_none_iff h]
    cases hr : regAt? a.toNat <;> simp [h]
  · simp [h]

/-- An access without a target gets a bus error from the hardware (R63). -/
theorem busAccess_of_no_target {acc : HostAccess} (h : acc.target? = none) (s : State) :
    busAccess acc s = .next (busError acc s) := by
  unfold busAccess
  rw [h]

/-- An access without a target is refused by the model (R63). -/
theorem hostEvent_of_no_target {acc : HostAccess} (h : acc.target? = none) (s : State) :
    hostEvent (some acc) s = .refused .accessNotAdmitted := by
  simp [hostEvent, accessRefusal?, h]

theorem busError_eq (acc : HostAccess) (s : State) :
    ∃ d, busError acc s = { s with busResp := some ⟨true, d⟩, busErrors := s.busErrors + 1 } := by
  cases acc <;> exact ⟨_, rfl⟩

/-! ### Bytes and words of a buffer -/

/-- A byte of RAW_CMD_BUF is reached at its offset (R43). -/
theorem target?_rawCmdBuf_byte {i : Nat} (hi : i < 68) :
    target? .byte (BitVec.ofNat 12 (0x040 + i)) = some (.byte .rawCmdBuf i) := by
  have ha : (BitVec.ofNat 12 (0x040 + i)).toNat = 0x040 + i := Nat.mod_eq_of_lt (by omega)
  have hb : bufferAt? (0x040 + i) 1 = some (.rawCmdBuf, i) :=
    bufferAt?_of_mem (List.mem_cons_self ..) Nat.one_pos hi
  simp only [target?, ha, hb, Option.map_some]

/-- An aligned word of RAW_CMD_BUF is reached at the offset of its first byte (R43, R63). -/
theorem target?_rawCmdBuf_word {i : Nat} (hi : i + 4 ≤ 68) (h4 : i % 4 = 0) :
    target? .word (BitVec.ofNat 12 (0x040 + i)) = some (.word .rawCmdBuf i) := by
  have ha : (BitVec.ofNat 12 (0x040 + i)).toNat = 0x040 + i := Nat.mod_eq_of_lt (by omega)
  have hal : (0x040 + i) % 4 = 0 := by omega
  have hr : regAt? (0x040 + i) = none := by
    by_contra h
    have hle := (regAt?_ne_none_iff hal).1 h
    omega
  have hb : bufferAt? (0x040 + i) 4 = some (.rawCmdBuf, i) :=
    bufferAt?_of_mem (List.mem_cons_self ..) (by decide) hi
  simp only [target?, ha, hal, hr, hb, if_true, Option.map_some]

/-- The four bytes from the index of a written word on are its lanes (R66). -/
theorem readByte_writeWord_lane (r : Region) (i : Nat) (w : Word) (s : State) {j : Nat} (hj : j < 4) :
    (writeWord r i w s).readByte r (i + j) = lane w j := by
  have h : j = 0 ∨ j = 1 ∨ j = 2 ∨ j = 3 := by omega
  rcases h with rfl | rfl | rfl | rfl <;> simp [writeWord, readByte_writeByte]

/-- Every byte but those four is as it was. -/
theorem readByte_writeWord_of_outside {r q : Region} {i a : Nat} (w : Word) (s : State)
    (h : q ≠ r ∨ a < i ∨ i + 4 ≤ a) : (writeWord r i w s).readByte q a = s.readByte q a := by
  have hne {b : Nat} (hb : i ≤ b) (hb' : b < i + 4) : ¬ (q = r ∧ a = b) := by
    rintro ⟨rfl, rfl⟩
    rcases h with h | h | h
    · exact h rfl
    all_goals omega
  unfold writeWord
  repeat rw [readByte_writeByte, if_neg (hne (by omega) (by omega))]

/-- The four lanes of a word, last first, are the word (R66). -/
theorem lanes_append (w : Word) : lane w 3 ++ lane w 2 ++ lane w 1 ++ lane w 0 = w := by
  simp (disch := rfl) only [lane, BitVec.extractLsb'_append_extractLsb'_eq_extractLsb']
  exact BitVec.extractLsb'_eq_self

/-- A word written to a buffer reads back (R66). -/
theorem targetRead_writeWord (r : Region) (i : Nat) (w : Word) (s : State) :
    targetRead (.word r i) (writeWord r i w s) = w := by
  have h (j : Nat) (hj : j < 4) := readByte_writeWord_lane r i w s hj
  have h0 : (writeWord r i w s).readByte r i = lane w 0 := h 0 (by decide)
  rw [targetRead, h 3 (by decide), h 2 (by decide), h 1 (by decide), h0, lanes_append]

/-- A byte written to RAW_CMD_BUF leaves every register and every other store. -/
theorem writeByte_rawCmdBuf (s : State) (i : Nat) (b : Byte) :
    s.writeByte .rawCmdBuf i b = { s with rawCmdBuf := Memory.write s.rawCmdBuf i b } := rfl

/-- A word written to RAW_CMD_BUF leaves every register and every other store. -/
theorem writeWord_rawCmdBuf (i : Nat) (w : Word) (s : State) :
    ∃ m, writeWord .rawCmdBuf i w s = { s with rawCmdBuf := m } := by
  simp only [writeWord, writeByte_rawCmdBuf]
  exact ⟨_, rfl⟩

/-- The answer on the host bus is no byte of a store. -/
theorem readByte_busResp (s : State) (x : Option BusResponse) (r : Region) (a : Nat) :
    State.readByte { s with busResp := x } r a = s.readByte r a :=
  readByte_congr (by cases r <;> rfl) rfl a

/-! ### The payload port -/

/-- A payload-port write that is no hazard is carried out (R61, R244). -/
theorem payloadEvent_of_not_locked {p : PayloadWrite} {s : State} (h : payloadLocked p.addr s = false) :
    payloadEvent (some p) s = .next (payloadPort p s) := by
  simp [payloadEvent, h]

theorem payloadEvent_ne_fault (p : Option PayloadWrite) (s : State) (f : Fault) : payloadEvent p s ≠ .fault f := by
  unfold payloadEvent
  split
  · nofun
  · split <;> nofun

end Sys2Proof.Machine

namespace Sys2Proof.Safety

open Sys2Proof.Machine

/-! ### Where a cycle could fault -/

/-- A host access of the cycle is answered or refused (R63, R190). -/
theorem EngineInv.hostEvent_ne_fault {s : State} (h : EngineInv s) (a : Option HostAccess) (f : Fault) :
    Machine.hostEvent a s ≠ .fault f := by
  unfold Machine.hostEvent busAccess
  split
  · nofun
  · split
    · nofun
    · split
      · nofun
      · next tg _ _ w _ htg =>
        obtain ⟨t, e, _⟩ := (h.busResp (some ⟨false, none⟩)).hostWrite w htg
        rw [e]
        nofun
      · nofun

theorem EngineInv.hostEvents_ne_fault {s : State} (h : EngineInv s) (i : CycleInput) (f : Fault) :
    Machine.hostEvents i s ≠ .fault f := by
  unfold Machine.hostEvents
  split
  · exact payloadEvent_ne_fault _ _ f
  · next e => exact absurd e (h.hostEvent_ne_fault _ _)
  · nofun

/-! ### The statements -/

/-- Settles O43: the targets are those of the aligned registers and of the buffers. -/
theorem admittedAccesses : Obligations.AdmittedAccesses := by
  unfold Obligations.AdmittedAccesses
  refine ⟨fun size a => ?_, fun s acc h => ⟨hostEvent_of_no_target h s, ?_⟩⟩
  · cases size with
    | byte =>
      rw [target?_byte_ne_none_iff, bufferAt?_ne_none_iff]
      simp [hostBuffers]
    | word =>
      rw [target?_word_ne_none_iff, bufferAt?_ne_none_iff]
      simp [hostBuffers, and_or_left]
  · obtain ⟨d, e⟩ := busError_eq acc s
    exact ⟨d, (busAccess_of_no_target h s).trans (congrArg _ e)⟩

/-- Settles O47: the write is that of its target, and its bytes are read by lane. -/
theorem rawBufferWritesByLanes : Obligations.RawBufferWritesByLanes := by
  unfold Obligations.RawBufferWritesByLanes
  refine ⟨fun s i w hi h4 hl => ?_, fun s i w hi hl => ?_⟩
  · refine ⟨_, hostEvent_write (target?_rawCmdBuf_word hi h4) (by simp [hl]) w,
      fun j hj => readByte_writeWord_lane _ i w _ hj, fun r a h => ?_, targetRead_writeWord _ i w _, ?_⟩
    · rw [readByte_writeWord_of_outside w _ h, readByte_busResp]
    · obtain ⟨m, e⟩ := writeWord_rawCmdBuf i w { s with busResp := some ⟨false, none⟩ }
      rw [e]
  · refine ⟨_, hostEvent_write (target?_rawCmdBuf_byte hi) (by simp [hl]) w, ?_, fun r a h => ?_,
      writeByte_rawCmdBuf _ i (lane w 0)⟩
    · rw [readByte_writeByte, if_pos ⟨rfl, rfl⟩, lane]
    · rw [readByte_writeByte, if_neg (not_and_or.2 h), readByte_busResp]

/-- Settles O48: the port's bound is PAYLOAD_BYTES, and a byte written reads back alone. -/
theorem payloadPortStoresBelowTheBound : Obligations.PayloadPortStoresBelowTheBound := by
  unfold Obligations.PayloadPortStoresBelowTheBound
  intro s p hl
  refine ⟨fun hp => ?_, fun hp => ?_⟩ <;> rw [payloadEvent_of_not_locked hl, payloadPort]
  · rw [if_pos ((inPayload_iff _).2 hp)]
    refine ⟨_, rfl, ?_, fun r a h => ?_, rfl⟩
    · rw [readByte_writeByte, if_pos ⟨rfl, rfl⟩]
    · rw [readByte_writeByte, if_neg (not_and_or.2 h)]
  · rw [if_neg (by rw [inPayload_iff]; omega)]

/-- Settles O56: a reset cycle answers, the engine's events answer with a state of the invariant, and the host's events
of such a state answer or refuse. -/
theorem noStepFaultsUnderTheInvariant : Obligations.NoStepFaultsUnderTheInvariant := by
  unfold Obligations.NoStepFaultsUnderTheInvariant
  intro s f h
  obtain ⟨t, ht, hi⟩ := (h.engine.consumeInput.environmentEvent (nextInput s)).engineEvents (nextInput s)
  unfold step cycle
  simp only [ht]
  split
  · nofun
  · exact hi.hostEvents_ne_fault _ f

end Sys2Proof.Safety
end

section
/-! What the host cannot see (R61, R62): a cycle from a state with other payload bytes does the same but for the payload and
the bytes on the wire. One lemma per operation, from the engine's continuations to the whole cycle. -/

namespace Sys2Proof.Machine

/-! ### What the host cannot see -/

/-- The state with other payload bytes and another wire TX history: what no register, buffer or bus answer shows. -/
def withUnseen (m : Memory) (h : List Byte) (s : State) : State := { s with payload := m, txh := h }

@[simp] theorem withUnseen_phase (m : Memory) (h : List Byte) (s : State) : (withUnseen m h s).phase = s.phase := rfl
@[simp] theorem withUnseen_opkind (m : Memory) (h : List Byte) (s : State) : (withUnseen m h s).opkind = s.opkind := rfl
@[simp] theorem withUnseen_chan (m : Memory) (h : List Byte) (s : State) : (withUnseen m h s).chan = s.chan := rfl
@[simp] theorem withUnseen_chunkLen (m : Memory) (h : List Byte) (s : State) : (withUnseen m h s).chunkLen = s.chunkLen := rfl
@[simp] theorem withUnseen_txPos (m : Memory) (h : List Byte) (s : State) : (withUnseen m h s).txPos = s.txPos := rfl
@[simp] theorem withUnseen_rxStage (m : Memory) (h : List Byte) (s : State) : (withUnseen m h s).rxStage = s.rxStage := rfl
@[simp] theorem withUnseen_rawRespLen (m : Memory) (h : List Byte) (s : State) : (withUnseen m h s).rawRespLen = s.rawRespLen := rfl
@[simp] theorem withUnseen_rawK (m : Memory) (h : List Byte) (s : State) : (withUnseen m h s).rawK = s.rawK := rfl
@[simp] theorem withUnseen_rxq (m : Memory) (h : List Byte) (s : State) : (withUnseen m h s).rxq = s.rxq := rfl
@[simp] theorem withUnseen_txValid (m : Memory) (h : List Byte) (s : State) : txValid (withUnseen m h s) = txValid s := rfl
@[simp] theorem withUnseen_rxReady (m : Memory) (h : List Byte) (s : State) : rxReady (withUnseen m h s) = rxReady s := rfl
@[simp] theorem withUnseen_nextInput (m : Memory) (h : List Byte) (s : State) : nextInput (withUnseen m h s) = nextInput s := rfl

/-- An operation that neither reads nor writes the payload or TXH. -/
def Blind (f : State → State) : Prop :=
  ∀ m h s, f (withUnseen m h s) = withUnseen m h (f s)

/-- An engine operation, which may fault, that neither reads nor writes the payload or TXH. -/
def BlindExcept (f : State → Except Fault State) : Prop :=
  ∀ m h s, f (withUnseen m h s) = (f s).map (withUnseen m h)

theorem Blind.comp {f g : State → State} (hf : Blind f) (hg : Blind g) : Blind fun s => f (g s) := by
  intro m h s
  simp only [hg m h s, hf m h]

/-- A choice that reads neither the payload nor TXH between two blind operations is blind. -/
theorem Blind.ite {c : State → Prop} [DecidablePred c] {f g : State → State}
    (hf : Blind f) (hg : Blind g) (hc : ∀ m h s, c (withUnseen m h s) ↔ c s := by intros; exact .rfl) :
    Blind fun s => if c s then f s else g s := by
  intro m h s
  simp only [hc, hf m h s, hg m h s, apply_ite (withUnseen m h)]

theorem BlindExcept.ok {f : State → State} (hf : Blind f) : BlindExcept fun s => .ok (f s) :=
  fun m h s => congrArg Except.ok (hf m h s)

theorem BlindExcept.ite {c : State → Prop} [DecidablePred c] {f g : State → Except Fault State}
    (hf : BlindExcept f) (hg : BlindExcept g) (hc : ∀ m h s, c (withUnseen m h s) ↔ c s := by intros; exact .rfl) :
    BlindExcept fun s => if c s then f s else g s := by
  intro m h s
  simp only [hc, hf m h s, hg m h s, apply_ite (Except.map (withUnseen m h))]

theorem BlindExcept.apply {f : State → Except Fault State} (hf : BlindExcept f) {s t : State} (e : f s = .ok t)
    (m : Memory) (h : List Byte) : f (withUnseen m h s) = .ok (withUnseen m h t) := by
  rw [hf, e]
  rfl

/-! ### The engine's operations -/

theorem blind_fail (c : ResultCode) : Blind (fail c) := fun _ _ _ => rfl

theorem blind_finish (c : ResultCode) : Blind (finish c) := fun _ _ _ => rfl

theorem blind_setupChunk (k : Kind) : Blind (setupChunk k) :=
  .ite (c := fun s => badChunkLen k (chunkLenOf k s) = true) (blind_fail _) fun _ _ _ => rfl

theorem blind_txErrEvent (e : Bool) : Blind (txErrEvent e) :=
  .ite (c := fun s => (e && decide (s.phase = .sending)) = true) (blind_fail _) fun _ _ _ => rfl

theorem blind_tickStep : Blind tickStep :=
  .ite (c := fun s => s.phase.awaiting = true)
    (.ite (c := fun s => s.rxTimer = 0) (fun _ _ _ => rfl) fun _ _ _ => rfl) fun _ _ _ => rfl

theorem blind_tickEvent (b : Bool) : Blind (tickEvent b) :=
  .ite (c := fun _ => b = true) blind_tickStep fun _ _ _ => rfl

theorem blind_linkOpen : Blind linkOpen :=
  .ite (c := fun s => s.chan = .closed ∧ s.phase ≠ .failed) (fun _ _ _ => rfl) fun _ _ _ => rfl

theorem blind_linkDown : Blind linkDown := by
  intro m h s
  unfold linkDown
  rw [withUnseen_chan]
  cases s.chan with
  | opened =>
    have hfail : Blind fun s =>
        if s.phase.busy then fail .connectionError { s with chan := .closed } else { s with chan := .closed } :=
      .ite (c := fun s => s.phase.busy = true) (fun _ _ _ => rfl) fun _ _ _ => rfl
    exact hfail m h s
  | closing => rfl
  | closed => rfl

theorem blind_linkEvent : Blind linkEvent :=
  .ite (c := fun s => s.linkUp = true) blind_linkOpen blind_linkDown

theorem blind_beginStage (k : Kind) (st : Nat) : BlindExcept (beginStage k st) := by
  intro m h s
  unfold beginStage
  rw [withUnseen_phase, withUnseen_rawRespLen]
  cases ackLen k s.phase st s.rawRespLen <;> rfl

theorem blind_beginSequence (k : Kind) (ph : Phase) : BlindExcept (beginSequence k ph) :=
  fun m h s => blind_beginStage k 0 m h { s with phase := ph, ackPos := 0 }

theorem blind_chunkAcked (k : Kind) : BlindExcept (chunkAcked k) :=
  .ite (c := fun _ => k = .raw) (.ok (blind_finish _))
    (.ite (c := fun s => s.offset = s.totalLen)
      (.ite (c := fun _ => k = .image) (blind_beginSequence k _) (.ok (blind_finish _)))
      (.ite (c := fun s => s.abortPending = true) (.ok (blind_finish _)) (.ok (blind_setupChunk k))))

theorem blind_sequenceDone (k : Kind) : BlindExcept (sequenceDone k) :=
  .ite (c := fun s => s.phase = .awaitFinalAck) (.ok (blind_finish _))
    fun m h s => blind_chunkAcked k m h (ackChunk s)

theorem blind_stageDone (k : Kind) : BlindExcept (stageDone k) := by
  intro m h s
  unfold stageDone
  rw [withUnseen_phase, withUnseen_rawRespLen]
  cases ackStages k s.phase s.rawRespLen with
  | none => rfl
  | some n =>
    have hnext : BlindExcept fun s =>
        if s.rxStage.toNat + 1 < n then beginStage k (s.rxStage.toNat + 1) s else sequenceDone k s :=
      .ite (c := fun s => s.rxStage.toNat + 1 < n) (fun m h s => blind_beginStage k (s.rxStage.toNat + 1) m h s)
        (blind_sequenceDone k)
    exact hnext m h s

theorem blind_writeByte {r : Region} (hr : r ≠ .payload) (a : Nat) (b : Byte) : Blind fun s => s.writeByte r a b := by
  intro m h s
  cases r with
  | payload => exact absurd rfl hr
  | _ => rfl

theorem blind_storeByte {r : Region} (hr : r ≠ .payload) (a : Nat) (b : Byte) : BlindExcept (storeByte r a b) :=
  .ite (c := fun _ => Region.holds r a = true)
    (.ok (blind_writeByte hr a b)) fun _ _ _ => rfl

theorem blind_storeAckByte (k : Kind) (b : Byte) : BlindExcept (storeAckByte k b) := by
  intro m h s
  cases k with
  | image => exact blind_storeByte (by decide) _ b m h { s with ackPos := s.ackPos + 1 }
  | firmware => exact blind_storeByte (by decide) _ b m h { s with ackPos := s.ackPos + 1 }
  | raw =>
    unfold storeAckByte
    dsimp only
    rw [withUnseen_rxStage]
    split
    · exact blind_storeByte (by decide) _ b m h s
    · rfl
    · exact blind_storeByte (by decide) _ b m h s
    · rfl

theorem blind_countByte (k : Kind) : BlindExcept (countByte k) :=
  .ite (c := fun s => s.rxGot + 1 = s.rxNeed)
    (fun m h s => blind_stageDone k m h { s with rxGot := s.rxGot + 1 }) (.ok fun _ _ _ => rfl)

theorem blind_takeByte (b : Byte) (q : List Byte) : Blind (takeByte b q) := fun _ _ _ => rfl

theorem blind_rxStep (k : Kind) (b : Byte) (q : List Byte) : BlindExcept (rxStep k b q) := by
  intro m h s
  unfold rxStep
  rw [blind_takeByte b q, blind_storeAckByte k b]
  cases storeAckByte k b (takeByte b q s) with
  | error f => rfl
  | ok t => exact blind_countByte k m h t

theorem blind_rxEvent (r : Bool) : BlindExcept (rxEvent r) := by
  intro m h s
  unfold rxEvent
  rw [withUnseen_rxq]
  cases s.rxq with
  | nil => rfl
  | cons b q =>
    dsimp only
    rw [withUnseen_rxReady, withUnseen_opkind]
    split
    · cases s.opkind with
      | none => rfl
      | some k => exact blind_rxStep k b q m h s
    · rfl

/-! ### The TX step -/

/-- Whether `frame_byte` has a value does not depend on the payload's bytes (R116). -/
theorem frameByte_withUnseen {k : Kind} {p : Nat} {s : State} {b : Byte} (e : frameByte k p s = .ok b) (m : Memory)
    (h : List Byte) : ∃ c, frameByte k p (withUnseen m h s) = .ok c := by
  have hload {r : Region} {a : Nat} {x : Byte} (e : loadByte r a s = .ok x) :
      ∃ c, loadByte r a (withUnseen m h s) = .ok c :=
    ⟨_, loadByte_ok_iff.2 ⟨(loadByte_ok_iff.1 e).1, rfl⟩⟩
  unfold frameByte at e ⊢
  rw [withUnseen_chunkLen]
  split at e
  · next hp =>
    rw [if_pos hp]
    cases k with
    | image => exact hload e
    | firmware =>
      dsimp only at e ⊢
      cases hh : (fwHeader s.chunkLen.toNat)[p]? with
      | some x => exact ⟨x, rfl⟩
      | none =>
        rw [hh] at e
        exact hload e
    | raw =>
      unfold rawByte at *
      dsimp only at e ⊢
      rw [withUnseen_rawK]
      split at e
      · next hk =>
        rw [if_pos hk]
        exact hload e
      · next hk => exact ⟨0, if_neg hk⟩
  · cases e

/-- With other payload bytes a TX step sends some other byte and does the same for the rest (R140). -/
theorem txStep_withUnseen {k : Kind} {s t : State} (e : txStep k s = .ok t) (m : Memory) (h : List Byte) :
    ∃ h', txStep k (withUnseen m h s) = .ok (withUnseen m h' t) := by
  obtain ⟨b, hb, ht⟩ := txStep_cases e
  obtain ⟨c, hc⟩ := frameByte_withUnseen hb m h
  refine ⟨h ++ [c], ?_⟩
  unfold txStep
  rw [withUnseen_txPos, hc]
  have hemit : emitByte c (withUnseen m h s) = withUnseen m (h ++ [c]) (emitByte b s) := rfl
  dsimp only
  rw [hemit]
  rcases ht with ⟨hl, hf⟩ | ⟨hl, rfl⟩
  · exact (if_pos hl).trans ((blind_beginSequence k .awaitAck).apply hf m _)
  · exact if_neg hl

theorem txEvent_withUnseen {r : Bool} {s t : State} (e : txEvent r s = .ok t) (m : Memory) (h : List Byte) :
    ∃ h', txEvent r (withUnseen m h s) = .ok (withUnseen m h' t) := by
  unfold txEvent at e ⊢
  rw [withUnseen_txValid, withUnseen_opkind]
  split at e
  · next hr =>
    rw [if_pos hr]
    cases hk : s.opkind with
    | none =>
      rw [hk] at e
      cases e
    | some k =>
      rw [hk] at e
      exact txStep_withUnseen e m h
  · next hr =>
    cases e
    exact ⟨h, if_neg hr⟩

theorem engineEvents_withUnseen {i : CycleInput} {s t : State} (e : engineEvents i s = .ok t) (m : Memory)
    (h : List Byte) : ∃ h', engineEvents i (withUnseen m h s) = .ok (withUnseen m h' t) := by
  obtain ⟨a, b, ha, hb, rfl⟩ := engineEvents_cases e
  obtain ⟨h', hb'⟩ := txEvent_withUnseen hb m h
  refine ⟨h', ?_⟩
  rw [← blind_tickEvent]
  refine Safety.engineEvents_eq ?_ hb'
  rw [blind_linkEvent, blind_txErrEvent]
  exact (blind_rxEvent _).apply ha m h

/-! ### The commands -/

theorem blind_freshTransfer (k : Kind) (w : Word) : Blind (freshTransfer k w) := fun _ _ _ => rfl

theorem blind_startTransfer (k : Kind) (w : Word) : Blind (startTransfer k w) := by
  have hstart : Blind fun t =>
      if t.chan ≠ .opened then fail .connectionError t else if w = 0 then finish .ok t else setupChunk k t :=
    .ite (c := fun t => t.chan ≠ .opened) (blind_fail _)
      (.ite (c := fun _ => w = 0) (blind_finish _) (blind_setupChunk k))
  exact hstart.comp (blind_freshTransfer k w)

theorem blind_requestAbort : Blind requestAbort :=
  .ite (c := fun s => s.phase.busy = true) (fun _ _ _ => rfl) fun _ _ _ => rfl

theorem blind_commandBody (i : Instr) : Blind (commandBody i) := by
  intro m h s
  cases i with
  | nop => rfl
  | sendImage => exact blind_startTransfer _ _ m h s
  | updateFw => exact blind_startTransfer _ s.fwLen m h s
  | rawCmd k => exact blind_startTransfer _ _ m h { s with rawK := k.setWidth 7, rawRespLen := 0 }
  | abort => exact blind_requestAbort m h s
  | quit => rfl

theorem commandCause_withUnseen (i : Instr) (m : Memory) (h : List Byte) (s : State) :
    commandCause i (withUnseen m h s) = commandCause i s := by
  cases i <;> rfl

theorem exec_withUnseen {i : Instr} {s t : State} (e : exec i s = .next t) (m : Memory) (h : List Byte) :
    exec i (withUnseen m h s) = .next (withUnseen m h t) := by
  rw [exec_eq_runCommand, commandCause_withUnseen]
  rw [exec_eq_runCommand] at e
  cases hc : commandCause i s <;> rw [hc] at e <;> cases e
  · exact congrArg _ (blind_commandBody i m h (accept s))
  all_goals rfl

theorem dispatch_withUnseen {w : Word} {s t : State} (e : dispatch w s = .next t) (m : Memory) (h : List Byte) :
    dispatch w (withUnseen m h s) = .next (withUnseen m h t) := by
  unfold dispatch at e ⊢
  split at e
  · exact exec_withUnseen e m h
  · cases e
    rfl

/-! ### The host's events -/

/-- No host access reaches the payload space (R61, R62). -/
def Target.OnHostBus : Target → Prop
  | .reg _ => True
  | .byte r _ => r ≠ .payload
  | .word r _ => r ≠ .payload

theorem bufferAt?_ne_payload {a n i : Nat} {r : Region} (e : bufferAt? a n = some (r, i)) : r ≠ .payload := by
  obtain ⟨b, hb, he⟩ := Option.map_eq_some_iff.1 e
  have hall : ∀ b ∈ hostBuffers, b.1 ≠ .payload := by decide
  rw [← (Prod.mk.inj he).1]
  exact hall b (List.mem_of_find?_eq_some hb)

theorem target?_onHostBus {size : Size} {a : BitVec 12} {tg : Target} (e : target? size a = some tg) :
    tg.OnHostBus := by
  unfold target? at e
  split at e
  · obtain ⟨⟨r, i⟩, hb, rfl⟩ := Option.map_eq_some_iff.1 e
    exact bufferAt?_ne_payload hb
  · split at e
    · split at e
      · cases e
        trivial
      · obtain ⟨⟨r, i⟩, hb, rfl⟩ := Option.map_eq_some_iff.1 e
        exact bufferAt?_ne_payload hb
    · cases e

theorem readByte_withUnseen {r : Region} (hr : r ≠ .payload) (m : Memory) (h : List Byte) (s : State) (a : Nat) :
    (withUnseen m h s).readByte r a = s.readByte r a := by
  refine readByte_congr (s := withUnseen m h s) (t := s) ?_ rfl a
  cases r with
  | payload => exact absurd rfl hr
  | _ => rfl

theorem targetRead_withUnseen {tg : Target} (ht : tg.OnHostBus) (m : Memory) (h : List Byte) (s : State) :
    targetRead tg (withUnseen m h s) = targetRead tg s := by
  cases tg with
  | reg r => cases r <;> rfl
  | byte r i => simp only [targetRead, readByte_withUnseen ht]
  | word r i => simp only [targetRead, readByte_withUnseen ht]

theorem blind_writeWord {r : Region} (hr : r ≠ .payload) (i : Nat) (w : Word) : Blind (writeWord r i w) :=
  (blind_writeByte hr (i + 3) (lane w 3)).comp ((blind_writeByte hr (i + 2) (lane w 2)).comp
    ((blind_writeByte hr (i + 1) (lane w 1)).comp (blind_writeByte hr i (lane w 0))))

theorem hostWrite_withUnseen {tg : Target} {w : Word} {s t : State} (e : hostWrite tg w s = .next t) (m : Memory)
    (h : List Byte) : hostWrite tg w (withUnseen m h s) = .next (withUnseen m h t) := by
  cases tg with
  | reg r =>
    cases r with
    | cmd => exact dispatch_withUnseen e m h
    | _ => cases e; rfl
  | byte r i => cases r <;> cases e <;> rfl
  | word r i =>
    cases r with
    | rawCmdBuf =>
      rw [← Host.Outcome.next.inj e]
      exact congrArg _ (blind_writeWord (by decide) i w m h s)
    | _ => cases e; rfl

/-- A read that is admitted answers with the value of its target (R189). -/
theorem hostEvent_read {size : Size} {a : BitVec 12} {tg : Target} (e : target? size a = some tg) (s : State) :
    hostEvent (some (.read size a)) s = .next { s with busResp := some ⟨false, some (targetRead tg s)⟩ } := by
  simp only [hostEvent, accessRefusal?, busAccess, HostAccess.target?, e]

theorem hostEvent_withUnseen {a : Option HostAccess} {s t : State} (e : hostEvent a s = .next t) (m : Memory)
    (h : List Byte) : hostEvent a (withUnseen m h s) = .next (withUnseen m h t) := by
  rcases hostEvent_cases e with ⟨rfl, rfl⟩ | ⟨size, addr, tg, rfl, htg, rfl⟩ | ⟨size, addr, w, tg, rfl, htg, hl, hw⟩
  · rfl
  · rw [hostEvent_read htg, targetRead_withUnseen (target?_onHostBus htg)]
    rfl
  · exact (hostEvent_write (s := withUnseen m h s) htg hl w).trans (hostWrite_withUnseen hw m h)

/-- The payload port writes the payload alone, and refuses by registers alone (R61, R244). -/
theorem payloadEvent_withUnseen {p : Option PayloadWrite} {s t : State} (e : payloadEvent p s = .next t) (m : Memory)
    (h : List Byte) : ∃ m', payloadEvent p (withUnseen m h s) = .next (withUnseen m' h t) := by
  rcases payloadEvent_cases e with ⟨rfl, rfl⟩ | ⟨w, rfl, hl, rfl⟩
  · exact ⟨m, rfl⟩
  · rw [payloadEvent_of_not_locked (s := withUnseen m h s) hl, payloadPort, payloadPort]
    split
    · exact ⟨Memory.write m w.addr.toNat w.data, rfl⟩
    · exact ⟨m, rfl⟩

theorem hostEvents_withUnseen {i : CycleInput} {s t : State} (e : hostEvents i s = .next t) (m : Memory)
    (h : List Byte) : ∃ m', hostEvents i (withUnseen m h s) = .next (withUnseen m' h t) := by
  obtain ⟨u, hu, hp⟩ := hostEvents_cases e
  obtain ⟨m', hp'⟩ := payloadEvent_withUnseen hp m h
  refine ⟨m', ?_⟩
  unfold hostEvents
  rw [hostEvent_withUnseen hu m h]
  exact hp'

/-- A cycle from a state with other payload bytes answers the same but for the payload and TXH (R61). -/
theorem step_withUnseen {s t : State} (e : step s = .next t) (m : Memory) (h : List Byte) :
    ∃ m' h', step (withUnseen m h s) = .next (withUnseen m' h' t) := by
  have hstart : environmentEvent (nextInput (withUnseen m h s)) (consumeInput (withUnseen m h s))
      = withUnseen m h (environmentEvent (nextInput s) (consumeInput s)) := rfl
  unfold step cycle
  rw [hstart, withUnseen_nextInput]
  rcases step_cases e with ⟨hr, rfl⟩ | ⟨hr, u, hu, ht⟩
  · exact ⟨[], h, if_pos hr⟩
  · obtain ⟨h', hu'⟩ := engineEvents_withUnseen hu m h
    obtain ⟨m', ht'⟩ := hostEvents_withUnseen ht m h'
    refine ⟨m', h', ?_⟩
    simp only [hr, hu', ht']
    rfl

end Sys2Proof.Machine

namespace Sys2Proof.Safety

open Sys2Proof.Machine

/-- Settles O50: a cycle commutes with replacing the payload and TXH, here the payload alone. -/
theorem payloadCannotBeReadBack : Obligations.PayloadCannotBeReadBack := by
  unfold Obligations.PayloadCannotBeReadBack
  intro s t m e
  exact step_withUnseen e m s.txh

end Sys2Proof.Safety
end

section
/-! Command words (R81 to R83): a word is its four fields, what a word that selects a row has in them, and the statements
about the decoder, the encoder and the opcode table. -/

namespace Sys2Proof

/-! ### A word is its fields -/

/-- Two words with the same four fields (R81) are the same word. -/
theorem word_ext_fields {w v : Word} (hop : opField w = opField v) (hlow : reservedLow w = reservedLow v)
    (harg : argField w = argField v) (hhigh : reservedHigh w = reservedHigh v) : w = v := by
  have hsplit (x : Word) : reservedHigh x ++ argField x ++ reservedLow x ++ opField x = x := by
    simp (disch := rfl) only [reservedHigh, argField, reservedLow, opField,
      BitVec.extractLsb'_append_extractLsb'_eq_extractLsb']
    exact BitVec.extractLsb'_eq_self
  rw [← hsplit w, ← hsplit v, hop, hlow, harg, hhigh]

/-- The encoding of each command has the fields of R81 and R82. -/
theorem encode_fields (i : Instr) : Laws.Encoding.Statement i := by
  cases i with
  | nop => exact Laws.Encoding.nop
  | sendImage => exact Laws.Encoding.sendImage
  | updateFw => exact Laws.Encoding.updateFw
  | rawCmd k => exact Laws.Encoding.rawCmd k
  | abort => exact Laws.Encoding.abort
  | quit => exact Laws.Encoding.quit

/-- Settles O2: the word of a command has the command's fields, and those decide the decoding. -/
theorem decodeOfEncodeIsTheCommand : Obligations.DecodeOfEncodeIsTheCommand := by
  unfold Obligations.DecodeOfEncodeIsTheCommand
  intro i hwf
  obtain ⟨hop, hlow, harg, hhigh, _⟩ := encode_fields i
  exact (decode_ok_iff _ i).2 ⟨hlow, hhigh, hop, harg, hwf⟩

/-- Settles O1: the decoder evaluated on the words of V6. -/
theorem commandWordsDecodeAsTheTableSays : Obligations.CommandWordsDecodeAsTheTableSays := by
  unfold Obligations.CommandWordsDecodeAsTheTableSays
  refine ⟨rfl, rfl, rfl, rfl, rfl, rfl, rfl, rfl, ?_⟩
  simp only [List.forall_mem_cons]
  exact ⟨rfl, rfl, rfl, rfl, rfl, rfl, rfl, rfl, rfl, rfl, nofun⟩

/-! ### Legal words by their fields -/

/-- The OP and ARG that some well-formed command has (R82): ARG is 0 but for RAW_CMD, which takes a count up to 68. -/
theorem exists_wellFormed_iff (op : BitVec 4) (arg : BitVec 8) :
    (∃ i, op = opOf i ∧ arg = argOf i ∧ wellFormed i = true) ↔
      op ∈ [0x0#4, 0x1#4, 0x2#4, 0x4#4, 0x5#4] ∧ arg = 0#8 ∨ op = 0x3#4 ∧ arg.toNat ≤ 68 := by
  constructor
  · rintro ⟨i, rfl, rfl, hwf⟩
    cases i with
    | rawCmd k => exact .inr ⟨rfl, of_decide_eq_true hwf⟩
    | _ => exact .inl ⟨by decide, rfl⟩
  · rintro (⟨hop, rfl⟩ | ⟨rfl, hk⟩)
    · simp only [List.mem_cons, List.not_mem_nil, or_false] at hop
      rcases hop with rfl | rfl | rfl | rfl | rfl
      · exact ⟨.nop, rfl, rfl, rfl⟩
      · exact ⟨.sendImage, rfl, rfl, rfl⟩
      · exact ⟨.updateFw, rfl, rfl, rfl⟩
      · exact ⟨.abort, rfl, rfl, rfl⟩
      · exact ⟨.quit, rfl, rfl, rfl⟩
    · exact ⟨.rawCmd arg, rfl, rfl, decide_eq_true hk⟩

/-- Settles O3: the reserved fields apart, a word decodes when its OP and ARG are those of a well-formed command. -/
theorem legalWordsByTheirFields : Obligations.LegalWordsByTheirFields := by
  unfold Obligations.LegalWordsByTheirFields
  refine ⟨fun w => ?_, fun w k h => ?_⟩
  · simp only [decode_ok_iff, exists_and_left]
    exact and_congr_right' (and_congr_right' (exists_wellFormed_iff _ _))
  · obtain ⟨_, _, _, harg, _⟩ := (decode_ok_iff w _).1 h
    exact harg.symm

/-! ### Rows of the opcode table -/

/-- A row of the table is given by the OP: its value is OP, and its mask leaves out ARG for RAW_CMD only (R82). -/
theorem rowOf_eq (i : Instr) :
    rowOf i = ⟨(opOf i).setWidth 32, if opOf i = 0x3#4 then 0xFFFF00FF#32 else 0xFFFFFFFF#32⟩ := by
  cases i <;> rfl

/-- The fields of a row's mask: all ones, but for the ARG of RAW_CMD (R82). -/
theorem mask_fields (i : Instr) :
    opField (rowOf i).mask = BitVec.allOnes 4 ∧ reservedLow (rowOf i).mask = BitVec.allOnes 4 ∧
      argField (rowOf i).mask = (if opOf i = 0x3#4 then 0#8 else BitVec.allOnes 8) ∧
      reservedHigh (rowOf i).mask = BitVec.allOnes 16 := by
  cases i <;> simp only [rowOf, opOf] <;> decide

/-- The fields of a row's value: the command's OP and zeros (R82). -/
theorem value_fields (i : Instr) :
    opField (rowOf i).value = opOf i ∧ reservedLow (rowOf i).value = 0#4 ∧ argField (rowOf i).value = 0#8 ∧
      reservedHigh (rowOf i).value = 0#16 := by
  cases i <;> simp only [rowOf, opOf] <;> decide

/-- A word masked and compared with a value is compared field by field. -/
theorem and_eq_iff_fields (w m x : Word) : w &&& m = x ↔
    opField w &&& opField m = opField x ∧ reservedLow w &&& reservedLow m = reservedLow x ∧
      argField w &&& argField m = argField x ∧ reservedHigh w &&& reservedHigh m = reservedHigh x := by
  simp only [opField, reservedLow, argField, reservedHigh, ← BitVec.extractLsb'_and]
  refine ⟨?_, fun ⟨hop, hlow, harg, hhigh⟩ => word_ext_fields hop hlow harg hhigh⟩
  rintro rfl
  exact ⟨rfl, rfl, rfl, rfl⟩

/-- A word selects the row of a command exactly when it has the command's OP, its reserved bits are 0 and, RAW_CMD apart,
its ARG is 0 (R82). -/
theorem and_mask_eq_value_iff (w : Word) (i : Instr) :
    w &&& (rowOf i).mask = (rowOf i).value ↔
      opField w = opOf i ∧ reservedLow w = 0#4 ∧ (opOf i ≠ 0x3#4 → argField w = 0#8) ∧ reservedHigh w = 0#16 := by
  obtain ⟨mop, mlow, marg, mhigh⟩ := mask_fields i
  obtain ⟨vop, vlow, varg, vhigh⟩ := value_fields i
  rw [and_eq_iff_fields, mop, mlow, marg, mhigh, vop, vlow, varg, vhigh]
  by_cases h : opOf i = 0x3#4
  · simp only [h, if_true, BitVec.and_allOnes, BitVec.and_zero, ne_eq, not_true_eq_false, false_imp_iff]
  · simp only [h, if_false, BitVec.and_allOnes, ne_eq, not_false_eq_true, true_imp_iff]

theorem mem_opcodeTable {r : TableRow} (h : r ∈ opcodeTable) : ∃ i, r = rowOf i := by
  simp only [opcodeTable, List.mem_cons, List.not_mem_nil, or_false] at h
  rcases h with h | h | h | h | h | h <;> exact ⟨_, h⟩

/-- A word that selects the rows of two commands selects one row: both have its OP. -/
theorem rowOf_unique {w : Word} {i j : Instr} (hi : (rowOf i).selects w = true) (hj : (rowOf j).selects w = true) :
    rowOf i = rowOf j := by
  obtain ⟨hopi, _⟩ := (and_mask_eq_value_iff w i).1 (of_decide_eq_true hi)
  obtain ⟨hopj, _⟩ := (and_mask_eq_value_iff w j).1 (of_decide_eq_true hj)
  rw [rowOf_eq i, rowOf_eq j, ← hopi, ← hopj]

/-- The decoder selects a row, and for RAW_CMD checks the count (R82). -/
theorem decode_ok_iff_selects (w : Word) (i : Instr) :
    decode w = .ok i ↔ w &&& (rowOf i).mask = (rowOf i).value ∧
      ∀ k, i = .rawCmd k → k = w.extractLsb' 8 8 ∧ k.toNat ≤ 68 := by
  have hcount : argField w = argOf i ∧ wellFormed i = true ↔ (opOf i ≠ 0x3#4 → argField w = 0#8) ∧
      ∀ k, i = .rawCmd k → k = w.extractLsb' 8 8 ∧ k.toNat ≤ 68 := by
    cases i with
    | rawCmd k =>
      have hk : k = w.extractLsb' 8 8 ↔ argField w = k := eq_comm
      simp [opOf, argOf, wellFormed, rawCountOk, hk]
    | _ => simp [opOf, argOf, wellFormed]
  rw [decode_ok_iff, and_mask_eq_value_iff, hcount]
  tauto

/-- Settles O4: the decoder selects a row, and a row is given by the OP. -/
theorem decodingIsRowSelection : Obligations.DecodingIsRowSelection := by
  unfold Obligations.DecodingIsRowSelection
  refine ⟨decode_ok_iff_selects, fun w r hr q hq hrw hqw => ?_, rfl, rfl, rfl, rfl, fun _ => rfl, rfl, rfl⟩
  obtain ⟨i, rfl⟩ := mem_opcodeTable hr
  obtain ⟨j, rfl⟩ := mem_opcodeTable hq
  exact rowOf_unique hrw hqw

end Sys2Proof

namespace Sys2Proof.Machine

/-! ### The ack table -/

/-- No ack sequence outside the awaiting phases, and an end-of-image ack for an image only (R95). -/
theorem ack_none {k : Kind} {ph : Phase} (h : ph.awaiting = false ∨ ph = .awaitFinalAck ∧ k ≠ .image) (st : Nat)
    (n : BitVec 8) : ackLen k ph st n = none ∧ ackStages k ph n = none := by
  rcases h with h | ⟨rfl, hk⟩
  · cases ph with
    | awaitAck => cases h
    | awaitFinalAck => cases h
    | _ => exact ⟨rfl, rfl⟩
  · cases k with
    | image => exact absurd rfl hk
    | _ => exact ⟨rfl, rfl⟩

/-- Settles O22: the rows of R95 are the table's, the third raw stage there where RAW_RESP_LEN is not 0. -/
theorem ackTable : Obligations.AckTable := by
  unfold Obligations.AckTable
  refine ⟨fun _ => rfl, fun _ => rfl, fun _ => rfl, fun n hn => ?_, rfl, fun n => ⟨rfl, rfl, rfl, ?_⟩,
    fun k ph st n h => ack_none h st n⟩
  · have h2 : ackLen .raw .awaitAck 2 n = some n := if_neg hn
    show [some 4, some 1, ackLen .raw .awaitAck 2 n, none] = _
    rw [h2]
  · have hpos : 1 ≤ n.toNat ↔ n ≠ 0 := by
      rw [Nat.one_le_iff_ne_zero, Ne, ← BitVec.toNat_zero, BitVec.toNat_inj]
      exact .rfl
    simp only [ackStages, hpos, ne_eq, ite_not]

/-! ### The bytes of an acknowledgement -/

/-- The state with another wire RX history and other bytes in ACK_BUF. -/
def withAck (h : List Byte) (m : Memory) (s : State) : State := { s with rxh := h, ackBuf := m }

@[simp] theorem withAck_phase (h : List Byte) (m : Memory) (s : State) : (withAck h m s).phase = s.phase := rfl
@[simp] theorem withAck_rawRespLen (h : List Byte) (m : Memory) (s : State) :
    (withAck h m s).rawRespLen = s.rawRespLen := rfl

/-- An operation of the engine after a byte is stored, which may fault, that neither reads nor writes RXH or ACK_BUF. -/
def IgnoresAck (f : State → Except Fault State) : Prop :=
  ∀ h m s, f (withAck h m s) = (f s).map (withAck h m)

theorem ignoresAck_ok {f : State → State} (hf : ∀ h m s, f (withAck h m s) = withAck h m (f s)) :
    IgnoresAck fun s => .ok (f s) :=
  fun h m s => congrArg Except.ok (hf h m s)

/-- A choice that reads neither RXH nor ACK_BUF between two operations that do not. -/
theorem IgnoresAck.ite {c : State → Prop} [DecidablePred c] {f g : State → Except Fault State} (hf : IgnoresAck f)
    (hg : IgnoresAck g) (hc : ∀ h m s, c (withAck h m s) ↔ c s := by intros; exact .rfl) :
    IgnoresAck fun s => if c s then f s else g s := by
  intro h m s
  simp only [hc, hf h m s, hg h m s, apply_ite (Except.map (withAck h m))]

theorem ignoresAck_beginStage (k : Kind) (st : State → Nat) (hst : ∀ h m s, st (withAck h m s) = st s) :
    IgnoresAck fun s => beginStage k (st s) s := by
  intro h m s
  dsimp only
  rw [hst]
  unfold beginStage
  rw [withAck_phase, withAck_rawRespLen]
  cases ackLen k s.phase (st s) s.rawRespLen <;> rfl

theorem ignoresAck_beginSequence (k : Kind) (ph : Phase) : IgnoresAck (beginSequence k ph) :=
  fun h m s => ignoresAck_beginStage k (fun _ => 0) (fun _ _ _ => rfl) h m { s with phase := ph, ackPos := 0 }

theorem setupChunk_withAck (k : Kind) (h : List Byte) (m : Memory) (s : State) :
    setupChunk k (withAck h m s) = withAck h m (setupChunk k s) := by
  unfold setupChunk
  dsimp only
  rw [apply_ite (withAck h m)]
  rfl

theorem ignoresAck_chunkAcked (k : Kind) : IgnoresAck (chunkAcked k) :=
  .ite (c := fun _ => k = .raw) (ignoresAck_ok fun _ _ _ => rfl)
    (.ite (c := fun s => s.offset = s.totalLen)
      (.ite (c := fun _ => k = .image) (ignoresAck_beginSequence k _) (ignoresAck_ok fun _ _ _ => rfl))
      (.ite (c := fun s => s.abortPending = true) (ignoresAck_ok fun _ _ _ => rfl)
        (ignoresAck_ok (setupChunk_withAck k))))

theorem ignoresAck_sequenceDone (k : Kind) : IgnoresAck (sequenceDone k) :=
  .ite (c := fun s => s.phase = .awaitFinalAck) (ignoresAck_ok fun _ _ _ => rfl)
    fun h m s => ignoresAck_chunkAcked k h m (ackChunk s)

theorem ignoresAck_stageDone (k : Kind) : IgnoresAck (stageDone k) := by
  intro h m s
  unfold stageDone
  rw [withAck_phase, withAck_rawRespLen]
  cases ackStages k s.phase s.rawRespLen with
  | none => rfl
  | some n =>
    have hnext : IgnoresAck fun s =>
        if s.rxStage.toNat + 1 < n then beginStage k (s.rxStage.toNat + 1) s else sequenceDone k s :=
      .ite (c := fun s => s.rxStage.toNat + 1 < n)
        (ignoresAck_beginStage k (fun s => s.rxStage.toNat + 1) fun _ _ _ => rfl) (ignoresAck_sequenceDone k)
    exact hnext h m s

theorem ignoresAck_countByte (k : Kind) : IgnoresAck (countByte k) :=
  .ite (c := fun s => s.rxGot + 1 = s.rxNeed)
    (fun h m s => ignoresAck_stageDone k h m { s with rxGot := s.rxGot + 1 }) (ignoresAck_ok fun _ _ _ => rfl)

/-- A byte of an image or firmware ack goes to ACK_BUF at ACK_POS (R144). -/
theorem storeAckByte_of_ne_raw {k : Kind} (hk : k ≠ .raw) (b : Byte) (s : State) :
    storeAckByte k b s = storeByte .ackBuf s.ackPos.toNat b { s with ackPos := s.ackPos + 1 } := by
  cases k with
  | raw => exact absurd rfl hk
  | _ => rfl

/-- Settles O31: the byte is stored in RXH and ACK_BUF, and what follows reads neither. -/
theorem ackContentIsNeverChecked : Obligations.AckContentIsNeverChecked := by
  unfold Obligations.AckContentIsNeverChecked
  intro s t k b c q hk ht
  obtain ⟨u, hu, hcount⟩ := rxStep_cases ht
  rw [storeAckByte_of_ne_raw hk] at hu
  obtain ⟨hin, rfl⟩ := storeByte_ok_iff.1 hu
  have hc : storeAckByte k c (takeByte c q s) = .ok (withAck (s.rxh ++ [c])
      (Memory.write s.ackBuf s.ackPos.toNat c)
      (State.writeByte { takeByte b q s with ackPos := s.ackPos + 1 } .ackBuf s.ackPos.toNat b)) :=
    (storeAckByte_of_ne_raw hk c _).trans (storeByte_ok_iff.2 ⟨hin, rfl⟩)
  unfold rxStep
  rw [hc]
  dsimp only
  rw [ignoresAck_countByte]
  exact congrArg (Except.map _) hcount

end Sys2Proof.Machine
end

section
/-! The wire (R86 to R90): what a transfer in flight has sent is the end of the wire TX history. First the frames as lists of
bytes, then each event of a cycle, then whole cycles and runs. -/

namespace Sys2Proof.Safety

open Sys2Proof.Machine

/-! ### Frames depend on the sent bytes' source alone -/

/-- What the frames of a transfer are made of is the same in both states: TOTAL_LEN, the payload below it for an image or
firmware, and for a raw command RAW_K and its buffer. -/
structure SameSource (k : Kind) (s t : State) : Prop where
  totalLen : t.totalLen = s.totalLen
  payload : k ≠ .raw → ∀ a < s.totalLen.toNat, t.readByte .payload a = s.readByte .payload a
  rawK : k = .raw → t.rawK = s.rawK
  rawBuf : k = .raw → ∀ a, t.readByte .rawCmdBuf a = s.readByte .rawCmdBuf a

theorem SameSource.trans {k : Kind} {s t u : State} (h : SameSource k s t) (g : SameSource k t u) : SameSource k s u where
  totalLen := g.totalLen.trans h.totalLen
  payload hk a ha := (g.payload hk a (h.totalLen ▸ ha)).trans (h.payload hk a ha)
  rawK hk := (g.rawK hk).trans (h.rawK hk)
  rawBuf hk a := (g.rawBuf hk a).trans (h.rawBuf hk a)

/-- The engine's events leave the source of the frames. -/
theorem sameSource_of_engineFrame {s t : State} (k : Kind) (h : EngineFrame s t) : SameSource k s t where
  totalLen := h.totalLen
  payload _ a _ := readByte_congr (r := .payload) h.payload h.resets a
  rawK _ := h.rawK
  rawBuf _ a := readByte_congr (r := .rawCmdBuf) h.rawCmdBuf h.resets a

theorem payloadSlice_congr {s t : State} {o n : Nat}
    (h : ∀ a, o ≤ a → a < o + n → t.readByte .payload a = s.readByte .payload a) :
    payloadSlice t o n = payloadSlice s o n := by
  refine List.map_congr_left fun i hi => h _ (Nat.le_add_right o i) ?_
  have hlt := List.mem_range.1 hi
  omega

/-- A chunk of the partition ends inside the payload, or there is none. -/
theorem chunk_end_le (k : Kind) (len i : Nat) :
    (partition k len).getD i 0 = 0 ∨ i * k.maxChunk + (partition k len).getD i 0 ≤ len := by
  by_cases h : i * k.maxChunk < len
  · right
    rw [partition_getD k h]
    omega
  · left
    rw [← lt_partition_length_iff] at h
    exact List.getD_eq_default _ _ (by omega)

theorem frameAt_congr {k : Kind} {s t : State} (h : SameSource k s t) (i : Nat) :
    frameAt k t t.totalLen.toNat i = frameAt k s s.totalLen.toNat i := by
  have hslice (hk : k ≠ .raw) := payloadSlice_congr (s := s) (t := t) (o := i * k.maxChunk)
    (n := (partition k s.totalLen.toNat).getD i 0) fun a _ ha' => h.payload hk a <| by
      rcases chunk_end_le k s.totalLen.toNat i with h0 | hle <;> omega
  rw [h.totalLen]
  cases k with
  | image => exact hslice (by decide)
  | firmware => exact congrArg fwFrame (hslice (by decide))
  | raw =>
    show rawFrame t = rawFrame s
    simp only [rawFrame, h.rawK rfl, h.rawBuf rfl]

theorem framesUpTo_congr {k : Kind} {s t : State} (h : SameSource k s t) (n : Nat) :
    framesUpTo k t t.totalLen.toNat n = framesUpTo k s s.totalLen.toNat n := by
  unfold framesUpTo
  simp only [frameAt_congr h]

theorem framesUpTo_succ (k : Kind) (s : State) (total n : Nat) :
    framesUpTo k s total (n + 1) = framesUpTo k s total n ++ frameAt k s total n := by
  simp [framesUpTo, List.range_succ]

/-! ### The bytes of the current frame -/

theorem fwFrame_payloadSlice (s : State) (o n : Nat) :
    fwFrame (payloadSlice s o n) = (List.range (n + 8)).map fun p =>
      if p < 8 then (fwHeader n).getD p 0 else s.readByte .payload (o + (p - 8)) := by
  have hlen : (payloadSlice s o n).length = n := by simp [payloadSlice]
  rw [Nat.add_comm n 8, List.range_add, List.map_append, List.map_map, fwFrame, hlen]
  congr 1
  refine List.map_congr_left fun i _ => ?_
  simp

/-- The current frame of a transfer is, byte by byte, what the engine sends at each position (R116, R117). -/
theorem frameAt_chunkIdx {k : Kind} {s : State} (hc : ChunkOk k s)
    (hp : k ≠ .raw → s.offset.toNat = s.chunkIdx.toNat * k.maxChunk) :
    frameAt k s s.totalLen.toNat s.chunkIdx.toNat = (List.range s.frameLen.toNat).map (frameByteValue k s) := by
  have hlen : s.frameLen.toNat = _ := (congrArg BitVec.toNat hc.frameLen).trans (frameLenOf_toNat hc.bounds.2.1)
  have hslice (hk : k ≠ .raw) : payloadSlice s (s.chunkIdx.toNat * k.maxChunk)
      ((partition k s.totalLen.toNat).getD s.chunkIdx.toNat 0) = payloadSlice s s.offset.toNat s.chunkLen.toNat := by
    have hm := hc.more
    rw [hp hk] at hm
    rw [partition_getD k hm, hc.len, hp hk]
  rw [hlen]
  cases k with
  | image => exact hslice (by decide)
  | firmware => exact (congrArg fwFrame (hslice (by decide))).trans (fwFrame_payloadSlice s _ _)
  | raw => rfl

/-- The part of the current frame that is out. -/
theorem take_frameAt {k : Kind} {s : State} (hc : ChunkOk k s)
    (hp : k ≠ .raw → s.offset.toNat = s.chunkIdx.toNat * k.maxChunk) {p : Nat} (hle : p ≤ s.frameLen.toNat) :
    (frameAt k s s.totalLen.toNat s.chunkIdx.toNat).take p = (List.range p).map (frameByteValue k s) := by
  rw [frameAt_chunkIdx hc hp, ← List.map_take, List.take_range, Nat.min_eq_left hle]

/-! ### What a transfer has sent, by its phase -/

/-- While a frame is current, its part that is out follows the frames before it. -/
theorem sentBytes_of_frame (k : Kind) {s : State} (h : s.phase = .sending ∨ s.phase = .awaitAck) :
    sentBytes k s = framesUpTo k s s.totalLen.toNat s.chunkIdx.toNat
      ++ (frameAt k s s.totalLen.toNat s.chunkIdx.toNat).take s.txPos.toNat := by
  rw [sentBytes, if_pos h]

/-- Between two frames the frames of the acknowledged chunks are out. -/
theorem sentBytes_of_boundary (k : Kind) {s : State}
    (h : s.phase ≠ .awaitAck ∧ (s.phase = .sending → s.txPos = 0)) :
    sentBytes k s = framesUpTo k s s.totalLen.toNat s.chunkIdx.toNat := by
  unfold sentBytes
  split
  · next hp =>
    rw [h.2 (hp.resolve_right h.1)]
    simp
  · simp

theorem sentBytes_congr {k : Kind} {s t : State} (h : SameSource k s t) (hph : t.phase = s.phase)
    (hidx : t.chunkIdx = s.chunkIdx) (hpos : t.txPos = s.txPos) : sentBytes k t = sentBytes k s := by
  unfold sentBytes
  rw [hph, hidx, hpos, framesUpTo_congr h, frameAt_congr h]

/-- A transfer that starts has sent nothing. -/
theorem sentBytes_of_start (k : Kind) {s : State} (hph : s.phase = .sending) (hidx : s.chunkIdx = 0) (hpos : s.txPos = 0) :
    sentBytes k s = [] := by
  rw [sentBytes_of_boundary k ⟨by simp [hph], fun _ => hpos⟩, hidx]
  rfl

/-- A chunk in flight of an image or firmware begins at its index times the maximum. -/
theorem EngineInv.offset_eq {k : Kind} {s : State} (h : EngineInv s) (hk : s.opkind = some k)
    (hph : s.phase = .sending ∨ s.phase = .awaitAck) (hne : k ≠ .raw) :
    s.offset.toNat = s.chunkIdx.toNat * k.maxChunk := by
  obtain ⟨q, f⟩ := h.inFlight (by rcases hph with e | e <;> rw [e] <;> rfl)
  refine offset_eq_mul (h.listed.progress k hne hk ?_) (f.chunk hph).more
  rcases hph with e | e <;> rw [e] <;> decide

/-- An operation in flight is one of the kind that OPKIND names. -/
theorem EngineInv.inFlight_of_opkind {k : Kind} {s : State} (h : EngineInv s) (hk : s.opkind = some k)
    (hb : s.phase.busy = true) : InFlight k s := by
  obtain ⟨q, f⟩ := h.inFlight hb
  obtain rfl : q = k := Option.some.inj (f.opkind.symm.trans hk)
  exact f

/-- In AWAIT_ACK the whole current frame is out. -/
theorem EngineInv.sentBytes_of_awaitAck {k : Kind} {s : State} (h : EngineInv s) (hk : s.opkind = some k)
    (hph : s.phase = .awaitAck) : sentBytes k s = framesUpTo k s s.totalLen.toNat (s.chunkIdx.toNat + 1) := by
  have f := h.inFlight_of_opkind hk (by rw [hph]; rfl)
  have hsent := (f.stage (by rw [hph]; rfl)).sent
  rw [sentBytes_of_frame k (.inr hph), framesUpTo_succ, hsent]
  congr 1
  rw [frameAt_chunkIdx (f.chunk (.inr hph)) (h.offset_eq hk (.inr hph))]
  exact List.take_of_length_le (by simp)

/-! ### Where the engine's events take a transfer -/

theorem beginStage_position {k : Kind} {st : Nat} {s t : State} (h : beginStage k st s = .ok t) :
    t.phase = s.phase ∧ t.chunkIdx = s.chunkIdx ∧ t.txPos = s.txPos := by
  unfold beginStage at h
  split at h
  · cases h
    exact ⟨rfl, rfl, rfl⟩
  · cases h

theorem beginSequence_position {k : Kind} {ph : Phase} {s t : State} (h : beginSequence k ph s = .ok t) :
    t.phase = ph ∧ t.chunkIdx = s.chunkIdx ∧ t.txPos = s.txPos :=
  beginStage_position (s := { s with phase := ph, ackPos := 0 }) h

/-- Chunk setup starts a frame or fails (R148). -/
theorem setupChunk_position (k : Kind) (s : State) :
    (setupChunk k s).chunkIdx = s.chunkIdx ∧
      ((setupChunk k s).phase = .failed ∨ (setupChunk k s).phase = .sending ∧ (setupChunk k s).txPos = 0) := by
  unfold setupChunk
  dsimp only
  split
  · exact ⟨rfl, .inl rfl⟩
  · exact ⟨rfl, .inr ⟨rfl, rfl⟩⟩

/-- Where a transfer stands when a chunk's ack is complete (R146): ended, or at the end-of-image ack or the start of the next
frame, neither of which a raw transfer has. -/
def PastChunk (k : Kind) (s : State) : Prop :=
  s.phase = .failed ∨ s.phase = .complete ∨
    k ≠ .raw ∧ (s.phase = .awaitFinalAck ∨ s.phase = .sending ∧ s.txPos = 0)

theorem pastChunk_chunkAcked {k : Kind} {s t : State} (h : chunkAcked k s = .ok t) :
    t.chunkIdx = s.chunkIdx ∧ PastChunk k t := by
  unfold chunkAcked at h
  split at h
  · cases h
    exact ⟨rfl, .inr (.inl rfl)⟩
  · next hk =>
    split at h
    · split at h
      · obtain ⟨hph, hidx, _⟩ := beginSequence_position h
        exact ⟨hidx, .inr (.inr ⟨hk, .inl hph⟩)⟩
      · cases h
        exact ⟨rfl, .inr (.inl rfl)⟩
    · split at h
      · cases h
        exact ⟨rfl, .inr (.inl rfl)⟩
      · cases h
        obtain ⟨hidx, hph⟩ := setupChunk_position k s
        exact ⟨hidx, hph.imp_right fun e => .inr ⟨hk, .inr e⟩⟩

/-- What a received byte does to a transfer, as far as the wire goes (R143 to R146): it stays where it is, the end-of-image
ack ends it, or the current chunk is acknowledged. -/
inductive RxMove (k : Kind) (s t : State) : Prop
  | stay (phase : t.phase = s.phase) (idx : t.chunkIdx = s.chunkIdx) (pos : t.txPos = s.txPos)
  | imageEnd (was : s.phase = .awaitFinalAck) (phase : t.phase = .complete) (idx : t.chunkIdx = s.chunkIdx)
  | chunk (was : s.phase ≠ .awaitFinalAck) (idx : t.chunkIdx = s.chunkIdx + 1) (past : PastChunk k t)

theorem rxMove_sequenceDone {k : Kind} {s t : State} (h : sequenceDone k s = .ok t) : RxMove k s t := by
  unfold sequenceDone at h
  split at h
  · next hph =>
    cases h
    exact .imageEnd hph rfl rfl
  · next hph =>
    obtain ⟨hidx, hpast⟩ := pastChunk_chunkAcked h
    exact .chunk hph hidx hpast

theorem rxMove_stageDone {k : Kind} {s t : State} (h : stageDone k s = .ok t) : RxMove k s t := by
  unfold stageDone at h
  split at h
  · split at h
    · obtain ⟨hph, hidx, hpos⟩ := beginStage_position h
      exact .stay hph hidx hpos
    · exact rxMove_sequenceDone h
  · cases h

/-- A stored byte moves neither the phase nor the position of a transfer (R144). -/
theorem storeAckByte_position {k : Kind} {b : Byte} {s t : State} (h : storeAckByte k b s = .ok t) :
    t.phase = s.phase ∧ t.chunkIdx = s.chunkIdx ∧ t.txPos = s.txPos := by
  have hstore {r : Region} {a : Nat} {u : State} (e : storeByte r a b u = .ok t) :
      t.phase = u.phase ∧ t.chunkIdx = u.chunkIdx ∧ t.txPos = u.txPos := by
    obtain ⟨_, rfl⟩ := storeByte_ok_iff.1 e
    simp
  cases k with
  | raw =>
    unfold storeAckByte at h
    dsimp only at h
    split at h
    · exact hstore h
    · cases h
      exact ⟨rfl, rfl, rfl⟩
    · exact hstore h
    · cases h
  | _ => exact (hstore ((storeAckByte_of_ne_raw (by decide) b s).symm.trans h) :)

theorem rxMove_rxStep {k : Kind} {b : Byte} {q : List Byte} {s t : State} (h : rxStep k b q s = .ok t) :
    RxMove k s t := by
  obtain ⟨u, hu, ht⟩ := rxStep_cases h
  obtain ⟨hph, hidx, hpos⟩ := storeAckByte_position hu
  unfold countByte at ht
  dsimp only at ht
  split at ht
  · cases rxMove_stageDone ht with
    | stay p i x => exact .stay (p.trans hph) (i.trans hidx) (x.trans hpos)
    | imageEnd w p i => exact .imageEnd (hph.symm.trans w) p (i.trans hidx)
    | chunk w i p => exact .chunk (fun e => w (hph.trans e)) (i.trans (congrArg (· + 1) hidx)) p
  · cases ht
    exact .stay hph hidx hpos

/-- A sent byte moves a transfer on by one position; the last of a frame begins the ack sequence (R140, R141). -/
theorem txStep_position {k : Kind} {s t : State} (h : txStep k s = .ok t) :
    ∃ b, frameByte k s.txPos.toNat s = .ok b ∧ t.txh = s.txh ++ [b] ∧ (t.phase = s.phase ∨ t.phase = .awaitAck) ∧
      t.chunkIdx = s.chunkIdx ∧ t.txPos = s.txPos + 1 := by
  obtain ⟨b, hb, ⟨_, h⟩ | ⟨_, rfl⟩⟩ := txStep_cases h
  · obtain ⟨hph, hidx, hpos⟩ := beginSequence_position h
    exact ⟨b, hb, (progressOnly_beginSequence h).wire.txh, .inr hph, hidx, hpos⟩
  · exact ⟨b, hb, rfl, .inl rfl, rfl, rfl⟩

/-- The link event fails the operation in flight or writes CHAN alone (R218, R219). -/
theorem linkEvent_position (s : State) : (linkEvent s).phase = .failed ∨ ∃ x, linkEvent s = { s with chan := x } := by
  rcases linkEvent_cases s with e | ⟨_, _, _, e⟩ | ⟨_, _, e⟩ | ⟨_, _, _, e⟩ <;> rw [e]
  · exact .inr ⟨s.chan, rfl⟩
  · exact .inr ⟨_, rfl⟩
  · exact .inr ⟨_, rfl⟩
  · exact .inl rfl

/-- A transport error fails the operation in flight or does nothing (R216). -/
theorem txErrEvent_position (e : Bool) (s : State) : (txErrEvent e s).phase = .failed ∨ txErrEvent e s = s := by
  unfold txErrEvent
  split
  · exact .inl rfl
  · exact .inr rfl

/-- A tick fails the operation in flight or writes RX_TIMER alone (R149). -/
theorem tickEvent_position (b : Bool) (s : State) :
    (tickEvent b s).phase = .failed ∨ ∃ x, tickEvent b s = { s with rxTimer := x } := by
  unfold tickEvent tickStep
  split
  · split
    · split
      · exact .inl rfl
      · exact .inr ⟨_, rfl⟩
    · exact .inr ⟨s.rxTimer, rfl⟩
  · exact .inr ⟨s.rxTimer, rfl⟩

/-! ### The phases an engine event goes through -/

/-- How PHASE moves by the engine's events: not at all, to FAILED, or from an operation in flight on, where a raw transfer
never sends again. -/
def PhaseMove (k : Kind) (s t : State) : Prop :=
  t.phase = s.phase ∨ t.phase = .failed ∨
    s.phase.busy = true ∧ t.phase ≠ .idle ∧ (k = .raw → t.phase ≠ .sending)

theorem PhaseMove.trans {k : Kind} {s t u : State} (h : PhaseMove k s t) (g : PhaseMove k t u) : PhaseMove k s u := by
  rcases g with g | g | ⟨hb, g⟩
  · unfold PhaseMove
    rw [g]
    exact h
  · exact .inr (.inl g)
  · rcases h with h | h | ⟨hs, _⟩
    · exact .inr (.inr ⟨h ▸ hb, g⟩)
    · rw [h] at hb
      cases hb
    · exact .inr (.inr ⟨hs, g⟩)

/-- An operation in flight that the engine's events do not end is still in flight after them. -/
theorem PhaseMove.busy {k : Kind} {s t : State} (h : PhaseMove k s t) (hb : s.phase.busy = true)
    (hc : t.phase ≠ .complete) (hf : t.phase ≠ .failed) : t.phase.busy = true := by
  rcases h with e | e | ⟨_, hi, _⟩
  · rw [e, hb]
  · exact absurd e hf
  · revert hi hc hf
    cases t.phase <;> simp [Phase.busy]

theorem phaseMove_rxEvent {k : Kind} {r : Bool} {s t : State} (hk : s.opkind = some k) (h : rxEvent r s = .ok t) :
    PhaseMove k s t := by
  rcases rxEvent_cases h with rfl | ⟨q, b, rest, _, hq, hp, _, _, h⟩
  · exact .inl rfl
  · obtain rfl : q = k := Option.some.inj (hq.symm.trans hk)
    have hb := busy_of_awaiting hp
    cases rxMove_rxStep h with
    | stay p _ _ => exact .inl p
    | imageEnd _ p _ => exact .inr (.inr ⟨hb, by simp [p], by simp [p]⟩)
    | chunk _ _ p =>
      rcases p with p | p | ⟨hne, p | ⟨p, _⟩⟩
      · exact .inr (.inl p)
      · exact .inr (.inr ⟨hb, by simp [p], by simp [p]⟩)
      · exact .inr (.inr ⟨hb, by simp [p], by simp [p]⟩)
      · exact .inr (.inr ⟨hb, by simp [p], fun e => absurd e hne⟩)

theorem phaseMove_txEvent (k : Kind) {r : Bool} {s t : State} (h : txEvent r s = .ok t) : PhaseMove k s t := by
  rcases txEvent_cases h with rfl | ⟨q, _, hp, _, _, h⟩
  · exact .inl rfl
  · obtain ⟨_, _, _, e | e, _⟩ := txStep_position h
    · exact .inl e
    · exact .inr (.inr ⟨by rw [hp]; rfl, by simp [e], by simp [e]⟩)

/-- The engine's events of a cycle move PHASE as one of them does. -/
theorem phaseMove_engineEvents {k : Kind} {i : CycleInput} {s t : State} (hk : s.opkind = some k)
    (h : engineEvents i s = .ok t) : PhaseMove k s t := by
  obtain ⟨a, b, ha, hb, rfl⟩ := engineEvents_cases h
  have hlink : PhaseMove k s (linkEvent s) := by
    rcases linkEvent_position s with e | ⟨x, e⟩
    · exact .inr (.inl e)
    · exact .inl (by rw [e])
  have herr : PhaseMove k (linkEvent s) (txErrEvent i.txErr (linkEvent s)) :=
    (txErrEvent_position _ _).elim (fun e => .inr (.inl e)) fun e => .inl (by rw [e])
  have htick : PhaseMove k b (tickEvent i.tick b) := by
    rcases tickEvent_position i.tick b with e | ⟨x, e⟩
    · exact .inr (.inl e)
    · exact .inl (by rw [e])
  have hka : (txErrEvent i.txErr (linkEvent s)).opkind = some k := by
    rw [(progressOnly_txErrEvent _ _).engine.opkind, linkEvent_opkind, hk]
  exact (((hlink.trans herr).trans (phaseMove_rxEvent hka ha)).trans (phaseMove_txEvent k hb)).trans htick

/-! ### The engine's events keep the wire -/

/-- What a transfer has sent is the end of the wire TX history: while it is in flight and, for an image or firmware, when it
is complete. -/
def OnWire (k : Kind) (s : State) : Prop :=
  s.phase ≠ .failed → (k = .raw → s.phase ≠ .complete) → sentBytes k s <:+ s.txh

theorem OnWire.rxStep {k : Kind} {b : Byte} {q : List Byte} {s t : State} (h : OnWire k s) (hi : EngineInv s)
    (hk : s.opkind = some k) (hp : s.phase.awaiting = true) (ht : Machine.rxStep k b q s = .ok t) : OnWire k t := by
  intro hf hr
  obtain ⟨frame, _, htxh, _⟩ := rxStep_frame ht
  have hsrc := sameSource_of_engineFrame k frame
  have hs : sentBytes k s <:+ t.txh := by
    rw [htxh]
    exact h (by rcases awaiting_cases hp with e | e <;> simp [e]) fun _ => by
      rcases awaiting_cases hp with e | e <;> simp [e]
  suffices hsent : sentBytes k t = sentBytes k s from hsent ▸ hs
  cases rxMove_rxStep ht with
  | stay hph hidx hpos => exact sentBytes_congr hsrc hph hidx hpos
  | imageEnd hwas hph hidx =>
    rw [sentBytes_of_boundary k ⟨by simp [hph], by simp [hph]⟩, sentBytes_of_boundary k ⟨by simp [hwas], by simp [hwas]⟩,
      hidx, framesUpTo_congr hsrc]
  | chunk hwas hidx hpast =>
    have hack : s.phase = .awaitAck := (awaiting_cases hp).resolve_right hwas
    have hne : k ≠ .raw := by
      rcases hpast with e | e | ⟨e, _⟩
      · exact absurd e hf
      · exact fun hraw => hr hraw e
      · exact e
    have hbound : t.phase ≠ .awaitAck ∧ (t.phase = .sending → t.txPos = 0) := by
      rcases hpast with e | e | ⟨_, e | ⟨e, hpos⟩⟩
      · exact absurd e hf
      · simp [e]
      · simp [e]
      · simp [e, hpos]
    have hmore := ((hi.inFlight_of_opkind hk (busy_of_awaiting hp)).chunk (.inr hack)).more
    rw [hi.offset_eq hk (.inr hack) hne] at hmore
    rw [sentBytes_of_boundary k hbound, hi.sentBytes_of_awaitAck hk hack, hidx, chunkIdx_succ_toNat hne hmore,
      framesUpTo_congr hsrc]

theorem OnWire.txStep {k : Kind} {s t : State} (h : OnWire k s) (hi : EngineInv s) (hk : s.opkind = some k)
    (hp : s.phase = .sending) (ht : Machine.txStep k s = .ok t) : OnWire k t := by
  intro _ _
  have f := hi.inFlight_of_opkind hk (by rw [hp]; rfl)
  have hc := f.chunk (.inl hp)
  have hlt := f.sending hp
  have hidx0 := hi.offset_eq hk (.inl hp)
  have hsrc := sameSource_of_engineFrame k (engineFrame_txStep ht)
  obtain ⟨b, hb, htxh, hph, hidx, hpos⟩ := txStep_position ht
  obtain rfl : frameByteValue k s s.txPos.toNat = b := Except.ok.inj ((frameByte_eq hc f.total hlt).symm.trans hb)
  have hnext : t.txPos.toNat = s.txPos.toNat + 1 := by
    have h8 := hi.ranges.frameLen
    rw [hpos, BitVec.toNat_add]
    show (s.txPos.toNat + 1) % 2 ^ 14 = _
    omega
  have hsent : sentBytes k t = sentBytes k s ++ [frameByteValue k s s.txPos.toNat] := by
    rw [sentBytes_of_frame k (hph.imp_left fun e => e.trans hp), sentBytes_of_frame k (.inl hp), framesUpTo_congr hsrc,
      frameAt_congr hsrc, hidx, hnext, take_frameAt hc hidx0 hlt, take_frameAt hc hidx0 hlt.le, List.range_succ,
      List.map_append, List.append_assoc]
    rfl
  obtain ⟨before, e⟩ := h (by simp [hp]) (by simp [hp])
  exact ⟨before, by rw [hsent, htxh, ← e, List.append_assoc]⟩

/-- The engine's events of a cycle keep what a transfer has sent at the end of the history (R140, R143, R220). -/
theorem OnWire.engineEvents {k : Kind} {i : CycleInput} {s t : State} (h : OnWire k s) (hi : EngineInv s)
    (hk : s.opkind = some k) (ht : Machine.engineEvents i s = .ok t) : OnWire k t := by
  obtain ⟨a, b, ha, hb, rfl⟩ := engineEvents_cases ht
  have hlink : OnWire k (linkEvent s) := by
    rcases linkEvent_position s with e | ⟨x, e⟩
    · exact fun hf => absurd e hf
    · rw [e]
      exact h
  have herr : OnWire k (txErrEvent i.txErr (linkEvent s)) := by
    rcases txErrEvent_position i.txErr (linkEvent s) with e | e
    · exact fun hf => absurd e hf
    · rw [e]
      exact hlink
  have hkerr : (txErrEvent i.txErr (linkEvent s)).opkind = some k := by
    rw [(progressOnly_txErrEvent _ _).engine.opkind, linkEvent_opkind, hk]
  have hierr := hi.linkEvent.txErrEvent i.txErr
  have hrx : OnWire k a := by
    rcases rxEvent_cases ha with rfl | ⟨q, x, rest, _, hq, hp, _, _, hstep⟩
    · exact herr
    · obtain rfl : q = k := Option.some.inj (hq.symm.trans hkerr)
      exact herr.rxStep hierr hq hp hstep
  have hka : a.opkind = some k := (engineFrame_rxEvent ha).opkind.trans hkerr
  obtain ⟨a', ha', hia⟩ := hierr.rxEvent (rxReady s)
  obtain rfl : a' = a := Except.ok.inj (ha'.symm.trans ha)
  have htx : OnWire k b := by
    rcases txEvent_cases hb with rfl | ⟨q, hq, hp, _, _, hstep⟩
    · exact hrx
    · obtain rfl : q = k := Option.some.inj (hq.symm.trans hka)
      exact hrx.txStep hia hq hp hstep
  rcases tickEvent_position i.tick b with e | ⟨x, e⟩
  · exact fun hf => absurd e hf
  · rw [e]
    exact htx

theorem sameSource_engineEvents (k : Kind) {i : CycleInput} {s t : State} (h : engineEvents i s = .ok t) :
    SameSource k s t := by
  have hlink : SameSource k s (linkEvent s) := by
    rcases linkEvent_cases s with e | ⟨_, _, _, e⟩ | ⟨_, _, e⟩ | ⟨_, _, _, e⟩ <;> rw [e] <;>
      exact ⟨rfl, fun _ _ _ => rfl, fun _ => rfl, fun _ _ => rfl⟩
  exact hlink.trans (sameSource_of_engineFrame k (engineFrame_engineEvents h))

theorem engineEvents_opkind {i : CycleInput} {s t : State} (h : engineEvents i s = .ok t) : t.opkind = s.opkind :=
  (engineFrame_engineEvents h).opkind.trans (linkEvent_opkind s)

theorem WireOk.engineEvents {i : CycleInput} {s t : State} (h : WireOk s) (hi : EngineInv s)
    (ht : Machine.engineEvents i s = .ok t) : WireOk t := by
  intro hb k hkt hraw
  have hk : s.opkind = some k := (engineEvents_opkind ht).symm.trans hkt
  obtain ⟨hbs, hraws⟩ : s.phase.busy = true ∧ (k = .raw → s.phase = .sending) := by
    rcases phaseMove_engineEvents hk ht with e | e | ⟨e, _, hne⟩
    · exact ⟨e ▸ hb, fun hr => e ▸ hraw hr⟩
    · rw [e] at hb
      cases hb
    · exact ⟨e, fun hr => absurd (hraw hr) (hne hr)⟩
  have hw : OnWire k s := fun _ _ => h hbs k hk hraws
  refine hw.engineEvents hi hk ht (fun e => ?_) fun _ e => ?_ <;> rw [e] at hb <;> cases hb

/-! ### The host's events keep the wire -/

/-- A transfer that starts fails, ends at once with nothing to send, or stands at its first byte (R188). -/
theorem startTransfer_position (k : Kind) (w : Word) (s : State) :
    (startTransfer k w s).phase = .failed ∨
    (startTransfer k w s).phase = .complete ∧ (startTransfer k w s).totalLen = 0 ∨
    (startTransfer k w s).phase = .sending ∧ (startTransfer k w s).chunkIdx = 0 ∧ (startTransfer k w s).txPos = 0 := by
  unfold startTransfer
  dsimp only
  split
  · exact .inl rfl
  · split
    · next hw => exact .inr (.inl ⟨rfl, hw⟩)
    · obtain ⟨hidx, hph | ⟨hph, hpos⟩⟩ := setupChunk_position k (freshTransfer k w s)
      · exact .inl hph
      · exact .inr (.inr ⟨hph, hidx, hpos⟩)

theorem commandBody_of_startsTransfer {i : Instr} (h : startsTransfer i = true) (s : State) :
    ∃ k w u, commandBody i s = startTransfer k w u := by
  cases i with
  | sendImage => exact ⟨_, _, _, rfl⟩
  | updateFw => exact ⟨_, _, _, rfl⟩
  | rawCmd k => exact ⟨_, _, _, rfl⟩
  | _ => cases h

theorem wireOk_startTransfer (k : Kind) (w : Word) (s : State) : WireOk (startTransfer k w s) := by
  intro hb q _ _
  rcases startTransfer_position k w s with e | ⟨e, _⟩ | ⟨hph, hidx, hpos⟩
  · rw [e] at hb
    cases hb
  · rw [e] at hb
    cases hb
  · rw [sentBytes_of_start q hph hidx hpos]
    exact List.nil_suffix

theorem WireOk.exec {i : Instr} {s t : State} (h : WireOk s) (ht : Machine.exec i s = .next t) : WireOk t := by
  rcases exec_cases ht with ⟨_, rfl⟩ | ⟨_, rfl⟩
  · cases i with
    | nop => exact h
    | sendImage => exact wireOk_startTransfer _ _ _
    | updateFw => exact wireOk_startTransfer _ _ _
    | rawCmd k => exact wireOk_startTransfer _ _ _
    | abort =>
      rw [commandBody, requestAbort_eq]
      exact h
    | quit => exact fun hb => by cases hb
  · exact h

/-- RAW_CMD_BUF may be written while no raw frame is being sent (R244). -/
theorem WireOk.setRawCmdBuf {s : State} (h : WireOk s) (hl : rawBufLocked s = false) (m : Memory) :
    WireOk { s with rawCmdBuf := m } := by
  intro hb k hk hraw
  have hne : k ≠ .raw := by
    rintro rfl
    have hlocked : rawBufLocked s = true := by
      unfold rawBufLocked
      rw [decide_eq_true hk, decide_eq_true (hraw rfl)]
      rfl
    rw [hl] at hlocked
    cases hlocked
  have hsrc : SameSource k s { s with rawCmdBuf := m } :=
    ⟨rfl, fun _ _ _ => rfl, fun _ => rfl, fun e => absurd e hne⟩
  rw [sentBytes_congr hsrc rfl rfl rfl]
  exact h hb k hk hraw

/-- The payload may be written from TOTAL_LEN on, and anywhere while no image or firmware is in flight (R244). -/
theorem WireOk.payloadPort {p : PayloadWrite} {s : State} (h : WireOk s) (hl : payloadLocked p.addr s = false) :
    WireOk (Machine.payloadPort p s) := by
  unfold Machine.payloadPort
  split
  · intro hb k hk hraw
    have hbs : s.phase.busy = true := hb
    have hks : s.opkind = some k := hk
    have hsrc : SameSource k s (s.writeByte .payload p.addr.toNat p.data) := by
      refine ⟨rfl, fun hne a ha => ?_, fun _ => rfl, fun _ _ => rfl⟩
      have hge : s.totalLen.toNat ≤ p.addr.toNat := by
        unfold payloadLocked at hl
        cases k with
        | raw => exact absurd rfl hne
        | _ => simpa [hks, hbs] using hl
      rw [readByte_writeByte, if_neg (by omega)]
    rw [sentBytes_congr hsrc rfl rfl rfl]
    exact h hbs k hks hraw
  · exact h

theorem WireOk.hostEvent {a : Option HostAccess} {s t : State} (h : WireOk s) (ht : Machine.hostEvent a s = .next t) :
    WireOk t := by
  rcases hostEvent_cases ht with ⟨_, rfl⟩ | ⟨_, _, _, _, _, rfl⟩ | ⟨_, _, w, tg, _, _, hl, hw⟩
  · exact h
  · exact h
  · have h' : WireOk { s with busResp := some ⟨false, none⟩ } := h
    rcases hostWrite_cases (t := tg) (w := w) (s := { s with busResp := some ⟨false, none⟩ }) with
      ⟨_, e⟩ | ⟨_, e⟩ | ⟨_, e⟩ | ⟨i, rfl, e⟩ | ⟨i, rfl, e⟩ | e <;> rw [e] at hw
    · rcases dispatch_cases w { s with busResp := some ⟨false, none⟩ } with ⟨i, _, e⟩ | ⟨_, e⟩ <;> rw [e] at hw
      · exact h'.exec hw
      · cases hw
        exact h
    · cases hw
      exact h
    · cases hw
      exact h
    · cases hw
      exact h'.setRawCmdBuf hl _
    · obtain ⟨m, e⟩ := writeWord_rawCmdBuf i w { s with busResp := some ⟨false, none⟩ }
      rw [e] at hw
      cases hw
      exact h'.setRawCmdBuf hl m
    · cases hw
      exact h

theorem WireOk.hostEvents {i : CycleInput} {s t : State} (h : WireOk s) (ht : Machine.hostEvents i s = .next t) :
    WireOk t := by
  obtain ⟨u, hu, hp⟩ := hostEvents_cases ht
  rcases payloadEvent_cases hp with ⟨_, rfl⟩ | ⟨p, _, hl, rfl⟩
  · exact h.hostEvent hu
  · exact (h.hostEvent hu).payloadPort hl

/-- Settles O59: reset leaves no operation in flight; otherwise the engine's events and then the host's keep the wire. -/
theorem everyStepKeepsTheWireStream : Obligations.EveryStepKeepsTheWireStream := by
  unfold Obligations.EveryStepKeepsTheWireStream
  intro s t hi hw ht
  rcases step_cases ht with ⟨_, rfl⟩ | ⟨_, u, hu, hh⟩
  · exact fun hb => by cases hb
  · have hstart : WireOk (environmentEvent (nextInput s) (consumeInput s)) := hw
    exact (hstart.engineEvents (hi.engine.consumeInput.environmentEvent _) hu).hostEvents hh

end Sys2Proof.Safety
end

section
/-! Ends of transfers on the wire (R147, R252): a complete image or firmware transfer has sent all of its frames, a raw frame
is out when its ack is awaited, and a run of an operation ends with its frames sent. -/

namespace Sys2Proof.Safety

open Sys2Proof.Machine

/-! ### All frames of a complete transfer -/

/-- A transfer that is complete with OK has every chunk of its partition behind it (R110, R147). -/
theorem EngineInv.chunkIdx_of_complete {k : Kind} {s : State} (h : EngineInv s) (hk : s.opkind = some k) (hne : k ≠ .raw)
    (hc : s.phase = .complete) (hr : s.result = .ok) : s.chunkIdx.toNat = (partition k s.totalLen.toNat).length := by
  have hnf : s.phase ≠ .failed := by simp [hc]
  have hoff := h.listed.progress k hne hk hnf
  rw [(h.counts.done hc hr).2, partition_take_sum] at hoff
  have hge : ¬ s.chunkIdx.toNat < (partition k s.totalLen.toNat).length := by
    rw [lt_partition_length_iff]
    omega
  exact Nat.le_antisymm (h.counts.index k hne hk hnf) (Nat.le_of_not_lt hge)

theorem OnWire.framesUpTo_of_complete {k : Kind} {s : State} (h : OnWire k s) (hi : EngineInv s) (hk : s.opkind = some k)
    (hne : k ≠ .raw) (hc : s.phase = .complete) (hr : s.result = .ok) :
    framesUpTo k s s.totalLen.toNat (partition k s.totalLen.toNat).length <:+ s.txh := by
  rw [← hi.chunkIdx_of_complete hk hne hc hr, ← sentBytes_of_boundary k ⟨by simp [hc], by simp [hc]⟩]
  exact h (by simp [hc]) fun e => absurd e hne

/-- In AWAIT_ACK of a raw transfer the RAW frame is out (R90). -/
theorem OnWire.rawFrame_of_awaitAck {s : State} (h : OnWire .raw s) (hi : EngineInv s) (hk : s.opkind = some .raw)
    (hp : s.phase = .awaitAck) : rawFrame s <:+ s.txh := by
  have hsent := h (by simp [hp]) (by simp [hp])
  rw [hi.sentBytes_of_awaitAck hk hp, framesUpTo_succ] at hsent
  exact (List.suffix_append _ _).trans hsent

/-- The engine's events of a transfer in flight keep it on the wire, a raw one while its frame is being sent. -/
theorem WireOk.onWire_engineEvents {k : Kind} {i : CycleInput} {s t : State} (h : WireOk s) (hi : EngineInv s)
    (hb : s.phase.busy = true) (hk : s.opkind = some k) (hraw : k = .raw → s.phase = .sending)
    (ht : Machine.engineEvents i s = .ok t) : OnWire k t :=
  OnWire.engineEvents (fun _ _ => h hb k hk hraw) hi hk ht

/-- The engine's invariant after the engine's events of a cycle. -/
theorem EngineInv.of_engineEvents {i : CycleInput} {s t : State} (h : EngineInv s)
    (ht : Machine.engineEvents i s = .ok t) : EngineInv t := by
  obtain ⟨u, hu, hi⟩ := h.engineEvents i
  obtain rfl : u = t := Except.ok.inj (hu.symm.trans ht)
  exact hi

theorem Inv.started {s : State} (h : Inv s) : EngineInv (started s) := h.engine.consumeInput.environmentEvent _

theorem WireOk.started {s : State} (h : WireOk s) : WireOk (started s) := h

theorem sameSource_started (k : Kind) (s : State) : SameSource k s (started s) :=
  ⟨rfl, fun _ _ _ => rfl, fun _ => rfl, fun _ _ => rfl⟩

/-! ### PHASE and the host's events -/

theorem not_busy_of_transferCause {s : State} (h : transferCause s = .none) : s.phase.busy = false := by
  unfold transferCause at h
  split at h
  · cases h
  · next hb => exact Bool.eq_false_iff.2 hb

/-- A transfer command and QUIT are accepted only while no operation is in flight (R180). -/
theorem not_busy_of_commandCause {i : Instr} {s : State} (hnop : i ≠ .nop) (habort : i ≠ .abort)
    (h : commandCause i s = .none) : s.phase.busy = false := by
  cases i with
  | nop => exact absurd rfl hnop
  | sendImage => exact not_busy_of_transferCause h
  | updateFw =>
    unfold commandCause updateFwCause at h
    dsimp only at h
    split at h
    · cases h
    · exact not_busy_of_transferCause h
  | rawCmd k =>
    unfold commandCause rawCmdCause at h
    dsimp only at h
    split at h
    · exact not_busy_of_transferCause h
    · cases h
  | abort => exact absurd rfl habort
  | quit =>
    unfold commandCause quitCause at h
    dsimp only at h
    split at h
    · cases h
    · next hb => exact Bool.eq_false_iff.2 hb

/-- What the host can do to PHASE: nothing while an operation is in flight, and never lead into an ack sequence (R180). -/
def HostPhase (s t : State) : Prop := t.phase = s.phase ∨ s.phase.busy = false ∧ t.phase.awaiting = false

theorem startTransfer_not_awaiting (k : Kind) (w : Word) (s : State) :
    (startTransfer k w s).phase.awaiting = false := by
  rcases startTransfer_position k w s with e | ⟨e, _⟩ | ⟨e, _⟩ <;> rw [e] <;> rfl

theorem hostPhase_exec {i : Instr} {s t : State} (h : exec i s = .next t) : HostPhase s t := by
  rcases exec_cases h with ⟨hc, rfl⟩ | ⟨_, rfl⟩
  · have hb := not_busy_of_commandCause (i := i) (s := s)
    cases i with
    | nop => exact .inl rfl
    | sendImage => exact .inr ⟨hb nofun nofun hc, startTransfer_not_awaiting _ _ _⟩
    | updateFw => exact .inr ⟨hb nofun nofun hc, startTransfer_not_awaiting _ _ _⟩
    | rawCmd k => exact .inr ⟨hb nofun nofun hc, startTransfer_not_awaiting _ _ _⟩
    | abort => exact .inl (by simp [commandBody, requestAbort_eq])
    | quit => exact .inr ⟨hb nofun nofun hc, rfl⟩
  · exact .inl rfl

/-- A payload-port write changes the payload alone (R61). -/
theorem payloadEvent_eq {p : Option PayloadWrite} {s t : State} (h : payloadEvent p s = .next t) :
    t = { s with payload := t.payload } := by
  rcases payloadEvent_cases h with ⟨_, rfl⟩ | ⟨p, _, _, rfl⟩
  · rfl
  · unfold payloadPort
    split <;> rfl

theorem hostPhase_hostEvents {i : CycleInput} {s t : State} (h : hostEvents i s = .next t) : HostPhase s t := by
  obtain ⟨u, hu, hp⟩ := hostEvents_cases h
  have hph : t.phase = u.phase := by rw [payloadEvent_eq hp]
  suffices hsu : HostPhase s u by
    unfold HostPhase
    rw [hph]
    exact hsu
  rcases hostEvent_cases hu with ⟨_, rfl⟩ | ⟨_, _, _, _, _, rfl⟩ | ⟨_, _, w, tg, _, _, _, hw⟩
  · exact .inl rfl
  · exact .inl rfl
  · rcases hostWrite_cases (t := tg) (w := w) (s := { s with busResp := some ⟨false, none⟩ }) with
      ⟨_, e⟩ | ⟨_, e⟩ | ⟨_, e⟩ | ⟨i, _, e⟩ | ⟨i, _, e⟩ | e <;> rw [e] at hw
    · rcases dispatch_cases w { s with busResp := some ⟨false, none⟩ } with ⟨i, _, e⟩ | ⟨_, e⟩ <;> rw [e] at hw
      · exact (hostPhase_exec hw :)
      · cases hw
        exact .inl rfl
    all_goals
      rw [← Host.Outcome.next.inj hw]
      exact .inl (by simp [writeWord])

/-! ### Runs of an operation -/

theorem commandOf?_eq_some {s : State} {i : Instr} (h : commandOf? s = some i) :
    (nextInput s).rst = false ∧ ∃ w, (nextInput s).host = some (.write .word 0x000#12 w) ∧ decode w = .ok i := by
  unfold commandOf? at h
  split at h
  · cases h
  · next hr =>
    refine ⟨Bool.eq_false_iff.2 hr, ?_⟩
    split at h
    · next a w hh =>
      split at h
      · next ha =>
        cases hd : decode w with
        | ok j =>
          rw [hd] at h
          cases h
          exact ⟨w, by rw [hh, ha]; rfl, hd⟩
        | error e =>
          rw [hd] at h
          cases h
      · cases h
    · cases h

/-- A transfer command that is accepted and complete in its own cycle had nothing to send (R188, D13). -/
theorem totalLen_of_accepted_complete {s t : State} {i : Instr} (h : accepted? s = some (i, t))
    (hi : startsTransfer i = true) (hc : t.phase = .complete) : t.totalLen = 0 := by
  obtain ⟨hcmd, hstep, herr⟩ := accepted?_eq_some h
  obtain ⟨hr, w, hh, hd⟩ := commandOf?_eq_some hcmd
  rcases step_cases hstep with ⟨hr', _⟩ | ⟨_, u, _, hev⟩
  · rw [hr] at hr'
    cases hr'
  · obtain ⟨v, hv, hp⟩ := hostEvents_cases hev
    have hexec : exec i { u with busResp := some ⟨false, none⟩ } = .next v := by
      rw [hh, hostEvent_write (tg := .reg .cmd) rfl rfl] at hv
      simpa [hostWrite, dispatch, hd] using hv
    rw [payloadEvent_eq hp] at herr hc ⊢
    rcases exec_cases hexec with ⟨_, rfl⟩ | ⟨_, rfl⟩
    · obtain ⟨k, x, y, e⟩ := commandBody_of_startsTransfer hi (accept { u with busResp := some ⟨false, none⟩ })
      simp only [e] at hc ⊢
      rcases startTransfer_position k x y with e | ⟨_, e⟩ | ⟨e, _⟩
      · rw [e] at hc
        cases hc
      · exact e
      · rw [e] at hc
        cases hc
    · cases herr

theorem runEnded_iff {s : State} : runEnded s = true ↔ s.phase = .complete ∨ s.phase = .failed := by
  simp [runEnded]

/-- Outside a reset cycle, the state after the engine's events. -/
theorem afterEngine?_eq_some {s v : State} (h : afterEngine? s = some v) :
    (nextInput s).rst = false ∧ engineEvents (nextInput s) (started s) = .ok v := by
  unfold afterEngine? at h
  split at h
  · cases h
  · next hr =>
    refine ⟨Bool.eq_false_iff.2 hr, ?_⟩
    unfold started
    generalize engineEvents _ _ = e at h ⊢
    cases e with
    | ok x => exact congrArg Except.ok (Option.some.inj h)
    | error f => cases h

/-- The end of a run is the state itself, the state after the engine's events of the next cycle, or the end of the run that
the next cycle leaves (R252). -/
theorem operationEndWithin_cases {n : Nat} {s u : State} (h : operationEndWithin n s = some u) :
    runEnded s = true ∧ u = s ∨
    ∃ v, s.phase.busy = true ∧ afterEngine? s = some v ∧
      (runEnded v = true ∧ u = v ∨
        runEnded v = false ∧ ∃ m t, n = m + 1 ∧ step s = .next t ∧ operationEndWithin m t = some u) := by
  unfold operationEndWithin at h
  split at h
  · next he =>
    cases h
    exact .inl ⟨he, rfl⟩
  · split at h
    · next m v hb ha =>
      refine .inr ⟨v, hb, ha, ?_⟩
      split at h
      · next hv =>
        cases h
        exact .inl ⟨hv, rfl⟩
      · next hv =>
        split at h
        · next t ht => exact .inr ⟨Bool.eq_false_iff.2 hv, m, t, rfl, ht, h⟩
        · cases h
    · cases h

/-- An operation that the engine's events of a cycle do not end is still in flight after the cycle (R180, R220). -/
theorem busy_of_step {k : Kind} {s v t : State} (hk : s.opkind = some k) (hb : s.phase.busy = true)
    (hv : afterEngine? s = some v) (hne : runEnded v = false) (ht : step s = .next t) : t.phase.busy = true := by
  obtain ⟨hr, hev⟩ := afterEngine?_eq_some hv
  have hvb : v.phase.busy = true := by
    have hnot : ¬ (v.phase = .complete ∨ v.phase = .failed) := by
      rw [← runEnded_iff, hne]
      decide
    exact (phaseMove_engineEvents (s := started s) hk hev).busy hb (fun e => hnot (.inl e)) fun e => hnot (.inr e)
  rcases step_cases ht with ⟨hr', _⟩ | ⟨_, w, hw, hh⟩
  · rw [hr] at hr'
    cases hr'
  · obtain rfl : w = v := Except.ok.inj (hw.symm.trans hev)
    rcases hostPhase_hostEvents hh with e | ⟨e, _⟩
    · rw [e, hvb]
    · rw [hvb] at e
      cases e

theorem EngineInv.result_of_failed {s : State} (h : EngineInv s) (hf : s.phase = .failed) : s.result ≠ .ok := by
  rcases h.outcome.failed hf with e | e | e <;> simp [e]

/-- A run that is in flight and ends with OK ends with the frames of its transfer at the end of the history. -/
theorem framesUpTo_of_operationEndWithin {n : Nat} {s u : State} {k : Kind} (hi : Inv s) (hw : WireOk s)
    (hb : s.phase.busy = true) (h : operationEndWithin n s = some u) (hk : u.opkind = some k) (hne : k ≠ .raw)
    (hr : u.result = .ok) : framesUpTo k u u.totalLen.toNat (partition k u.totalLen.toNat).length <:+ u.txh := by
  induction n using Nat.strong_induction_on generalizing s with
  | _ n ih =>
  obtain ⟨q, f⟩ := hi.engine.inFlight hb
  rcases operationEndWithin_cases h with ⟨he, _⟩ | ⟨v, _, hv, ⟨he, rfl⟩ | ⟨hne', m, t, rfl, ht, hrun⟩⟩
  · rcases runEnded_iff.1 he with e | e <;> rw [e] at hb <;> cases hb
  · obtain ⟨_, hev⟩ := afterEngine?_eq_some hv
    have hiv := hi.started.of_engineEvents hev
    have hks : s.opkind = some k := (engineEvents_opkind hev).symm.trans hk
    have hc : u.phase = .complete := (runEnded_iff.1 he).resolve_right fun e => hiv.result_of_failed e hr
    exact (hw.started.onWire_engineEvents hi.started hb hks (absurd · hne) hev).framesUpTo_of_complete hiv hk hne hc hr
  · exact ih m (Nat.lt_succ_self m) (everyStepKeepsTheInvariant s t hi ht) (everyStepKeepsTheWireStream s t hi hw ht)
      (busy_of_step f.opkind hb hv hne' ht) hrun

/-- A run of an image or firmware operation that ends with OK has its frames at the end of the history: it was complete at
once with nothing to send, or in flight after its command (R188, R252). -/
theorem framesUpTo_of_operationEnd {n : Nat} {s u : State} {k : Kind} (hi : Inv s) (hw : WireOk s)
    (h : operationEnd n s = some u) (hk : u.opkind = some k) (hne : k ≠ .raw) (hr : u.result = .ok) :
    framesUpTo k u u.totalLen.toNat (partition k u.totalLen.toNat).length <:+ u.txh := by
  obtain ⟨i, t, ha, hs, hrun⟩ := operationEnd_eq_some h
  obtain ⟨_, ht, _⟩ := accepted?_eq_some ha
  have hit := everyStepKeepsTheInvariant s t hi ht
  rcases operationEndWithin_cases hrun with ⟨he, rfl⟩ | ⟨_, hb, _⟩
  · have hc : u.phase = .complete := (runEnded_iff.1 he).resolve_right fun e => hit.engine.result_of_failed e hr
    have hzero : u.totalLen.toNat = 0 := by rw [totalLen_of_accepted_complete ha hs hc]; rfl
    rw [hzero, partition_zero]
    exact List.nil_suffix
  · exact framesUpTo_of_operationEndWithin hit (everyStepKeepsTheWireStream s t hi hw ht) hb hrun hk hne hr

/-- Settles O60: the engine's events that end a transfer leave it on the wire with its whole partition acknowledged; a raw
frame awaiting its ack is whole; and a run follows its operation cycle by cycle to such events. -/
theorem completedTransferHasSentItsFrames : Obligations.CompletedTransferHasSentItsFrames := by
  unfold Obligations.CompletedTransferHasSentItsFrames
  refine ⟨fun s u k hi hw hb hk hne hrst hu hc hr => ⟨?_, fun t ht => ?_⟩, fun s t hi hw hp hk ht htp => ?_,
    fun n s u k hi hw h hk hne hr => framesUpTo_of_operationEnd hi hw h hk hne hr⟩
  · have hsrc : SameSource k s u := (sameSource_started k s).trans (sameSource_engineEvents k hu)
    rw [← framesUpTo_congr hsrc, ← hsrc.totalLen]
    exact (hw.started.onWire_engineEvents hi.started hb hk (absurd · hne) hu).framesUpTo_of_complete
      (hi.started.of_engineEvents hu) ((engineEvents_opkind hu).trans hk) hne hc hr
  · rcases step_cases ht with ⟨hrst', _⟩ | ⟨_, v, hv, hh⟩
    · rw [hrst] at hrst'
      cases hrst'
    · obtain rfl : v = u := Except.ok.inj (hv.symm.trans hu)
      exact (hostFrame_hostEvents hh).txh
  · rcases step_cases ht with ⟨_, rfl⟩ | ⟨_, u, hu, hh⟩
    · cases htp
    · have hup : u.phase = .awaitAck := by
        rcases hostPhase_hostEvents hh with e | ⟨_, e⟩
        · rw [← e, htp]
        · rw [htp] at e
          cases e
      have hsrc : SameSource .raw s u := (sameSource_started .raw s).trans (sameSource_engineEvents .raw hu)
      have hframe : rawFrame u = rawFrame s := frameAt_congr hsrc 0
      have hwire := hw.started.onWire_engineEvents hi.started (by rw [show (started s).phase = .sending from hp]; rfl) hk
        (fun _ => hp) hu
      rw [(hostFrame_hostEvents hh).txh, ← hframe]
      exact hwire.rawFrame_of_awaitAck (hi.started.of_engineEvents hu) ((engineEvents_opkind hu).trans hk) hup

end Sys2Proof.Safety
end

section
/-! The Frame Codec (spec/40_frame_codec.md): the partition of any payload, the firmware header and its inverse, the bytes of
the three frames, and the wire totals of a transfer that completes. -/

namespace Sys2Proof.Machine

/-! ### The partition (R110) -/

theorem partition_sum (k : Kind) (len : Nat) : (partition k len).sum = len := by
  have hle : len ≤ (partition k len).length * k.maxChunk :=
    Nat.le_of_not_lt fun h => Nat.lt_irrefl _ ((lt_partition_length_iff k len _).2 h)
  have htake := partition_take_sum k len (partition k len).length
  rwa [List.take_length, Nat.min_eq_right hle] at htake

/-- Every chunk but the last is full. -/
theorem partition_getD_of_more (k : Kind) {len i : Nat} (h : i + 1 < (partition k len).length) :
    (partition k len).getD i 0 = k.maxChunk := by
  have hnext := (lt_partition_length_iff k len (i + 1)).1 h
  rw [Nat.add_mul, Nat.one_mul] at hnext
  rw [partition_getD k (by omega)]
  omega

/-- The last chunk is the rest of the payload, from one byte to a full chunk. -/
theorem partition_getD_last (k : Kind) {len i : Nat} (h : i + 1 = (partition k len).length) :
    (partition k len).getD i 0 = len - i * k.maxChunk ∧
      1 ≤ (partition k len).getD i 0 ∧ (partition k len).getD i 0 ≤ k.maxChunk := by
  have hmore := (lt_partition_length_iff k len i).1 (by omega)
  have hend : ¬ (i + 1) * k.maxChunk < len := by
    rw [← lt_partition_length_iff]
    omega
  rw [Nat.add_mul, Nat.one_mul] at hend
  rw [partition_getD k hmore]
  omega

/-- Settles O18: an index is the last one exactly when the next chunk would begin past the payload, and each chunk has the
length of R111. -/
theorem partitionCoversThePayload : Obligations.PartitionCoversThePayload := by
  unfold Obligations.PartitionCoversThePayload
  have himage : partition .image 134400 = List.replicate 16 8192 ++ [3328] :=
    partition_eq (k := .image) (n := 16) (by decide) (by decide)
  have hraw : partition .raw 68 = [68] := partition_eq (k := .raw) (n := 0) (by decide) (by decide)
  exact ⟨maxChunk_image, maxChunk_firmware, maxChunk_raw, himage, hraw, fun k len =>
    ⟨partition_length k len, partition_sum k len, fun _ => partition_getD_of_more k, fun _ => partition_getD_last k⟩⟩

/-! ### The firmware header (R65, R113, R114) -/

theorem le32_append (b3 b2 b1 b0 : Byte) : le32 (b3 ++ b2 ++ b1 ++ b0 : BitVec 32) = [b0, b1, b2, b3] := by
  simp (disch := decide) only [le32, BitVec.extractLsb'_append_eq_of_add_le, BitVec.extractLsb'_append_eq_of_le]
  simp [BitVec.extractLsb'_eq_self]

/-- A number below 2^16 has zeros as its upper two bytes. -/
theorem le32_ofNat {n : Nat} (h : n < 2 ^ 16) :
    le32 (BitVec.ofNat 32 n) = [BitVec.ofNat 8 (n % 256), BitVec.ofNat 8 (n / 256), 0x00#8, 0x00#8] := by
  have hword : BitVec.ofNat 32 n = 0x00#8 ++ 0x00#8 ++ BitVec.ofNat 8 (n / 256) ++ BitVec.ofNat 8 (n % 256) := by
    have hhi : n / 256 % 2 ^ 8 = n / 256 := Nat.mod_eq_of_lt (by omega)
    have hlo : n % 256 < 2 ^ 8 := Nat.mod_lt _ (by decide)
    refine BitVec.eq_of_toNat_eq ?_
    simp only [BitVec.toNat_append, BitVec.toNat_ofNat, Nat.mod_eq_of_lt hlo, hhi]
    rw [← Nat.shiftLeft_add_eq_or_of_lt hlo, Nat.shiftLeft_eq, Nat.zero_mod, Nat.zero_shiftLeft, Nat.zero_or,
      Nat.zero_shiftLeft, Nat.zero_or]
    omega
  rw [hword, le32_append]

/-- Settles O19: `len + 8` needs two bytes of its four. -/
theorem firmwareHeaderBytes : Obligations.FirmwareHeaderBytes := by
  unfold Obligations.FirmwareHeaderBytes
  intro len _ hle
  have hsize : len + Config.fwHdrBytes < 2 ^ 16 := by
    simp only [Config.fwHdrBytes]
    omega
  rw [fwHeader, le32_ofNat hsize]
  rfl

theorem magicBusy_ne_magicTerm : Config.magicBusy ≠ Config.magicTerm := by decide

theorem magic1_eq_magicBusy_iff (len : Nat) : magic1 len = Config.magicBusy ↔ len = 8184 := by
  simp [magic1, magicBusy_ne_magicTerm.symm]

theorem magic1_eq_magicTerm_iff (len : Nat) : magic1 len = Config.magicTerm ↔ len ≠ 8184 := by
  simp [magic1, magicBusy_ne_magicTerm]

/-! ### The inverse of the firmware frame (R119) -/

theorem decodeFwFrame_fwFrame {p : List Byte} (h : 1 ≤ p.length) (h' : p.length ≤ 8184) :
    decodeFwFrame (fwFrame p) = some ⟨decide (p.length < 8184), p.length + 8, p⟩ := by
  have hword := lanes_append (BitVec.ofNat 32 (p.length + 8))
  have hsize : (BitVec.ofNat 32 (p.length + 8)).toNat = p.length + 8 := Nat.mod_eq_of_lt (by omega)
  have hmagic : magic1 p.length = Config.magicBusy ∨ magic1 p.length = Config.magicTerm := by
    rw [magic1_eq_magicBusy_iff, magic1_eq_magicTerm_iff]
    exact em _
  have hbusy : magic1 p.length = Config.magicBusy ↔ p.length + 8 = 8192 := by
    rw [magic1_eq_magicBusy_iff]
    omega
  have hlast : decide (magic1 p.length = Config.magicTerm) = decide (p.length < 8184) := by
    rw [decide_eq_decide, magic1_eq_magicTerm_iff]
    omega
  simp only [lane] at hword
  simp only [fwFrame, fwHeader, le32, List.cons_append, List.nil_append, decodeFwFrame, hword, hsize, hlast]
  exact if_pos ⟨trivial, hmagic, trivial, trivial, by omega, by omega, rfl, hbusy⟩

/-- The size field and the magic bytes of a valid frame are the ones that the length of its payload gives. -/
theorem eq_fwFrame_of_decodeFwFrame {f : List Byte} {r : FwFrame} (h : decodeFwFrame f = some r) :
    f = fwFrame r.payload ∧ 1 ≤ r.payload.length ∧ r.payload.length ≤ 8184 ∧ r.size = r.payload.length + 8 ∧
      (r.last = true ↔ r.payload.length < 8184) := by
  unfold decodeFwFrame at h
  split at h
  · next m0 m1 m2 m3 s0 s1 s2 s3 rest =>
    dsimp only at h
    split at h
    · next hv =>
      obtain ⟨rfl, hmagic, rfl, rfl, hlo, hhi, hlen, hbusy⟩ := hv
      cases h
      have hsize : (s3 ++ s2 ++ s1 ++ s0 : BitVec 32).toNat = rest.length + 8 := hlen.symm
      rw [hsize] at hlo hhi hbusy
      have hbytes : le32 (BitVec.ofNat 32 (rest.length + 8)) = [s0, s1, s2, s3] := by
        rw [← hsize, BitVec.ofNat_toNat, BitVec.setWidth_eq, le32_append]
      have hm : m0 = magic1 rest.length := by
        unfold magic1
        split
        · next hfull => exact hbusy.2 (congrArg (· + 8) hfull)
        · next hshort => exact hmagic.resolve_left fun e => hshort (Nat.add_right_cancel (m := 8) (hbusy.1 e))
      refine ⟨?_, by dsimp only; omega, by dsimp only; omega, hsize, ?_⟩
      · simp only [fwFrame, fwHeader, Config.fwHdrBytes, hbytes, ← hm]
        rfl
      · dsimp only
        rw [decide_eq_true_eq, hm, magic1_eq_magicTerm_iff]
        omega
    · cases h
  · cases h

/-- Settles O20: the decoder's checks hold of a built frame, and they leave no other frame. -/
theorem firmwareFrameRoundTrip : Obligations.FirmwareFrameRoundTrip := by
  unfold Obligations.FirmwareFrameRoundTrip
  exact ⟨fun _ => decodeFwFrame_fwFrame, fun _ _ => eq_fwFrame_of_decodeFwFrame⟩

end Sys2Proof.Machine

namespace Sys2Proof.Safety

open Sys2Proof.Machine

/-! ### The bytes of a frame (R116, R117) -/

/-- Any state sends its frame's bytes if the chunk of an image or firmware lies in the payload space: there the 32-bit address
does not wrap. -/
theorem frameByte_eq_frameByteValue {k : Kind} {p : Nat} {s : State} (hp : p < (frameLenOf k s.chunkLen).toNat)
    (hin : k ≠ .raw → s.offset.toNat + s.chunkLen.toNat ≤ Config.payloadBytes) :
    frameByte k p s = .ok (frameByteValue k s p) := by
  have hload {q : Nat} (hne : k ≠ .raw) (hq : q < s.chunkLen.toNat) :
      loadByte .payload (payloadAddr s q) s = .ok (s.readByte .payload (s.offset.toNat + q)) := by
    have hend := hin hne
    have hlt := payloadBytes_lt
    have haddr : payloadAddr s q = s.offset.toNat + q := by
      simp only [payloadAddr, BitVec.toNat_add, BitVec.toNat_ofNat]
      omega
    rw [haddr, loadByte_ok_iff]
    exact ⟨(inPayload_iff _).2 (by omega), rfl⟩
  unfold frameByte
  rw [if_pos hp]
  cases k with
  | image => exact hload nofun hp
  | firmware =>
    dsimp only
    rcases Nat.lt_or_ge p 8 with h8 | h8
    · have hl : p < (fwHeader s.chunkLen.toNat).length := h8
      simp only [frameByteValue, if_pos h8, List.getElem?_eq_getElem hl, List.getD_eq_getElem _ _ hl]
    · have hnone : (fwHeader s.chunkLen.toNat)[p]? = none := List.getElem?_eq_none h8
      have hp' : p < (s.chunkLen.toNat + 8) % 2 ^ 14 := hp
      simp only [hnone, frameByteValue, if_neg (Nat.not_lt.2 h8)]
      exact hload nofun (show p - 8 < _ by omega)
  | raw =>
    have hload : loadByte .rawCmdBuf p s = .ok (s.readByte .rawCmdBuf p) :=
      loadByte_ok_iff.2 ⟨decide_eq_true hp, rfl⟩
    simp only [rawByte, hload, frameByteValue]
    exact (apply_ite Except.ok _ _ _).symm

/-- Settles O21: a raw frame reads no payload, so its bytes are `frameByteValue` in every state. -/
theorem rawFrameIsPaddedWithZeros : Obligations.RawFrameIsPaddedWithZeros := by
  unfold Obligations.RawFrameIsPaddedWithZeros
  exact fun s p hp => frameByte_eq_frameByteValue (k := .raw) hp (absurd rfl)

/-- Settles O23: the positions named lie inside the frame, and `frameByteValue` splits a firmware frame at its header. -/
theorem payloadFramesAreTheirBytes : Obligations.PayloadFramesAreTheirBytes := by
  unfold Obligations.PayloadFramesAreTheirBytes
  intro s p h
  have hfw (hc : s.chunkLen.toNat ≤ 8184) : (frameLenOf .firmware s.chunkLen).toNat = s.chunkLen.toNat + 8 :=
    frameLenOf_toNat hc
  refine ⟨fun _ hp => frameByte_eq_frameByteValue (k := .image) hp fun _ => h, fun hc hp => ?_, fun hc hp hp' => ?_⟩
  · rw [frameByte_eq_frameByteValue (by rw [hfw hc]; omega) fun _ => h, frameByteValue, if_pos hp]
  · rw [frameByte_eq_frameByteValue (by rw [hfw hc]; omega) fun _ => h, frameByteValue, if_neg (Nat.not_lt.2 hp)]

/-! ### The wire totals (R120) -/

theorem sentSoFar_of_complete {k : Kind} {s : State} (h : EngineInv s) (hc : s.phase = .complete) (hr : s.result = .ok)
    (hk : s.opkind = some k) : sentSoFar k s = wireTxTotal k s.totalLen.toNat := by
  have hoff := (h.counts.done hc hr).2
  have hsent : sentSoFar k s = s.totalLen.toNat + headerBytes k * s.chunkIdx.toNat := by
    simp [sentSoFar, hc, hoff]
  rw [hsent]
  cases k with
  | image => simp [headerBytes, wireTxTotal]
  | firmware =>
    rw [h.chunkIdx_of_complete hk nofun hc hr, partition_length]
    rfl
  | raw =>
    have htotal : s.totalLen.toNat = Config.rawCmdBytes := h.counts.total .raw nofun hk
    simp [headerBytes, wireTxTotal, htotal]

theorem receivedSoFar_of_complete {k : Kind} {s : State} (h : EngineInv s) (hc : s.phase = .complete) (hr : s.result = .ok)
    (hk : s.opkind = some k) : receivedSoFar k s = wireRxTotal k s.totalLen.toNat s.rawRespLen.toNat := by
  have hidx (hne : k ≠ .raw) : s.chunkIdx.toNat = ceilDiv s.totalLen.toNat k.maxChunk := by
    rw [h.chunkIdx_of_complete hk hne hc hr, partition_length]
  have hna : ¬ s.phase.awaiting = true := by
    rw [hc]
    decide
  unfold receivedSoFar
  rw [if_neg hna]
  cases k with
  | image =>
    rw [hidx nofun, if_pos ⟨hc, hr⟩]
    rfl
  | firmware =>
    rw [hidx nofun]
    rfl
  | raw => exact if_pos hc

/-- Settles O58: the counters count what was sent and received, and a complete transfer has its whole partition behind it. -/
theorem wireTotalsOfACompletedTransfer : Obligations.WireTotalsOfACompletedTransfer := by
  unfold Obligations.WireTotalsOfACompletedTransfer
  intro s k ⟨hi, _, _⟩ hc hr hk
  rw [hi.counts.tx k hk (.inr hc), hi.counts.rx k hk (.inr hc), sentSoFar_of_complete hi hc hr hk,
    receivedSoFar_of_complete hi hc hr hk]
  exact ⟨rfl, rfl⟩

end Sys2Proof.Safety
end

section
/-! The cycles of the Transfer Engine (spec/41_transfer_engine.md): the tick, the resting phases, a send that is not
accepted. -/

namespace Sys2Proof.Machine

/-! ### A cycle without host events -/

/-- A cycle in which the host does nothing answers what the engine's events answer (R220). -/
theorem cycle_eq_next_iff {i : CycleInput} {s t : State} (hr : i.rst = false) (hh : i.host = none)
    (hp : i.payloadWrite = none) : cycle i s = .next t ↔ engineEvents i (environmentEvent i s) = .ok t := by
  unfold cycle
  rw [if_neg (by simp [hr])]
  cases engineEvents i (environmentEvent i s) <;> simp [hostEvents, hh, hostEvent, hp, payloadEvent]

/-! ### The tick (R149, R212) -/

theorem tickStep_expired {s : State} (ha : s.phase.awaiting = true) (h0 : s.rxTimer = 0) :
    tickStep s =
      { s with phase := .failed, result := if s.rxGot = 0 then .timeout else .shortRead, abortPending := false } := by
  unfold tickStep
  rw [if_pos ha, if_pos h0]
  rfl

theorem tickStep_counting {s : State} (ha : s.phase.awaiting = true) (h0 : s.rxTimer ≠ 0) :
    tickStep s = { s with rxTimer := s.rxTimer - 1 } := by
  unfold tickStep
  rw [if_pos ha, if_neg h0]

theorem tickStep_not_awaiting {s : State} (ha : s.phase.awaiting = false) : tickStep s = s := by
  unfold tickStep
  rw [if_neg (by simp [ha])]

/-- The tick is the last of the engine's events: it acts on what the cycle without it answers (R220). -/
theorem cycle_tick {i : CycleInput} {s t : State} (hr : i.rst = false) (hh : i.host = none)
    (hp : i.payloadWrite = none) (h : cycle { i with tick := false } s = .next t) :
    cycle { i with tick := true } s = .next (tickStep t) := by
  obtain ⟨a, b, ha, hb, rfl⟩ := engineEvents_cases ((cycle_eq_next_iff (i := { i with tick := false }) hr hh hp).1 h)
  exact (cycle_eq_next_iff (i := { i with tick := true }) hr hh hp).2 (Safety.engineEvents_eq ha hb)

/-! ### The resting phases (R154) -/

theorem not_awaiting_of_not_busy {p : Phase} (h : p.busy = false) : p.awaiting = false := by
  cases p with
  | sending | awaitAck | awaitFinalAck => cases h
  | idle | complete | failed => rfl

theorem ne_sending_of_not_busy {p : Phase} (h : p.busy = false) : p ≠ .sending := by
  rintro rfl
  cases h

/-- With no operation in flight the link event writes CHAN alone. -/
theorem linkEvent_of_not_busy {s : State} (hb : s.phase.busy = false) : ∃ x, linkEvent s = { s with chan := x } := by
  rcases linkEvent_cases s with e | ⟨_, _, _, e⟩ | ⟨_, _, e⟩ | ⟨_, _, hb', _⟩
  · exact ⟨s.chan, e⟩
  · exact ⟨_, e⟩
  · exact ⟨_, e⟩
  · rw [hb] at hb'
    cases hb'

/-- What the link makes of CHAN (R218, R219). -/
theorem linkEvent_chan (s : State) : (linkEvent s).chan =
    if s.linkUp = true then if s.chan = .closed ∧ s.phase ≠ .failed then .opened else s.chan else .closed := by
  unfold linkEvent
  split
  · exact apply_ite State.chan _ _ _
  · cases hc : s.chan with
    | opened => cases hb : s.phase.busy <;> simp [linkDown, hc, hb]
    | closing => simp [linkDown, hc]
    | closed => simp [linkDown, hc]

theorem txErrEvent_not_sending {s : State} (e : Bool) (h : s.phase ≠ .sending) : txErrEvent e s = s := by
  unfold txErrEvent
  simp [h]

theorem tickEvent_not_awaiting {s : State} (b : Bool) (h : s.phase.awaiting = false) : tickEvent b s = s := by
  unfold tickEvent
  rw [tickStep_not_awaiting h, ite_self]

/-- With no operation in flight the engine's events are the link event alone (R154). -/
theorem engineEvents_of_not_busy {s : State} (i : CycleInput) (hb : s.phase.busy = false) :
    engineEvents i s = .ok (linkEvent s) := by
  have hph : (linkEvent s).phase = s.phase := by
    obtain ⟨x, e⟩ := linkEvent_of_not_busy hb
    rw [e]
  have hs : (linkEvent s).phase ≠ .sending := hph ▸ ne_sending_of_not_busy hb
  have ha : (linkEvent s).phase.awaiting = false := hph ▸ not_awaiting_of_not_busy hb
  rw [← tickEvent_not_awaiting i.tick ha]
  refine Safety.engineEvents_eq (a := linkEvent s) ?_ (Safety.txEvent_not_sending _ hs)
  rw [txErrEvent_not_sending _ hs, Safety.rxEvent_not_awaiting _ ha]

/-- With no operation in flight no payload byte is locked (R244). -/
theorem payloadLocked_of_not_busy {s : State} (a : Word) (hb : s.phase.busy = false) : payloadLocked a s = false := by
  simp [payloadLocked, hb]

theorem payloadEvent_of_not_busy (p : Option PayloadWrite) {s : State} (hb : s.phase.busy = false) :
    ∃ t, payloadEvent p s = .next t := by
  cases p with
  | none => exact ⟨s, rfl⟩
  | some p => exact ⟨_, payloadEvent_of_not_locked (payloadLocked_of_not_busy p.addr hb)⟩

/-- Every payload byte but the one at the written address reads as before (R61). -/
theorem payloadEvent_readByte {p : Option PayloadWrite} {s t : State} (h : payloadEvent p s = .next t) {a : Nat}
    (ha : ∀ w, p = some w → a ≠ w.addr.toNat) : t.readByte .payload a = s.readByte .payload a := by
  rcases payloadEvent_cases h with ⟨_, rfl⟩ | ⟨w, hw, _, rfl⟩
  · rfl
  · unfold payloadPort
    split
    · rw [readByte_writeByte, if_neg fun e => ha w hw e.2]
    · rfl

theorem hostEvents_of_no_host {i : CycleInput} (hh : i.host = none) (s : State) :
    hostEvents i s = payloadEvent i.payloadWrite s := by
  simp only [hostEvents, hh, hostEvent]

/-- A cycle without reset is its engine's events and then its host's (R220). -/
theorem cycle_of_engineEvents {i : CycleInput} {s t : State} (hr : i.rst = false)
    (h : engineEvents i (environmentEvent i s) = .ok t) : cycle i s = hostEvents i t := by
  simp [cycle, hr, h]

/-! ### A channel that stays open -/

/-- With the channel open, no byte to take and none sent, the engine's events are the tick alone (R220). -/
theorem engineEvents_of_opened {i : CycleInput} {s : State} (hl : s.linkUp = true) (hc : s.chan = .opened)
    (he : i.txErr = false) (hr : i.txReady = false) (hq : s.phase.awaiting = true → s.rxq = []) :
    engineEvents i s = .ok (tickEvent i.tick s) := by
  have herr : txErrEvent i.txErr (linkEvent s) = s := by
    rw [Safety.linkEvent_of_opened hl hc, he]
    rfl
  have hno : (txValid s && i.txReady && !i.txErr) = false := by simp [hr]
  refine Safety.engineEvents_eq (a := s) ?_ (hno ▸ Safety.txEvent_no_handshake)
  rw [herr]
  cases ha : s.phase.awaiting with
  | true => exact Safety.rxEvent_empty _ (hq ha)
  | false => exact Safety.rxEvent_not_awaiting _ ha

end Sys2Proof.Machine

namespace Sys2Proof.Safety

open Sys2Proof.Machine

/-- Settles O51: in a resting phase the engine's events are the link event, which writes CHAN alone, and the payload port
is not locked. -/
theorem restingPhasesHaveNoEngineStep : Obligations.RestingPhasesHaveNoEngineStep := by
  unfold Obligations.RestingPhasesHaveNoEngineStep
  intro s hb hr hh
  have hbs : (started s).phase.busy = false := hb
  have hstep : step s = payloadEvent (nextInput s).payloadWrite (linkEvent (started s)) :=
    (cycle_of_engineEvents hr (engineEvents_of_not_busy (nextInput s) hbs)).trans (hostEvents_of_no_host hh _)
  obtain ⟨x, hlink⟩ := linkEvent_of_not_busy hbs
  obtain ⟨t, ht⟩ : ∃ t, payloadEvent (nextInput s).payloadWrite (linkEvent (started s)) = .next t := by
    rw [hlink]
    exact payloadEvent_of_not_busy _ hb
  have hpay := payloadEvent_eq ht
  have hchan : t.chan = (linkEvent (started s)).chan := by rw [hpay]
  refine ⟨hstep, t, hstep.trans ht, ?_, hchan.trans (linkEvent_chan (started s)), fun a ha => ?_⟩
  · rw [hchan]
    rw [hlink] at hpay ⊢
    exact hpay
  · rw [payloadEvent_readByte ht ha, hlink]
    rfl

/-! ### The receive timeout -/

/-- A tick with no byte at hand is the tick step (R149). -/
theorem step_tick {s : State} (hc : s.chan = .opened) (hq : s.phase.awaiting = true → s.rxq = [])
    (hi : nextInput s = { quietInput true with tick := true }) : step s = .next (tickStep (unchanged s)) := by
  refine step_of_engineEvents (by rw [hi]; rfl) (by rw [hi]; rfl) (by rw [hi]; rfl) ?_
  rw [started_of_quiet (by rw [hi]; rfl) (by rw [hi]; rfl), hi]
  exact engineEvents_of_opened (s := unchanged s) rfl hc rfl rfl hq

/-- A tick at zero fails the stage (R212). -/
theorem step_tick_expired {s : State} (hc : s.chan = .opened) (hq : s.phase.awaiting = true → s.rxq = [])
    (hi : nextInput s = { quietInput true with tick := true }) (ha : s.phase.awaiting = true) (h0 : s.rxTimer = 0) :
    step s = .next { unchanged s with
      phase := .failed, result := if s.rxGot = 0 then .timeout else .shortRead, abortPending := false } :=
  (step_tick hc hq hi).trans (congrArg _ (tickStep_expired (s := unchanged s) ha h0))

/-- A tick above zero counts RX_TIMER down (R149). -/
theorem step_tick_counting {s : State} (hc : s.chan = .opened) (hq : s.phase.awaiting = true → s.rxq = [])
    (hi : nextInput s = { quietInput true with tick := true }) (ha : s.phase.awaiting = true) (h0 : s.rxTimer ≠ 0) :
    step s = .next { unchanged s with rxTimer := s.rxTimer - 1 } :=
  (step_tick hc hq hi).trans (congrArg _ (tickStep_counting (s := unchanged s) ha h0))

/-- Settles O32: both parts are the three cases of the tick step. -/
theorem tickCountsDownOrFails : Obligations.TickCountsDownOrFails := by
  unfold Obligations.TickCountsDownOrFails
  refine ⟨fun s hc hq hi => ?_, fun s t i hr hh hp ht => ?_⟩
  · exact ⟨step_tick_expired hc hq hi, step_tick_counting hc hq hi,
      fun ha => (step_tick hc hq hi).trans (congrArg _ (tickStep_not_awaiting (s := unchanged s) ha))⟩
  · rw [cycle_tick hr hh hp ht]
    exact ⟨fun ha h0 => congrArg _ (tickStep_expired ha h0), fun ha h0 => congrArg _ (tickStep_counting ha h0),
      fun ha => congrArg _ (tickStep_not_awaiting ha)⟩

/-- While RX_TIMER lasts, ticks count it down and change nothing else of the BFE (R149). -/
theorem run_ticks {s : State} {m : Nat} {rest : List CycleInput} (ha : s.phase.awaiting = true) (hc : s.chan = .opened)
    (hq : s.rxq = []) (hm : m ≤ s.rxTimer.toNat)
    (hi : s.inputs = List.replicate m { quietInput true with tick := true } ++ rest) :
    ∃ up resp, ∀ j, Host.Core.run core (j + m) s = Host.Core.run core j { s with
      rxTimer := s.rxTimer - BitVec.ofNat 32 m, linkUp := up, busResp := resp, inputs := rest } := by
  induction m generalizing s with
  | zero =>
    have hrest : s.inputs = rest := hi
    exact ⟨s.linkUp, s.busResp, fun j => by rw [BitVec.sub_zero, ← hrest]; rfl⟩
  | succ m ih =>
    have hone : (s.rxTimer - 1).toNat = s.rxTimer.toNat - 1 :=
      BitVec.toNat_sub_of_le (BitVec.le_def.2 (Nat.le_trans (Nat.le_add_left 1 m) hm))
    have h0 : s.rxTimer ≠ 0 := by
      intro e
      rw [e] at hm
      exact absurd hm (Nat.not_succ_le_zero m)
    have hnext : nextInput s = { quietInput true with tick := true } := by
      rw [nextInput, hi]
      rfl
    have hstep := step_tick_counting hc (fun _ => hq) hnext ha h0
    obtain ⟨up, resp, hrun⟩ := ih (s := { unchanged s with rxTimer := s.rxTimer - 1 }) ha hc hq
      (by show m ≤ (s.rxTimer - 1).toNat; omega) (congrArg List.tail hi)
    have htimer : s.rxTimer - 1 - BitVec.ofNat 32 m = s.rxTimer - BitVec.ofNat 32 (m + 1) := by
      rw [BitVec.sub_sub, BitVec.ofNat_add, BitVec.add_comm]
      rfl
    refine ⟨up, resp, fun j => (run_of_step hstep (j + m)).trans ?_⟩
    rw [← htimer]
    exact hrun j

theorem run_one {s t : State} (h : step s = .next t) : Host.Core.run core 1 s = .next t := run_of_step h 0

/-- Settles O33: the ticks that RX_TIMER lasts for, and the one that finds it at zero. -/
theorem stageFailsAtTheTickAfterTheLast : Obligations.StageFailsAtTheTickAfterTheLast := by
  unfold Obligations.StageFailsAtTheTickAfterTheLast
  intro s n rest ha hc hq hn hi
  subst hn
  refine ⟨fun m hm => ?_, ?_⟩
  · obtain ⟨up, resp, hrun⟩ := run_ticks (m := m)
      (rest := List.replicate (s.rxTimer.toNat + 1 - m) { quietInput true with tick := true } ++ rest) ha hc hq hm (by
        rw [hi, ← List.append_assoc, List.replicate_append_replicate, Nat.add_sub_of_le (Nat.le_succ_of_le hm)])
    have hmod : m % 2 ^ 32 = m := Nat.mod_eq_of_lt (Nat.lt_of_le_of_lt hm s.rxTimer.isLt)
    refine ⟨_, (Nat.zero_add m ▸ hrun 0 :), rfl, ?_⟩
    show (s.rxTimer - BitVec.ofNat 32 m).toNat = s.rxTimer.toNat - m
    rw [BitVec.toNat_sub_of_le (by rwa [BitVec.le_def, BitVec.toNat_ofNat, hmod]), BitVec.toNat_ofNat, hmod]
  · obtain ⟨up, resp, hrun⟩ := run_ticks (m := s.rxTimer.toNat)
      (rest := { quietInput true with tick := true } :: rest) ha hc hq (Nat.le_refl _) (by
        rw [hi, List.replicate_succ', List.append_assoc]
        rfl)
    have hzero : s.rxTimer - BitVec.ofNat 32 s.rxTimer.toNat = 0 := by
      rw [BitVec.ofNat_toNat, BitVec.setWidth_eq, BitVec.sub_self]
      rfl
    rw [Nat.add_comm]
    exact ⟨_, (hrun 1).trans (run_one (step_tick_expired hc (fun _ => hq) rfl ha hzero)),
      rfl, rfl, rfl, rfl, rfl, rfl, rfl⟩

/-- A cycle of a send that the transport does not accept changes nothing but what the inputs bring (R140). -/
theorem step_of_send_not_accepted {s : State} (hp : s.phase = .sending) (hc : s.chan = .opened)
    (hi : (nextInput s).rst = false ∧ (nextInput s).linkUp = true ∧ (nextInput s).txErr = false ∧
      (nextInput s).txReady = false ∧ (nextInput s).host = none ∧ (nextInput s).payloadWrite = none) :
    step s = .next (started s) := by
  obtain ⟨hrst, hl, he, hready, hh, hw⟩ := hi
  have ha : (started s).phase.awaiting = false := by rw [show (started s).phase = .sending from hp]; rfl
  refine step_of_engineEvents hrst hh hw ?_
  rw [engineEvents_of_opened (s := started s) hl hc he hready (fun h => by rw [ha] at h; cases h),
    tickEvent_not_awaiting _ ha]

/-- Settles O38, by induction on the cycles. -/
theorem sendWithoutReadyWaitsForEver : Obligations.SendWithoutReadyWaitsForEver := by
  unfold Obligations.SendWithoutReadyWaitsForEver
  intro s is rest hp hc hi hall
  induction is generalizing s with
  | nil => exact ⟨s, rfl, hp, hc, rfl, rfl, rfl, hi⟩
  | cons i is ih =>
    obtain ⟨hhead, htail⟩ := List.forall_mem_cons.1 hall
    have hnext : nextInput s = i := by
      rw [nextInput, hi]
      rfl
    have hstep := step_of_send_not_accepted hp hc (hnext ▸ hhead)
    obtain ⟨t, hrun, ht⟩ := ih (started s) hp hc (congrArg List.tail hi) htail
    exact ⟨t, (run_of_step hstep is.length).trans hrun, ht⟩

end Sys2Proof.Safety
end

section
/-! The TX step and the RX step of a transfer in flight (R140 to R148): what each stored byte, complete stage and complete
sequence does, and from them the whole cycles. -/

namespace Sys2Proof.Machine

/-! ### The TX step (R140, R141) -/

theorem txStep_of_more {k : Kind} {b : Byte} {s : State} (hb : frameByte k s.txPos.toNat s = .ok b)
    (hm : s.txPos + 1 ≠ s.frameLen) : txStep k s = .ok (emitByte b s) := by
  unfold txStep
  rw [hb]
  exact if_neg hm

theorem txStep_of_last {k : Kind} {b : Byte} {s : State} (hb : frameByte k s.txPos.toNat s = .ok b)
    (hl : s.txPos + 1 = s.frameLen) : txStep k s = frameSent k (emitByte b s) := by
  unfold txStep
  rw [hb]
  exact if_pos hl

/-! ### Where a received byte is stored (R143, R144) -/

theorem rxStep_of_stored {k : Kind} {b : Byte} {q : List Byte} {s t : State}
    (h : storeAckByte k b (takeByte b q s) = .ok t) : rxStep k b q s = countByte k t := by
  unfold rxStep
  rw [h]

/-- A byte of an image or firmware ack taken and stored in ACK_BUF. -/
def takeAckByte (b : Byte) (q : List Byte) (s : State) : State :=
  { takeByte b q s with ackBuf := Memory.write s.ackBuf s.ackPos.toNat b, ackPos := s.ackPos + 1 }

/-- A status byte of a raw response taken and stored in RAW_RESP_HDR. -/
def takeStatusByte (b : Byte) (q : List Byte) (s : State) : State :=
  { takeByte b q s with rawRespHdr := Memory.write s.rawRespHdr s.rxGot.toNat b }

/-- The length byte of a raw response taken and stored in RAW_RESP_LEN. -/
def takeLengthByte (b : Byte) (q : List Byte) (s : State) : State := { takeByte b q s with rawRespLen := b }

/-- A payload byte of a raw response taken and stored in RAW_RESP_PAYLOAD. -/
def takeResponseByte (b : Byte) (q : List Byte) (s : State) : State :=
  { takeByte b q s with rawRespPayload := Memory.write s.rawRespPayload s.rxGot.toNat b }

theorem rxStep_of_ne_raw {k : Kind} {s : State} (hk : k ≠ .raw) (hs : s.ackPos.toNat < 12) (b : Byte) (q : List Byte) :
    rxStep k b q s = countByte k (takeAckByte b q s) :=
  rxStep_of_stored ((storeAckByte_of_ne_raw hk b _).trans (storeByte_ok_iff.2 ⟨decide_eq_true hs, rfl⟩))

theorem rxStep_of_status {s : State} (hst : s.rxStage = 0) (hg : s.rxGot.toNat < 4) (b : Byte) (q : List Byte) :
    rxStep .raw b q s = countByte .raw (takeStatusByte b q s) := by
  have hz : s.rxStage.toNat = 0 := congrArg BitVec.toNat hst
  refine rxStep_of_stored ?_
  simp only [storeAckByte, takeByte_rxStage, hz]
  exact storeByte_ok_iff.2 ⟨decide_eq_true hg, rfl⟩

theorem rxStep_of_length {s : State} (hst : s.rxStage = 1) (b : Byte) (q : List Byte) :
    rxStep .raw b q s = countByte .raw (takeLengthByte b q s) := by
  have hz : s.rxStage.toNat = 1 := congrArg BitVec.toNat hst
  refine rxStep_of_stored ?_
  simp only [storeAckByte, takeByte_rxStage, hz]
  rfl

theorem rxStep_of_response {s : State} (hst : s.rxStage = 2) (hg : s.rxGot.toNat < 255) (b : Byte) (q : List Byte) :
    rxStep .raw b q s = countByte .raw (takeResponseByte b q s) := by
  have hz : s.rxStage.toNat = 2 := congrArg BitVec.toNat hst
  refine rxStep_of_stored ?_
  simp only [storeAckByte, takeByte_rxStage, hz]
  exact storeByte_ok_iff.2 ⟨decide_eq_true hg, rfl⟩

/-! ### The byte counted, the stage and the sequence done (R143, R145, R146) -/

theorem countByte_of_more {k : Kind} {s : State} (h : s.rxGot.toNat + 1 < s.rxNeed.toNat) :
    countByte k s = .ok { s with rxGot := s.rxGot + 1 } := by
  have hgot : (s.rxGot + 1).toNat = s.rxGot.toNat + 1 := Nat.mod_eq_of_lt (Nat.lt_trans h s.rxNeed.isLt)
  have hne : s.rxGot + 1 ≠ s.rxNeed := fun e => Nat.ne_of_lt h (hgot ▸ congrArg BitVec.toNat e)
  exact if_neg hne

theorem countByte_of_last {k : Kind} {s : State} {g : BitVec 8} (hg : s.rxGot + 1 = g) (hn : s.rxNeed = g) :
    countByte k s = stageDone k { s with rxGot := g } := by
  subst hg
  exact if_pos hn.symm

theorem stageDone_of_more {k : Kind} {s : State} {n st : Nat} {m : BitVec 8}
    (hn : ackStages k s.phase s.rawRespLen = some n) (hst : s.rxStage.toNat + 1 = st) (hlt : st < n)
    (hm : ackLen k s.phase st s.rawRespLen = some m) :
    stageDone k s =
      .ok { s with rxStage := BitVec.ofNat 2 st, rxNeed := m, rxGot := 0, rxTimer := s.rxTimeout } := by
  subst hst
  unfold stageDone
  rw [hn]
  exact (if_pos hlt).trans (Safety.beginStage_eq hm)

theorem stageDone_of_last {k : Kind} {s : State} {n : Nat} (hn : ackStages k s.phase s.rawRespLen = some n)
    (hge : n ≤ s.rxStage.toNat + 1) : stageDone k s = sequenceDone k s := by
  unfold stageDone
  rw [hn]
  exact if_neg (Nat.not_lt.2 hge)

theorem sequenceDone_of_awaitAck {k : Kind} {s : State} (h : s.phase = .awaitAck) :
    sequenceDone k s = chunkAcked k (ackChunk s) :=
  if_neg (by simp [h])

theorem sequenceDone_of_awaitFinalAck {k : Kind} {s : State} (h : s.phase = .awaitFinalAck) :
    sequenceDone k s = .ok (finish .ok s) :=
  if_pos h

/-- The rows of the ack table that an image or firmware goes through (R95). -/
theorem ack_of_ne_raw {k : Kind} {ph : Phase} (hk : k ≠ .raw) (ha : ph.awaiting = true)
    (hf : ph = .awaitFinalAck → k = .image) (r : BitVec 8) :
    ackStages k ph r = some 2 ∧ ackLen k ph 0 r = some 5 ∧
      ackLen k ph 1 r = some (if ph = .awaitFinalAck then 7 else 2) := by
  rcases Safety.awaiting_cases ha with rfl | rfl
  · cases k with
    | raw => exact absurd rfl hk
    | _ => exact ⟨rfl, rfl, rfl⟩
  · cases hf rfl
    exact ⟨rfl, rfl, rfl⟩

end Sys2Proof.Machine

namespace Sys2Proof.Safety

open Sys2Proof.Machine

/-! ### Cycles of a transfer in flight -/

/-- In SENDING the frame has a byte at TX_POS (R116). -/
theorem Inv.frameByte_txPos {s : State} {k : Kind} (h : Inv s) (hs : s.phase = .sending) (hk : s.opkind = some k) :
    frameByte k s.txPos.toNat (unchanged s) = .ok (frameByteValue k s s.txPos.toNat) := by
  have f := h.engine.inFlight_of_opkind hk (by rw [hs]; rfl)
  exact frameByte_eq (f.chunk (.inl hs)) f.total (f.sending hs)

theorem Inv.chan_of_sending {s : State} (h : Inv s) (hs : s.phase = .sending) : s.chan = .opened :=
  h.engine.chan_of_busy (by rw [hs]; rfl)

theorem EngineInv.inFlight_of_awaiting {s : State} {k : Kind} (h : EngineInv s) (ha : s.phase.awaiting = true)
    (hk : s.opkind = some k) : InFlight k s :=
  h.inFlight_of_opkind hk (busy_of_awaiting ha)

/-- The invariant at the start of a cycle with the link up. -/
theorem Inv.engine_unchanged {s : State} (h : Inv s) : EngineInv (unchanged s) :=
  h.engine.consumeInput.frame s.fwLen s.rxTimeout s.rxTimer true s.rxq s.txh s.rxh s.inputs.tail none s.busErrors
    h.engine.outcome.cmdErr h.engine.outcome.abortPending

/-- A cycle with a byte of RXQ at hand is the RX step, and after it the tick (R143, R149, R220). -/
theorem Inv.step_rx_tick {s t : State} {k : Kind} {b : Byte} {q : List Byte} {tick : Bool} (h : Inv s)
    (ha : s.phase.awaiting = true) (hi : nextInput s = { quietInput true with tick := tick }) (hq : s.rxq = b :: q)
    (hk : s.opkind = some k) (ht : rxStep k b q (unchanged s) = .ok t) : step s = .next (tickEvent tick t) := by
  have f := h.engine.inFlight_of_awaiting ha hk
  have hquiet : cycle (quietInput true) (consumeInput s) = .next t :=
    step_rxStep (s := { s with inputs := quietInput true :: s.inputs.tail }) ha hk f.chan (f.stage ha).got hq rfl ht
  unfold step
  rw [hi]
  cases tick with
  | false => exact hquiet
  | true => exact cycle_tick (i := quietInput true) rfl rfl rfl hquiet

theorem Inv.step_rx {s t : State} {k : Kind} {b : Byte} {q : List Byte} (h : Inv s) (ha : s.phase.awaiting = true)
    (hi : nextInput s = quietInput true) (hq : s.rxq = b :: q) (hk : s.opkind = some k)
    (ht : rxStep k b q (unchanged s) = .ok t) : step s = .next t :=
  h.step_rx_tick (tick := false) ha hi hq hk ht

/-! ### The TX step -/

/-- Settles O24: TX_POS has not reached the last position. -/
theorem txStepSendsTheNextByte : Obligations.TxStepSendsTheNextByte := by
  unfold Obligations.TxStepSendsTheNextByte
  intro s k h hs hk hi hlt
  refine step_txStep hs hk (h.chan_of_sending hs) hi
    (txStep_of_more (s := unchanged s) (h.frameByte_txPos hs hk) fun e => ?_)
  have hpos : (s.txPos + 1).toNat = s.txPos.toNat + 1 := Nat.mod_eq_of_lt (Nat.lt_trans hlt s.frameLen.isLt)
  have hend : (s.txPos + 1).toNat = s.frameLen.toNat := congrArg BitVec.toNat e
  omega

/-- The first stage of the ack of a frame (R95). -/
theorem ackLen_first (k : Kind) (r : BitVec 8) : ackLen k .awaitAck 0 r = some (if k = .raw then 4 else 5) := by
  cases k <;> rfl

/-- Settles O25: TX_POS reaches FRAME_LEN, and the ack table gives the first stage. -/
theorem lastByteOpensTheAckSequence : Obligations.LastByteOpensTheAckSequence := by
  unfold Obligations.LastByteOpensTheAckSequence
  intro s k h hs hk hi hl
  have hend : s.txPos + 1 = s.frameLen :=
    BitVec.eq_of_toNat_eq ((Nat.mod_eq_of_lt (hl ▸ s.frameLen.isLt)).trans hl)
  exact step_txStep hs hk (h.chan_of_sending hs) hi
    ((txStep_of_last (s := unchanged s) (h.frameByte_txPos hs hk) hend).trans (beginSequence_eq (ackLen_first k _)))

/-! ### What a received byte does to a transfer in flight -/

/-- ACK_BUF has room for the next byte of an image or firmware ack (R34). -/
theorem EngineInv.ackPos_lt {s : State} {k : Kind} (h : EngineInv s) (ha : s.phase.awaiting = true)
    (hk : s.opkind = some k) (hne : k ≠ .raw) : s.ackPos.toNat < 12 := by
  obtain ⟨q, hr, hg⟩ := h.receiving ha
  obtain rfl : q = k := Option.some.inj (hr.opkind.symm.trans hk)
  rw [hr.ackPos, if_neg hne]
  exact hr.ackSoFar_lt hne hg

/-- RX_NEED is the ack table's entry of the current stage (R95, R31). -/
theorem InFlight.need {s : State} {k : Kind} {st : BitVec 2} {n : BitVec 8} (f : InFlight k s)
    (ha : s.phase.awaiting = true) (hst : s.rxStage = st) (hn : ackLen k s.phase st.toNat s.rawRespLen = some n) :
    s.rxNeed = n := by
  subst hst
  exact Option.some.inj ((f.stage ha).need.symm.trans hn)

/-- A byte inside a stage of an image or firmware ack (R143, R144). -/
theorem EngineInv.rxStep_ack {s : State} {k : Kind} (h : EngineInv s) (ha : s.phase.awaiting = true)
    (hk : s.opkind = some k) (hne : k ≠ .raw) (hlt : s.rxGot.toNat + 1 < s.rxNeed.toNat) (b : Byte) (q : List Byte) :
    rxStep k b q s = .ok { s with
      rxq := q, rxh := s.rxh ++ [b], rxCount := s.rxCount + 1, rxGot := s.rxGot + 1,
      ackBuf := Memory.write s.ackBuf s.ackPos.toNat b, ackPos := s.ackPos + 1 } := by
  rw [rxStep_of_ne_raw hne (h.ackPos_lt ha hk hne), countByte_of_more (s := takeAckByte b q s) hlt]
  simp only [takeAckByte, takeByte]

/-- A byte inside the status of a raw response (R143, R144). -/
theorem rxStep_status {s : State} (hst : s.rxStage = 0) (h4 : s.rxGot.toNat < 4)
    (hlt : s.rxGot.toNat + 1 < s.rxNeed.toNat) (b : Byte) (q : List Byte) :
    rxStep .raw b q s = .ok { s with
      rxq := q, rxh := s.rxh ++ [b], rxCount := s.rxCount + 1, rxGot := s.rxGot + 1,
      rawRespHdr := Memory.write s.rawRespHdr s.rxGot.toNat b } := by
  rw [rxStep_of_status hst h4]
  exact countByte_of_more (s := takeStatusByte b q s) hlt

/-- A byte inside the payload of a raw response (R143, R144). -/
theorem rxStep_response {s : State} (hst : s.rxStage = 2) (hlt : s.rxGot.toNat + 1 < s.rxNeed.toNat) (b : Byte)
    (q : List Byte) :
    rxStep .raw b q s = .ok { s with
      rxq := q, rxh := s.rxh ++ [b], rxCount := s.rxCount + 1, rxGot := s.rxGot + 1,
      rawRespPayload := Memory.write s.rawRespPayload s.rxGot.toNat b } := by
  have hneed := s.rxNeed.isLt
  rw [rxStep_of_response hst (by omega)]
  exact countByte_of_more (s := takeResponseByte b q s) hlt

/-- The fifth byte of an image or firmware ack opens the second stage (R145, R142). -/
theorem EngineInv.rxStep_fifth {s : State} {k : Kind} (h : EngineInv s) (ha : s.phase.awaiting = true)
    (hk : s.opkind = some k) (hne : k ≠ .raw) (hst : s.rxStage = 0) (hg : s.rxGot.toNat + 1 = 5) (b : Byte)
    (q : List Byte) :
    rxStep k b q s = .ok { s with
      rxq := q, rxh := s.rxh ++ [b], rxCount := s.rxCount + 1,
      ackBuf := Memory.write s.ackBuf s.ackPos.toNat b, ackPos := s.ackPos + 1,
      rxStage := 1, rxNeed := if s.phase = .awaitFinalAck then 7 else 2, rxGot := 0, rxTimer := s.rxTimeout } := by
  have f := h.inFlight_of_awaiting ha hk
  obtain ⟨hstages, hfirst, hsecond⟩ := ack_of_ne_raw hne ha (fun e => (f.finalAck e).1) s.rawRespLen
  have hgot : s.rxGot + 1 = 5 := BitVec.eq_of_toNat_eq ((Nat.mod_eq_of_lt (hg ▸ (by decide))).trans hg)
  have hstage : s.rxStage.toNat + 1 = 1 := by rw [hst]; rfl
  rw [rxStep_of_ne_raw hne (h.ackPos_lt ha hk hne),
    countByte_of_last (s := takeAckByte b q s) hgot (f.need ha hst hfirst),
    stageDone_of_more (s := { takeAckByte b q s with rxGot := 5 }) hstages hstage (by decide) hsecond]
  simp only [takeAckByte, takeByte, BitVec.ofNat_eq_ofNat]

/-! ### A raw response (R94) -/

/-- A raw response has no end-of-image ack (R95). -/
theorem InFlight.awaitAck_of_raw {s : State} (f : InFlight .raw s) (ha : s.phase.awaiting = true) : s.phase = .awaitAck :=
  (awaiting_cases ha).resolve_right fun e => nomatch (f.finalAck e).1

/-- A raw transfer has its one chunk behind it when its response ends (R110, R147). -/
theorem InFlight.raw_end {s : State} (f : InFlight .raw s) (hp : s.phase = .awaitAck) :
    s.offset + s.chunkLen.setWidth 32 = 68 := by
  have hc := f.chunk (.inr hp)
  have htotal : s.totalLen.toNat = 68 := f.total
  have hoff : s.offset.toNat = 0 := congrArg BitVec.toNat (hc.rawStart rfl)
  have hlen := hc.len
  rw [htotal, hoff, maxChunk_raw] at hlen
  refine BitVec.eq_of_toNat_eq ?_
  rw [offset_add_toNat hc, hoff, hlen]
  rfl

/-- The last stage of a raw response ends the transfer with OK (R146, R147). -/
theorem stageDone_raw_last {s : State} {n : Nat} (hp : s.phase = .awaitAck)
    (hn : ackStages .raw s.phase s.rawRespLen = some n) (hge : n ≤ s.rxStage.toNat + 1) :
    stageDone .raw s = .ok (finish .ok (ackChunk s)) := by
  rw [stageDone_of_last hn hge, sequenceDone_of_awaitAck hp]
  rfl

/-- A raw response has a third stage unless it is empty (R95). -/
theorem ackStages_raw {ph : Phase} (hp : ph = .awaitAck) (r : BitVec 8) :
    ackStages .raw ph r = some (if r = 0 then 2 else 3) := by
  rw [hp]
  rfl

/-- The fourth status byte opens the stage of the length byte. -/
theorem InFlight.rxStep_status_last {s : State} (f : InFlight .raw s) (hp : s.phase = .awaitAck) (hst : s.rxStage = 0)
    (hg : s.rxGot.toNat + 1 = 4) (b : Byte) (q : List Byte) :
    rxStep .raw b q s = .ok { s with
      rxq := q, rxh := s.rxh ++ [b], rxCount := s.rxCount + 1,
      rawRespHdr := Memory.write s.rawRespHdr s.rxGot.toNat b,
      rxStage := 1, rxNeed := 1, rxGot := 0, rxTimer := s.rxTimeout } := by
  have hgot : s.rxGot + 1 = 4 := BitVec.eq_of_toNat_eq ((Nat.mod_eq_of_lt (hg ▸ (by decide))).trans hg)
  have hneed : s.rxNeed = 4 := f.need (by rw [hp]; rfl) hst (by rw [hp]; rfl)
  have hstage : s.rxStage.toNat + 1 = 1 := by rw [hst]; rfl
  have hlen : ackLen .raw s.phase 1 s.rawRespLen = some 1 := by rw [hp]; rfl
  rw [rxStep_of_status hst (by omega), countByte_of_last (s := takeStatusByte b q s) hgot hneed]
  exact stageDone_of_more (s := { takeStatusByte b q s with rxGot := 4 }) (ackStages_raw hp s.rawRespLen) hstage
    (by split <;> decide) hlen

/-- The length byte is the only byte of its stage. -/
theorem InFlight.rxGot_of_length {s : State} (f : InFlight .raw s) (hp : s.phase = .awaitAck) (hst : s.rxStage = 1) :
    s.rxNeed = 1 ∧ s.rxGot = 0 := by
  have ha : s.phase.awaiting = true := by rw [hp]; rfl
  have hneed : s.rxNeed = 1 := f.need ha hst (by rw [hp]; rfl)
  have hgot := (f.stage ha).got
  rw [hneed] at hgot
  exact ⟨hneed, BitVec.eq_of_toNat_eq (Nat.lt_one_iff.1 hgot)⟩

/-- A length byte other than 0 opens the stage of the payload. -/
theorem InFlight.rxStep_length {s : State} (f : InFlight .raw s) (hp : s.phase = .awaitAck) (hst : s.rxStage = 1)
    {b : Byte} (hb : b ≠ 0) (q : List Byte) :
    rxStep .raw b q s = .ok { s with
      rxq := q, rxh := s.rxh ++ [b], rxCount := s.rxCount + 1, rawRespLen := b,
      rxStage := 2, rxNeed := b, rxGot := 0, rxTimer := s.rxTimeout } := by
  obtain ⟨hneed, hzero⟩ := f.rxGot_of_length hp hst
  have hgot : s.rxGot + 1 = 1 := by rw [hzero]; rfl
  have hstage : s.rxStage.toNat + 1 = 2 := by rw [hst]; rfl
  have hlen : ackLen .raw s.phase 2 b = some b := by
    rw [hp]
    exact if_neg hb
  rw [rxStep_of_length hst, countByte_of_last (s := takeLengthByte b q s) hgot hneed]
  exact stageDone_of_more (s := { takeLengthByte b q s with rxGot := 1 }) (ackStages_raw hp b) hstage
    (by rw [if_neg hb]; decide) hlen

/-- A length byte of 0 ends the transfer. -/
theorem InFlight.rxStep_length_zero {s : State} (f : InFlight .raw s) (hp : s.phase = .awaitAck) (hst : s.rxStage = 1)
    (q : List Byte) :
    rxStep .raw 0 q s = .ok { s with
      rxq := q, rxh := s.rxh ++ [0], rxCount := s.rxCount + 1, rawRespLen := 0, rxGot := 1,
      offset := 68, chunkIdx := s.chunkIdx + 1, phase := .complete, result := .ok, abortPending := false } := by
  obtain ⟨hneed, hzero⟩ := f.rxGot_of_length hp hst
  have hgot : s.rxGot + 1 = 1 := by rw [hzero]; rfl
  have hstage : 2 ≤ s.rxStage.toNat + 1 := by rw [hst]; decide
  rw [rxStep_of_length hst, countByte_of_last (s := takeLengthByte 0 q s) hgot hneed,
    stageDone_raw_last (s := { takeLengthByte 0 q s with rxGot := 1 }) hp (ackStages_raw hp 0) hstage, ← f.raw_end hp]
  simp only [finish, ackChunk, takeLengthByte, takeByte]

/-- The last byte of the payload ends the transfer. -/
theorem InFlight.rxStep_response_last {s : State} (f : InFlight .raw s) (hp : s.phase = .awaitAck) (hst : s.rxStage = 2)
    (hg : s.rxGot.toNat + 1 = s.rxNeed.toNat) (b : Byte) (q : List Byte) :
    rxStep .raw b q s = .ok { s with
      rxq := q, rxh := s.rxh ++ [b], rxCount := s.rxCount + 1, rxGot := s.rxGot + 1,
      rawRespPayload := Memory.write s.rawRespPayload s.rxGot.toNat b,
      offset := 68, chunkIdx := s.chunkIdx + 1, phase := .complete, result := .ok, abortPending := false } := by
  have hlt := s.rxNeed.isLt
  have hneed : s.rxNeed = s.rxGot + 1 :=
    BitVec.eq_of_toNat_eq (hg.symm.trans (Nat.mod_eq_of_lt (hg ▸ hlt)).symm)
  have hthird : (if s.rawRespLen = 0 then 2 else 3) ≤ s.rxStage.toNat + 1 := by
    rw [hst]
    split <;> decide
  rw [rxStep_of_response hst (by omega), countByte_of_last (s := takeResponseByte b q s) (g := s.rxGot + 1) rfl hneed,
    stageDone_raw_last (s := { takeResponseByte b q s with rxGot := s.rxGot + 1 }) hp (ackStages_raw hp s.rawRespLen)
      hthird, ← f.raw_end hp]
  simp only [finish, ackChunk, takeResponseByte, takeByte]

/-! ### The last byte of an image or firmware ack (R146 to R148) -/

/-- The last byte of the second stage completes the sequence. -/
theorem EngineInv.rxStep_ack_last {s : State} {k : Kind} (h : EngineInv s) (ha : s.phase.awaiting = true)
    (hk : s.opkind = some k) (hne : k ≠ .raw) (hst : s.rxStage = 1) {g : BitVec 8}
    (hn : (if s.phase = .awaitFinalAck then 7 else 2) = g) (hg : s.rxGot + 1 = g) (b : Byte) (q : List Byte) :
    rxStep k b q s = sequenceDone k { takeAckByte b q s with rxGot := g } := by
  have f := h.inFlight_of_awaiting ha hk
  obtain ⟨hstages, _, hsecond⟩ := ack_of_ne_raw hne ha (fun e => (f.finalAck e).1) s.rawRespLen
  have hstage : 2 ≤ s.rxStage.toNat + 1 := by rw [hst]; decide
  rw [rxStep_of_ne_raw hne (h.ackPos_lt ha hk hne),
    countByte_of_last (s := takeAckByte b q s) hg ((f.need ha hst hsecond).trans hn)]
  exact stageDone_of_last (s := { takeAckByte b q s with rxGot := g }) hstages hstage

/-- The seventh byte of a chunk's ack moves the progress registers past the chunk (R146). -/
theorem EngineInv.rxStep_seventh {s : State} {k : Kind} (h : EngineInv s) (hp : s.phase = .awaitAck)
    (hk : s.opkind = some k) (hne : k ≠ .raw) (hst : s.rxStage = 1) (hg : s.rxGot = 1) (b : Byte) (q : List Byte) :
    ∃ u, rxStep k b q s = chunkAcked k u ∧ u.offset = s.offset + s.chunkLen.setWidth 32 ∧
      u.chunkIdx = s.chunkIdx + 1 ∧ u.totalLen = s.totalLen ∧ u.abortPending = s.abortPending ∧
      u.rxTimeout = s.rxTimeout := by
  have ha : s.phase.awaiting = true := by rw [hp]; rfl
  have hlast := h.rxStep_ack_last (g := 2) ha hk hne hst (by rw [hp]; rfl) (by rw [hg]; rfl) b q
  refine ⟨_, hlast.trans (sequenceDone_of_awaitAck hp), ?_⟩
  simp [takeAckByte]

/-- The twelfth byte of the end-of-image ack. -/
theorem EngineInv.rxStep_twelfth {s : State} (h : EngineInv s) (hp : s.phase = .awaitFinalAck) (hst : s.rxStage = 1)
    (hg : s.rxGot = 6) (b : Byte) (q : List Byte) :
    rxStep .image b q s = .ok { s with
      rxq := q, rxh := s.rxh ++ [b], rxCount := s.rxCount + 1, rxGot := 7,
      ackBuf := Memory.write s.ackBuf 11 b, ackPos := 12,
      phase := .complete, result := .ok, abortPending := false } := by
  have ha : s.phase.awaiting = true := by rw [hp]; rfl
  obtain ⟨k, f⟩ := h.inFlight (busy_of_awaiting ha)
  obtain ⟨rfl, _⟩ := f.finalAck hp
  have hpos : s.ackPos = 11 := by
    have hsum := (f.stage ha).ackPos
    simp only [ackSoFar, hst, hg] at hsum
    exact BitVec.eq_of_toNat_eq hsum
  have htake : takeAckByte b q s = { takeByte b q s with ackBuf := Memory.write s.ackBuf 11 b, ackPos := 12 } := by
    unfold takeAckByte
    rw [hpos]
    rfl
  rw [h.rxStep_ack_last ha f.opkind nofun hst (if_pos hp) (by rw [hg]; rfl), htake]
  exact sequenceDone_of_awaitFinalAck hp

/-- Chunk setup where payload remains begins the frame of the next chunk (R111, R148). -/
theorem setupChunk_next {k : Kind} {s : State} (h : s.offset.toNat < s.totalLen.toNat) (hne : k ≠ .raw) :
    (setupChunk k s).phase = .sending ∧ (setupChunk k s).txPos = 0 ∧
    (setupChunk k s).chunkLen.toNat = min k.maxChunk (s.totalLen.toNat - s.offset.toNat) ∧
    (setupChunk k s).lastChunk =
      decide (s.offset.toNat + (setupChunk k s).chunkLen.toNat = s.totalLen.toNat) ∧
    (setupChunk k s).frameLen.toNat = (setupChunk k s).chunkLen.toNat + headerBytes k := by
  obtain ⟨_, hmax, hend⟩ := chunkLenOf_bounds (k := k) h
  have hlen := chunkLen_toNat hmax
  rw [setupChunk_eq h]
  refine ⟨rfl, rfl, hlen.trans (chunkLenOf_eq h.le), ?_, ?_⟩
  · rw [hlen]
    exact lastFlag_eq hend
  · refine (frameLenOf_toNat (hlen.trans_le hmax)).trans ?_
    cases k with
    | raw => exact absurd rfl hne
    | _ => rfl

/-- What comes after a chunk of an image or firmware (R146): the end of the payload, a pending abort, or the next
chunk. -/
theorem chunkAcked_outcome {k : Kind} {s : State} (hne : k ≠ .raw) (hle : s.offset.toNat ≤ s.totalLen.toNat) :
    ∃ t, chunkAcked k s = .ok t ∧ t.offset = s.offset ∧ t.chunkIdx = s.chunkIdx ∧ t.totalLen = s.totalLen ∧
      (s.offset = s.totalLen → k = .image →
        t.phase = .awaitFinalAck ∧ t.rxStage = 0 ∧ t.rxNeed = 5 ∧ t.rxGot = 0 ∧ t.ackPos = 0 ∧ t.rxTimer = s.rxTimeout) ∧
      (s.offset = s.totalLen → k = .firmware → t.phase = .complete ∧ t.result = .ok ∧ t.abortPending = false) ∧
      (s.offset ≠ s.totalLen → s.abortPending = true →
        t.phase = .complete ∧ t.result = .aborted ∧ t.abortPending = false) ∧
      (s.offset ≠ s.totalLen → s.abortPending = false →
        t.phase = .sending ∧ t.txPos = 0 ∧
        t.chunkLen.toNat = min k.maxChunk (s.totalLen.toNat - s.offset.toNat) ∧
        t.lastChunk = decide (s.offset.toNat + t.chunkLen.toNat = s.totalLen.toNat) ∧
        t.frameLen.toNat = t.chunkLen.toNat + headerBytes k) := by
  unfold chunkAcked
  rw [if_neg hne]
  by_cases ho : s.offset = s.totalLen
  · rw [if_pos ho]
    cases k with
    | image =>
      exact ⟨_, (if_pos rfl).trans (beginSequence_eq (n := 5) rfl), rfl, rfl, rfl,
        fun _ _ => ⟨rfl, rfl, rfl, rfl, rfl, rfl⟩, nofun, absurd ho, absurd ho⟩
    | firmware => exact ⟨_, rfl, rfl, rfl, rfl, nofun, fun _ _ => ⟨rfl, rfl, rfl⟩, absurd ho, absurd ho⟩
    | raw => exact absurd rfl hne
  · rw [if_neg ho]
    cases hab : s.abortPending with
    | true =>
      exact ⟨_, rfl, rfl, rfl, rfl, (absurd · ho), (absurd · ho), fun _ _ => ⟨rfl, rfl, rfl⟩, nofun⟩
    | false =>
      have hlt : s.offset.toNat < s.totalLen.toNat :=
        Nat.lt_of_le_of_ne hle fun e => ho (BitVec.eq_of_toNat_eq e)
      have hset := setupChunk_eq (k := k) hlt
      exact ⟨_, rfl, by rw [hset], by rw [hset], by rw [hset], (absurd · ho), (absurd · ho), nofun,
        fun _ _ => setupChunk_next hlt hne⟩

/-! ### The statements -/

theorem ne_raw_of_image_or_firmware {o : Option Kind} (h : o = some .image ∨ o = some .firmware) :
    ∃ k, o = some k ∧ k ≠ .raw := by
  rcases h with h | h
  · exact ⟨_, h, nofun⟩
  · exact ⟨_, h, nofun⟩

/-- Settles O26: the byte goes to its store, and the count stays below RX_NEED. -/
theorem rxStepStoresTheByte : Obligations.RxStepStoresTheByte := by
  unfold Obligations.RxStepStoresTheByte
  intro s b q h ha hi hq hlt
  refine ⟨fun hk => ?_, fun hk hst => ?_, fun hk hst => ?_⟩
  · obtain ⟨k, hk, hne⟩ := ne_raw_of_image_or_firmware hk
    exact h.step_rx ha hi hq hk (h.engine_unchanged.rxStep_ack ha hk hne hlt b q)
  · have f := h.engine.inFlight_of_awaiting ha hk
    have hneed : s.rxNeed = 4 := f.need ha hst (by rw [f.awaitAck_of_raw ha]; rfl)
    have hgot := (f.stage ha).got
    rw [hneed] at hgot
    exact h.step_rx ha hi hq hk (rxStep_status (s := unchanged s) hst hgot hlt b q)
  · exact h.step_rx ha hi hq hk (rxStep_response (s := unchanged s) hst hlt b q)

/-- Settles O27: the cycle is the fifth byte and then the tick, which finds the fresh timer. -/
theorem firstStageOpensTheSecond : Obligations.FirstStageOpensTheSecond := by
  unfold Obligations.FirstStageOpensTheSecond
  intro s b q tick h ha hi hq hk hst hg
  obtain ⟨k, hk, hne⟩ := ne_raw_of_image_or_firmware hk
  have hrx := h.engine_unchanged.rxStep_fifth ha hk hne hst hg b q
  have hstep := h.step_rx_tick ha hi hq hk hrx
  refine ⟨fun e => ?_, fun e h0 => ?_, fun e h0 => ?_⟩ <;> subst e
  · exact hstep
  · exact hstep.trans (congrArg _ (tickStep_counting ha h0))
  · rw [← h0]
    exact hstep.trans (congrArg _ (tickStep_expired ha h0))

/-- Settles O28: the three stages of a raw response, the second with and without a payload to follow. -/
theorem rawResponseStages : Obligations.RawResponseStages := by
  unfold Obligations.RawResponseStages
  intro s b q h hp hi hq hk
  have ha : s.phase.awaiting = true := by rw [hp]; rfl
  have f : InFlight .raw (unchanged s) := h.engine_unchanged.inFlight_of_awaiting ha hk
  refine ⟨fun hst hg => ?_, fun hst hb => ?_, fun hst hb => ?_, fun hst hg => ?_⟩ <;> refine h.step_rx ha hi hq hk ?_
  · rw [← show s.rxGot.toNat = 3 from Nat.succ.inj hg]
    exact f.rxStep_status_last hp hst hg b q
  · exact f.rxStep_length hp hst hb q
  · subst hb
    exact f.rxStep_length_zero hp hst q
  · exact f.rxStep_response_last hp hst hg b q

/-- Settles O29: the seventh byte of a chunk's ack moves the progress registers on, and `chunkAcked` decides. -/
theorem chunkAckMovesOn : Obligations.ChunkAckMovesOn := by
  unfold Obligations.ChunkAckMovesOn
  intro s k b q h hp hi hq hk hne hst hg
  have ha : s.phase.awaiting = true := by rw [hp]; rfl
  have hc := (h.engine.inFlight_of_awaiting ha hk).chunk (.inr hp)
  have hoff := offset_add_toNat hc
  have hidx : (s.chunkIdx + 1).toNat = s.chunkIdx.toNat + 1 :=
    chunkIdx_succ_toNat hne (h.engine.offset_eq hk (.inr hp) hne ▸ hc.more)
  obtain ⟨u, hu, huoff, huidx, hutotal, huabort, hutimeout⟩ :=
    h.engine_unchanged.rxStep_seventh hp hk hne hst hg b q
  have hle : u.offset.toNat ≤ u.totalLen.toNat := by
    rw [huoff, hutotal]
    exact hoff.trans_le hc.bounds.2.2
  obtain ⟨t, ht, htoff, htidx, httotal, himage, hfirmware, habort, hnext⟩ := chunkAcked_outcome hne hle
  rw [← htoff, ← httotal] at himage hfirmware habort hnext
  rw [hutimeout] at himage
  rw [huabort] at habort hnext
  have hrx := hu.trans ht
  obtain ⟨frame, hrxq, htxh, hrxh, _⟩ := rxStep_frame hrx
  refine ⟨t, h.step_rx ha hi hq hk hrx, ?_, ?_, hrxq, hrxh, htxh, frame.totalLen, frame.opkind, himage, hfirmware, habort,
    hnext⟩
  · rw [htoff, huoff]
    exact hoff
  · rw [htidx, huidx]
    exact hidx

/-- Settles O30: the sequence done in AWAIT_FINAL_ACK is the end of the image. -/
theorem endOfImageAckCompletes : Obligations.EndOfImageAckCompletes := by
  unfold Obligations.EndOfImageAckCompletes
  intro s b q h hp hi hq hst hg
  have ha : s.phase.awaiting = true := by rw [hp]; rfl
  obtain ⟨k, f⟩ := h.engine.inFlight (busy_of_awaiting ha)
  obtain ⟨rfl, _⟩ := f.finalAck hp
  exact h.step_rx ha hi hq f.opkind (h.engine_unchanged.rxStep_twelfth hp hst (BitVec.eq_of_toNat_eq hg) b q)

end Sys2Proof.Safety
end

section
/-! The session's commands (spec/42_session_commands.md): which are accepted and why any other is rejected, what each leaves
when it is accepted, and how a cycle comes to run one and to answer a host read. -/

namespace Sys2Proof.Machine

/-! ### Why a command is rejected (R180, R215) -/

theorem exec_of_accepted {i : Instr} {s : State} (h : commandCause i s = .none) :
    exec i s = .next (commandBody i (accept s)) := by
  rw [exec_eq_runCommand, h]
  rfl

theorem exec_of_rejected {i : Instr} {s : State} {c : Cause} (h : commandCause i s = c) (hc : c ≠ .none) :
    exec i s = .next (reject c s) := by
  rw [exec_eq_runCommand, h]
  cases c with
  | none => exact absurd rfl hc
  | _ => rfl

theorem transferCause_of_busy {s : State} (h : s.phase.busy = true) : transferCause s = .busy := if_pos h

theorem transferCause_of_failed {s : State} (h : s.phase = .failed) : transferCause s = .failedState := by
  simp [transferCause, h, Phase.busy]

theorem transferCause_of_idle_or_complete {s : State} (h : s.phase = .idle ∨ s.phase = .complete) :
    transferCause s = .none := by
  rcases h with h | h <;> simp [transferCause, h, Phase.busy]

/-- A well-formed transfer command has the cause that all of them have, and UPDATE_FW, where there is none, the LENGTH
check (R180). -/
theorem commandCause_of_startsTransfer {i : Instr} (hi : startsTransfer i = true) (hw : wellFormed i = true)
    (s : State) : commandCause i s =
      if transferCause s = .none ∧ i = .updateFw ∧ Config.payloadBytes < s.fwLen.toNat then .length
      else transferCause s := by
  cases i with
  | sendImage => simp [commandCause]
  | updateFw => simp [commandCause, updateFwCause, exceedsPayload_iff]
  | rawCmd k => simp [commandCause, rawCmdCause, show rawCountOk k = true from hw]
  | _ => cases hi

theorem startsTransfer_of_ne {i : Instr} (hnop : i ≠ .nop) (habort : i ≠ .abort) (hquit : i ≠ .quit) :
    startsTransfer i = true := by
  cases i with
  | nop => exact absurd rfl hnop
  | abort => exact absurd rfl habort
  | quit => exact absurd rfl hquit
  | _ => rfl

/-- A transfer command that may not start in this phase is rejected before its length is looked at (R180). -/
theorem commandCause_of_transferCause {i : Instr} {s : State} {c : Cause} (hi : startsTransfer i = true)
    (hw : wellFormed i = true) (h : transferCause s = c) (hc : c ≠ .none) : commandCause i s = c := by
  subst h
  rw [commandCause_of_startsTransfer hi hw, if_neg fun e => hc e.1]

theorem commandCause_of_busy {i : Instr} {s : State} (hw : wellFormed i = true) (hnop : i ≠ .nop) (habort : i ≠ .abort)
    (hb : s.phase.busy = true) : commandCause i s = .busy := by
  by_cases hquit : i = .quit
  · subst hquit
    exact if_pos hb
  · exact commandCause_of_transferCause (startsTransfer_of_ne hnop habort hquit) hw (transferCause_of_busy hb) nofun

theorem commandCause_updateFw_of_too_long {s : State} (hp : s.phase = .idle ∨ s.phase = .complete)
    (hl : Config.payloadBytes < s.fwLen.toNat) : commandCause .updateFw s = .length := by
  rw [commandCause_of_startsTransfer rfl rfl, if_pos ⟨transferCause_of_idle_or_complete hp, rfl, hl⟩]

theorem commandCause_quit_of_not_busy {s : State} (hb : s.phase.busy = false) : commandCause .quit s = .none :=
  if_neg (by rw [hb]; nofun)

/-- A transfer command may start in IDLE and COMPLETE, a firmware update if PAYLOAD can hold it. -/
theorem commandCause_of_idle_or_complete {i : Instr} {s : State} (hw : wellFormed i = true)
    (hp : s.phase = .idle ∨ s.phase = .complete) (hl : i = .updateFw → s.fwLen.toNat ≤ Config.payloadBytes) :
    commandCause i s = .none := by
  cases hi : startsTransfer i with
  | true =>
    rw [commandCause_of_startsTransfer hi hw, if_neg fun e => Nat.not_lt_of_le (hl e.2.1) e.2.2]
    exact transferCause_of_idle_or_complete hp
  | false =>
    cases i with
    | quit => exact commandCause_quit_of_not_busy (by rcases hp with e | e <;> rw [e] <;> rfl)
    | nop | abort => rfl
    | _ => cases hi

/-- What an accepted command does leaves the command status as the acceptance set it. -/
theorem commandBody_status (i : Instr) (s : State) :
    (commandBody i s).cmdErr = s.cmdErr ∧ (commandBody i s).cmdErrCause = s.cmdErrCause := by
  have hstart (k : Kind) (w : Word) (s : State) :
      (startTransfer k w s).cmdErr = s.cmdErr ∧ (startTransfer k w s).cmdErrCause = s.cmdErrCause :=
    ⟨(progressOnly_startTransfer k w s).engine.cmdErr, (progressOnly_startTransfer k w s).engine.cmdErrCause⟩
  cases i with
  | nop | quit => exact ⟨rfl, rfl⟩
  | sendImage | updateFw | rawCmd k => exact hstart _ _ _
  | abort => simp [commandBody, requestAbort_eq]

theorem exec_abort (s : State) :
    exec .abort s = .next { accept s with abortPending := s.phase.busy || s.abortPending } :=
  (exec_of_accepted rfl).trans (congrArg _ (requestAbort_eq (accept s)))

/-- A word that decodes to no command is rejected (R187). -/
theorem dispatch_of_illegal {w : Word} (h : ∀ i, decode w ≠ .ok i) (s : State) :
    dispatch w s = .next (reject .illegal s) := by
  rcases dispatch_cases w s with ⟨i, e, _⟩ | ⟨_, e⟩
  · exact absurd e (h i)
  · exact e

theorem dispatch_of_decode {w : Word} {i : Instr} (h : decode w = .ok i) (s : State) : dispatch w s = exec i s := by
  unfold dispatch
  rw [h]

/-! ### The start of a transfer (R148, R188) -/

theorem startTransfer_zero {s : State} (k : Kind) (hc : s.chan = .opened) :
    startTransfer k 0 s = finish .ok (freshTransfer k 0 s) := by
  unfold startTransfer
  exact (if_neg (not_not.2 hc)).trans (if_pos rfl)

/-- With an open channel a transfer of at least one byte starts with its first chunk, which is the last one when it holds
all of the payload. -/
theorem startTransfer_of_pos {s : State} {w : Word} (k : Kind) (hc : s.chan = .opened) (hw : 0 < w.toNat) :
    startTransfer k w s = { freshTransfer k w s with
      chunkLen := BitVec.ofNat 14 (min k.maxChunk w.toNat)
      lastChunk := decide (w.toNat ≤ k.maxChunk)
      frameLen := frameLenOf k (BitVec.ofNat 14 (min k.maxChunk w.toNat))
      phase := .sending } := by
  have hmore : (freshTransfer k w s).offset.toNat < (freshTransfer k w s).totalLen.toNat := hw
  have hlen : chunkLenOf k (freshTransfer k w s) = min k.maxChunk w.toNat := chunkLenOf_eq hmore.le
  have hlast : lastFlag (min k.maxChunk w.toNat) (freshTransfer k w s) = decide (w.toNat ≤ k.maxChunk) := by
    rw [Safety.lastFlag_eq (by simp)]
    simp
  have hzero : w ≠ 0 := by
    rintro rfl
    exact Nat.lt_irrefl 0 hw
  have hstart : startTransfer k w s = setupChunk k (freshTransfer k w s) := by
    unfold startTransfer
    exact (if_neg (not_not.2 hc)).trans (if_neg hzero)
  rw [hstart, Safety.setupChunk_eq hmore, hlen, hlast]
  rfl

/-- The frame of a firmware chunk is its header and its bytes (R116). -/
theorem frameLenOf_firmware (n : Nat) : frameLenOf .firmware (BitVec.ofNat 14 n) = BitVec.ofNat 14 (n + 8) :=
  (BitVec.ofNat_add n 8).symm

/-! ### A cycle that makes a host access (R220) -/

/-- A word written to CMD is dispatched (R180). -/
theorem hostEvent_cmd (w : Word) (s : State) :
    hostEvent (some (.write .word 0x000#12 w)) s = dispatch w { s with busResp := some ⟨false, none⟩ } :=
  hostEvent_write (tg := .reg .cmd) rfl rfl w

/-- Without a payload-port write the host's events are the host access. -/
theorem hostEvents_of_no_payloadWrite {i : CycleInput} (h : i.payloadWrite = none) (s : State) :
    hostEvents i s = hostEvent i.host s := by
  unfold hostEvents
  rw [h]
  cases hostEvent i.host s <;> rfl

/-! ### The targets and the value of a host read -/

/-- The buffers begin at word boundaries past the registers and end inside the host's address space (R51). -/
theorem hostBuffers_bounds : ∀ b ∈ hostBuffers, b.2.1 % 4 = 0 ∧ 0x03B < b.2.1 ∧ b.2.1 + b.2.2 ≤ 2 ^ 12 := by
  decide

/-- A byte of a buffer is reached at its offset (R63). -/
theorem target?_byte_of_mem {r : Region} {base len i : Nat} (hb : (r, base, len) ∈ hostBuffers) (hi : i < len) :
    target? .byte (BitVec.ofNat 12 (base + i)) = some (.byte r i) := by
  obtain ⟨_, _, hend⟩ := hostBuffers_bounds _ hb
  have ha : (BitVec.ofNat 12 (base + i)).toNat = base + i :=
    Nat.mod_eq_of_lt (lt_of_lt_of_le (Nat.add_lt_add_left hi base) hend)
  simp only [target?, ha, bufferAt?_of_mem hb Nat.one_pos hi, Option.map_some]

/-- An aligned word of a buffer is reached at the offset of its first byte (R63). -/
theorem target?_word_of_mem {r : Region} {base len i : Nat} (hb : (r, base, len) ∈ hostBuffers) (h4 : i % 4 = 0)
    (hi : i + 4 ≤ len) : target? .word (BitVec.ofNat 12 (base + i)) = some (.word r i) := by
  obtain ⟨hbase, hpast, hend⟩ := hostBuffers_bounds _ hb
  simp only at hbase hpast hend
  have ha : (BitVec.ofNat 12 (base + i)).toNat = base + i := Nat.mod_eq_of_lt (by omega)
  have hal : (base + i) % 4 = 0 := by omega
  have hreg : regAt? (base + i) = none := by
    by_contra h
    have hle := (regAt?_ne_none_iff hal).1 h
    omega
  simp only [target?, ha, hal, hreg, bufferAt?_of_mem hb (by decide) hi, if_true, Option.map_some]

/-- A byte read gives the byte in bits [7:0], with zeros above (R69, R189). -/
theorem targetRead_byte_bits (r : Region) (i : Nat) (s : State) :
    (targetRead (.byte r i) s).extractLsb' 0 8 = s.readByte r i ∧
      (targetRead (.byte r i) s).extractLsb' 8 24 = 0#24 := by
  have h : targetRead (.byte r i) s = 0#24 ++ s.readByte r i := BitVec.setWidth_eq_append (by decide)
  rw [h]
  simp (disch := decide) only [BitVec.extractLsb'_append_eq_of_add_le, BitVec.extractLsb'_append_eq_of_le]
  simp

/-- A word of a buffer is read with its first byte lowest (R66). -/
theorem targetRead_word_lane (r : Region) (i : Nat) (s : State) {j : Nat} (hj : j < 4) :
    (targetRead (.word r i) s).extractLsb' (8 * j) 8 = s.readByte r (i + j) := by
  have h : j = 0 ∨ j = 1 ∨ j = 2 ∨ j = 3 := by omega
  rcases h with rfl | rfl | rfl | rfl <;>
    simp (disch := decide) only [targetRead, BitVec.extractLsb'_append_eq_of_add_le,
      BitVec.extractLsb'_append_eq_of_le] <;>
    simp

/-! ### The statements -/

/-- Settles O6: CMD dispatches the word, and a word that decodes to nothing is rejected. -/
theorem illegalWordIsRejected : Obligations.IllegalWordIsRejected := by
  unfold Obligations.IllegalWordIsRejected
  intro s w h
  exact (hostEvent_cmd w s).trans (dispatch_of_illegal h _)

/-- Settles O7: the causes in the order of the checks, and acceptance where there is none. -/
theorem rejectionCausesAndOrder : Obligations.RejectionCausesAndOrder := by
  unfold Obligations.RejectionCausesAndOrder
  refine ⟨fun s w h => dispatch_of_illegal h s, fun s k hk => ?_, fun s i hw hnop habort hb => ?_,
    fun s i hw hnop habort hquit hf => ?_, fun s hp hl => ?_, fun s i hw h => ?_⟩
  · have hcount : ¬ rawCountOk k = true := by simpa [rawCountOk] using hk
    exact exec_of_rejected (if_neg hcount) nofun
  · exact exec_of_rejected (commandCause_of_busy hw hnop habort hb) nofun
  · exact exec_of_rejected (commandCause_of_transferCause (startsTransfer_of_ne hnop habort hquit) hw
      (transferCause_of_failed hf) nofun) nofun
  · exact exec_of_rejected (commandCause_updateFw_of_too_long hp hl) nofun
  · have hcause : commandCause i s = .none := by
      rcases h with rfl | rfl | ⟨rfl, hb⟩ | ⟨hp, hl⟩
      · rfl
      · rfl
      · exact commandCause_quit_of_not_busy hb
      · exact commandCause_of_idle_or_complete hw hp hl
    exact ⟨_, exec_of_accepted hcause, commandBody_status i (accept s)⟩

/-- Settles O8: NOP is accepted and its body does nothing. -/
theorem nopClearsTheCommandError : Obligations.NopClearsTheCommandError := by
  unfold Obligations.NopClearsTheCommandError
  intro s
  exact exec_of_accepted (i := .nop) rfl

/-- Settles O9: the first of an image's chunks is full and not the last. -/
theorem sendImageStartsTheFirstChunk : Obligations.SendImageStartsTheFirstChunk := by
  unfold Obligations.SendImageStartsTheFirstChunk
  intro s hp hc
  have hstart := startTransfer_of_pos (s := accept s) (w := 134400) .image hc (by decide)
  rw [exec_of_accepted (commandCause_of_idle_or_complete (i := .sendImage) rfl hp nofun)]
  exact congrArg _ hstart

/-- Settles O10: the first chunk of a firmware, with its header. -/
theorem updateFwStartsTheFirstChunk : Obligations.UpdateFwStartsTheFirstChunk := by
  unfold Obligations.UpdateFwStartsTheFirstChunk
  intro s hp hc hpos hl
  have hstart := startTransfer_of_pos (s := accept s) .firmware hc hpos
  rw [frameLenOf_firmware] at hstart
  rw [exec_of_accepted (commandCause_of_idle_or_complete rfl hp fun _ => hl)]
  exact congrArg _ hstart

/-- Settles O11: a firmware of no bytes passes the length check and finishes where it starts. -/
theorem updateFwOfLengthZeroCompletes : Obligations.UpdateFwOfLengthZeroCompletes := by
  unfold Obligations.UpdateFwOfLengthZeroCompletes
  intro s hp hc h0
  have hl : s.fwLen.toNat ≤ Config.payloadBytes := by simp [h0]
  have hbody : commandBody .updateFw (accept s) = startTransfer .firmware 0 (accept s) :=
    congrArg (startTransfer .firmware · (accept s)) h0
  rw [exec_of_accepted (commandCause_of_idle_or_complete rfl hp fun _ => hl), hbody, startTransfer_zero (s := accept s) _ hc]
  rfl

/-- Settles O12: the one chunk of a raw transfer is its whole frame. -/
theorem rawCmdStartsItsFrame : Obligations.RawCmdStartsItsFrame := by
  unfold Obligations.RawCmdStartsItsFrame
  intro s k hk hp hc
  have hw : wellFormed (.rawCmd k) = true := decide_eq_true hk
  have hstart := startTransfer_of_pos (s := { accept s with rawK := k.setWidth 7, rawRespLen := 0 }) (w := 68) .raw hc
    (by decide)
  rw [exec_of_accepted (commandCause_of_idle_or_complete hw hp nofun)]
  exact congrArg _ hstart

/-- Settles O13: ABORT is always accepted, and its body records it exactly while busy. -/
theorem abortIsRecordedWhileBusy : Obligations.AbortIsRecordedWhileBusy := by
  unfold Obligations.AbortIsRecordedWhileBusy
  refine ⟨fun s hb => ?_, fun s hb => ?_⟩
  · rw [exec_abort, hb]
    rfl
  · rw [exec_abort, hb]
    rfl

/-- Settles O14: QUIT is accepted while not busy, and leaves the session. -/
theorem quitEndsTheSession : Obligations.QuitEndsTheSession := by
  unfold Obligations.QuitEndsTheSession
  intro s hb
  exact exec_of_accepted (commandCause_quit_of_not_busy hb)

/-- Settles O17: an accepted command has CMD_ERR cleared, a rejected one has it set with its cause. -/
theorem everyCommandCompletes : Obligations.EveryCommandCompletes := by
  unfold Obligations.EveryCommandCompletes
  intro i s
  by_cases hc : commandCause i s = .none
  · obtain ⟨herr, hcause⟩ := commandBody_status i (accept s)
    exact ⟨_, exec_of_accepted hc, by simp [herr], by simp [herr, hcause]⟩
  · exact ⟨_, exec_of_rejected rfl hc, fun _ => rfl, by simp [hc]⟩

/-- Settles O5: the host's events of the cycle begin with the access, here the dispatch of a command. -/
theorem stepRunsTheDecodedCommand : Obligations.StepRunsTheDecodedCommand := by
  unfold Obligations.StepRunsTheDecodedCommand
  refine ⟨fun s u w i hr hh hi hu => ?_, fun s u acc hr hh hp hu => ?_⟩ <;>
    refine (cycle_of_engineEvents hr hu).trans ?_
  · have hrun : hostEvent (nextInput s).host u = exec i { u with busResp := some ⟨false, none⟩ } := by
      rw [hh, hostEvent_cmd, dispatch_of_decode hi]
    rw [← hrun]
    rfl
  · rw [hostEvents_of_no_payloadWrite hp, hh]

/-- Settles O44: each offset has its target, and a read answers with the target's value. -/
theorem hostReadAnswersAndChangesNothing : Obligations.HostReadAnswersAndChangesNothing := by
  unfold Obligations.HostReadAnswersAndChangesNothing
  refine ⟨fun s => ?_, fun p hp => ⟨fun i hi => target?_byte_of_mem hp hi, fun i h4 hi => target?_word_of_mem hp h4 hi⟩,
    fun s size a tg h => hostEvent_read h s, fun s r i => ?_, by decide⟩
  · have hread (a : BitVec 12) (r : Reg) (h : target? .word a = some (.reg r)) := hostEvent_read h s
    simp only [List.forall_mem_cons]
    exact ⟨hread _ .cmd rfl, hread _ .status rfl, hread _ .result rfl, hread _ .totalLen rfl, hread _ .offset rfl,
      hread _ .chunkIdx rfl, hread _ .chunkLen rfl, hread _ .framePos rfl, hread _ .rxStat rfl, hread _ .rxTimer rfl,
      hread _ .txCount rfl, hread _ .rxCount rfl, hread _ .fwLen rfl, hread _ .rxTimeout rfl, hread _ .rawStat rfl, nofun⟩
  · obtain ⟨hlow, hhigh⟩ := targetRead_byte_bits r i s
    exact ⟨hlow, hhigh, fun j hj => targetRead_word_lane r i s hj⟩

end Sys2Proof.Machine
end

section
/-! Failures, the link and the transport error (spec/60_exceptions.md): what ends a transfer and in which order, what
the link makes of CHAN, and how FAILED is left. -/

namespace Sys2Proof

/-- The word of a command is the only one that decodes to it. -/
theorem eq_encode_of_decode {w : Word} {i : Instr} (h : decode w = .ok i) : w = encode i := by
  obtain ⟨hlow, hhigh, hop, harg, _⟩ := (decode_ok_iff w i).1 h
  obtain ⟨hop', hlow', harg', hhigh', _⟩ := encode_fields i
  exact word_ext_fields (hop.trans hop'.symm) (hlow.trans hlow'.symm) (harg.trans harg'.symm) (hhigh.trans hhigh'.symm)

end Sys2Proof

namespace Sys2Proof.Machine

/-! ### A transfer command without a channel (R217) -/

theorem startTransfer_of_no_channel {s : State} (k : Kind) (w : Word) (hc : s.chan ≠ .opened) :
    startTransfer k w s = fail .connectionError (freshTransfer k w s) :=
  if_pos hc

/-- Settles O15: an accepted transfer command starts its transfer, and the first branch of the start fails it. -/
theorem transferWithoutAChannelFails : Obligations.TransferWithoutAChannelFails := by
  unfold Obligations.TransferWithoutAChannelFails
  intro s hp hc
  refine ⟨?_, fun hl => ?_, fun k hk => ?_⟩
  · rw [exec_of_accepted (commandCause_of_idle_or_complete (i := .sendImage) rfl hp nofun)]
    exact congrArg _ (startTransfer_of_no_channel (s := accept s) .image 134400 hc)
  · rw [exec_of_accepted (commandCause_of_idle_or_complete rfl hp fun _ => hl)]
    exact congrArg _ (startTransfer_of_no_channel (s := accept s) .firmware s.fwLen hc)
  · have hw : wellFormed (.rawCmd k) = true := decide_eq_true hk
    rw [exec_of_accepted (commandCause_of_idle_or_complete hw hp nofun)]
    exact congrArg _
      (startTransfer_of_no_channel (s := { accept s with rawK := k.setWidth 7, rawRespLen := 0 }) .raw 68 hc)

/-! ### The link event (R218, R219) -/

/-- Where the link is down and no operation is cut off, CHAN is closed and nothing else happens. -/
theorem linkEvent_of_down {s : State} (hl : s.linkUp = false) (h : s.chan = .opened → s.phase.busy = false) :
    linkEvent s = { s with chan := .closed } := by
  rcases linkEvent_cases s with e | ⟨hl', _⟩ | ⟨_, _, e⟩ | ⟨_, hc, hb, _⟩
  · have hc := linkEvent_chan s
    rw [e, if_neg (by simp [hl])] at hc
    rw [e, ← hc]
  · simp [hl] at hl'
  · exact e
  · simp [h hc] at hb

/-- A link that falls during an operation fails it. -/
theorem linkEvent_of_loss {s : State} (hl : s.linkUp = false) (hc : s.chan = .opened) (hb : s.phase.busy = true) :
    linkEvent s = fail .connectionError { s with chan := .closed } := by
  simp [linkEvent, linkDown, hl, hc, hb]

/-- With the link up only a closed channel changes, and not in FAILED. -/
theorem linkEvent_of_not_opening {s : State} (hl : s.linkUp = true) (h : s.chan = .closed → s.phase = .failed) :
    linkEvent s = s := by
  unfold linkEvent
  rw [if_pos hl]
  exact if_neg fun e => e.2 (h e.1)

theorem linkEvent_of_opening {s : State} (hl : s.linkUp = true) (hc : s.chan = .closed) (hp : s.phase ≠ .failed) :
    linkEvent s = { s with chan := .opened } := by
  unfold linkEvent
  rw [if_pos hl]
  exact if_pos ⟨hc, hp⟩

theorem linkEvent_ne_sending {s : State} (h : s.phase ≠ .sending) : (linkEvent s).phase ≠ .sending := by
  rcases Safety.linkEvent_position s with e | ⟨x, e⟩
  · rw [e]
    nofun
  · rw [e]
    exact h

/-! ### The engine's events in order (R220) -/

theorem txErrEvent_of_sending {s : State} (h : s.phase = .sending) : txErrEvent true s = fail .connectionError s :=
  if_pos (by simp [h])

/-- Where the link or the transport error has ended the operation, the engine's later events do nothing: no byte of the
cycle counts, and its tick has no effect. -/
theorem engineEvents_of_ended {i : CycleInput} {s : State} (h : (txErrEvent i.txErr (linkEvent s)).phase.busy = false) :
    engineEvents i s = .ok (txErrEvent i.txErr (linkEvent s)) := by
  have ha := not_awaiting_of_not_busy h
  have htx := Safety.txEvent_not_sending (txValid s && i.txReady && !i.txErr) (ne_sending_of_not_busy h)
  rw [Safety.engineEvents_eq (Safety.rxEvent_not_awaiting _ ha) htx, tickEvent_not_awaiting _ ha]

/-- A cycle that brings nothing but its link, with no byte to take, is its link event. -/
theorem engineEvents_of_quiet {s : State} {up : Bool} (h : rxReady s = false ∨ s.rxq = []) :
    engineEvents (quietInput up) s = .ok (linkEvent s) := by
  have hrx : rxEvent (rxReady s) (linkEvent s) = .ok (linkEvent s) := by
    rcases h with h | h
    · rw [h]
      exact Safety.rxEvent_not_ready
    · exact Safety.rxEvent_empty _ ((linkEvent_rxq s).trans h)
  have hno : (txValid s && (quietInput up).txReady && !(quietInput up).txErr) = false := by simp [quietInput]
  exact Safety.engineEvents_eq hrx (hno ▸ Safety.txEvent_no_handshake)

theorem rxReady_of_not_opened {s : State} (h : s.chan ≠ .opened) : rxReady s = false := by
  simp [rxReady, h]

theorem txValid_of_not_sending {s : State} (h : s.phase ≠ .sending) : txValid s = false := by
  simp [txValid, h]

/-- Outside SENDING the engine does not look at tx_err. -/
theorem engineEvents_txErr {s : State} (i : CycleInput) (e : Bool) (h : s.phase ≠ .sending) :
    engineEvents { i with txErr := e } s = engineEvents { i with txErr := false } s := by
  simp only [engineEvents, txErrEvent_not_sending _ (linkEvent_ne_sending h), txValid_of_not_sending h, Bool.false_and]

/-! ### How FAILED is left (R222, R223) -/

/-- The outcome of the last transfer and its acknowledged progress are as they were. -/
structure OutcomeKept (s t : State) : Prop where
  result : t.result = s.result
  offset : t.offset = s.offset
  chunkIdx : t.chunkIdx = s.chunkIdx

/-- What QUIT leaves (R185, R222): the way out of FAILED. -/
structure SessionLeft (t : State) : Prop where
  phase : t.phase = .idle
  opkind : t.opkind = none
  chan : t.chan ≠ .opened

theorem sessionLeft_leaveSession (s : State) : SessionLeft (leaveSession s) where
  phase := rfl
  opkind := rfl
  chan := by
    show (if s.chan = .opened then Chan.closing else s.chan) ≠ .opened
    split
    · nofun
    · next hc => exact hc

/-- In FAILED a transfer command is rejected, NOP and ABORT change nothing of the failure, and QUIT leaves it. -/
theorem exec_of_failed {i : Instr} {s t : State} (hw : wellFormed i = true) (hf : s.phase = .failed)
    (h : exec i s = .next t) : OutcomeKept s t ∧ (t.phase = .failed ∨ i = .quit ∧ SessionLeft t) := by
  rcases exec_cases h with ⟨hc, rfl⟩ | ⟨_, rfl⟩
  · cases hi : startsTransfer i with
    | true =>
      rw [commandCause_of_transferCause hi hw (transferCause_of_failed hf) nofun] at hc
      cases hc
    | false =>
      cases i with
      | nop => exact ⟨⟨rfl, rfl, rfl⟩, .inl hf⟩
      | abort =>
        rw [commandBody, requestAbort_eq]
        exact ⟨⟨rfl, rfl, rfl⟩, .inl hf⟩
      | quit => exact ⟨⟨rfl, rfl, rfl⟩, .inr ⟨rfl, sessionLeft_leaveSession _⟩⟩
      | _ => cases hi
  · exact ⟨⟨rfl, rfl, rfl⟩, .inl hf⟩

/-- In FAILED a word written to CMD keeps the failure, unless it is QUIT's. -/
theorem dispatch_of_failed {w : Word} {s t : State} (hf : s.phase = .failed) (h : dispatch w s = .next t) :
    OutcomeKept s t ∧ (t.phase = .failed ∨ w = encode .quit ∧ SessionLeft t) := by
  rcases dispatch_cases w s with ⟨i, hd, e⟩ | ⟨_, e⟩ <;> rw [e] at h
  · obtain ⟨_, _, _, _, hw⟩ := (decode_ok_iff w i).1 hd
    obtain ⟨hkept, hphase⟩ := exec_of_failed hw hf h
    exact ⟨hkept, hphase.imp_right fun ⟨hi, hleft⟩ => ⟨hi ▸ eq_encode_of_decode hd, hleft⟩⟩
  · cases h
    exact ⟨⟨rfl, rfl, rfl⟩, .inl hf⟩

/-- In FAILED a host access keeps the failure, unless it writes QUIT to CMD. -/
theorem hostEvent_of_failed {a : Option HostAccess} {s t : State} (hf : s.phase = .failed)
    (h : hostEvent a s = .next t) :
    OutcomeKept s t ∧ (t.phase = .failed ∨ a = some (.write .word 0x000#12 (encode .quit)) ∧ SessionLeft t) := by
  rcases hostEvent_cases h with ⟨_, rfl⟩ | ⟨_, _, _, _, _, rfl⟩ | ⟨size, addr, w, tg, rfl, htg, _, hw⟩
  · exact ⟨⟨rfl, rfl, rfl⟩, .inl hf⟩
  · exact ⟨⟨rfl, rfl, rfl⟩, .inl hf⟩
  · rcases hostWrite_cases (t := tg) (w := w) (s := { s with busResp := some ⟨false, none⟩ }) with
      ⟨rfl, e⟩ | ⟨_, e⟩ | ⟨_, e⟩ | ⟨i, _, e⟩ | ⟨i, _, e⟩ | e <;> rw [e] at hw
    · obtain ⟨rfl, rfl⟩ := target?_cmd htg
      obtain ⟨⟨hres, hoff, hidx⟩, hphase⟩ :=
        dispatch_of_failed (s := { s with busResp := some ⟨false, none⟩ }) hf hw
      exact ⟨⟨hres, hoff, hidx⟩, hphase.imp_right fun ⟨hquit, hleft⟩ => ⟨hquit ▸ rfl, hleft⟩⟩
    all_goals
      rw [← Host.Outcome.next.inj hw]
      exact ⟨⟨by simp [writeWord], by simp [writeWord], by simp [writeWord]⟩,
        .inl (by simpa [writeWord] using hf)⟩

end Sys2Proof.Machine

namespace Sys2Proof.Safety

open Sys2Proof.Machine

/-! ### Cycles in which the link or the transport decides -/

theorem started_of_down {s : State} (h : (nextInput s).linkUp = false) :
    started s = { consumeInput s with linkUp := false, rxq := [] } := by
  simp [started, environmentEvent, h]

theorem step_of_quiet {s : State} {up : Bool} (hi : nextInput s = quietInput up)
    (h : rxReady (started s) = false ∨ (started s).rxq = []) : step s = .next (linkEvent (started s)) :=
  step_of_engineEvents (by rw [hi]; rfl) (by rw [hi]; rfl) (by rw [hi]; rfl) (by rw [hi]; exact engineEvents_of_quiet h)

/-- Settles O37: the link event fails the operation, and no later event of the cycle has anything to act on. -/
theorem linkLossBeatsTheOtherEvents : Obligations.LinkLossBeatsTheOtherEvents := by
  unfold Obligations.LinkLossBeatsTheOtherEvents
  intro s hc hb hr hl hh hp
  have hloss : linkEvent (started s) = fail .connectionError { started s with chan := .closed } :=
    linkEvent_of_loss (s := started s) hl hc hb
  have herr : txErrEvent (nextInput s).txErr (linkEvent (started s)) = linkEvent (started s) :=
    txErrEvent_not_sending _ (by rw [hloss]; nofun)
  have hstep := step_of_engineEvents hr hh hp (engineEvents_of_ended (by rw [herr, hloss]; rfl))
  rw [hstep, herr, hloss, started_of_down hl]
  rfl

/-- Settles O34: the cycle is its link event, by CHAN and by whether an operation is in flight. -/
theorem linkLossClosesTheChannel : Obligations.LinkLossClosesTheChannel := by
  unfold Obligations.LinkLossClosesTheChannel
  intro s hi
  have hl : (nextInput s).linkUp = false := by rw [hi]; rfl
  have hclose (h : s.chan = .opened → s.phase.busy = false) :
      step s = .next { consumeInput s with linkUp := false, rxq := [], chan := .closed } := by
    rw [step_of_quiet hi (.inr (environmentEvent_rxq_of_down _ hl)), linkEvent_of_down (s := started s) hl h,
      started_of_down hl]
  refine ⟨fun hc hb => ?_, fun _ hb => hclose fun _ => hb, fun hc => hclose (by simp [hc]), fun hc => ?_⟩
  · exact linkLossBeatsTheOtherEvents s hc hb (by rw [hi]; rfl) hl (by rw [hi]; rfl) (by rw [hi]; rfl)
  · rw [hclose (by simp [hc]), ← hc]
    rfl

/-- Settles O35: the cycle is its link event, and the queue that was empty with the link down has got no byte. -/
theorem linkOpensAClosedChannel : Obligations.LinkOpensAClosedChannel := by
  unfold Obligations.LinkOpensAClosedChannel
  intro s hi
  have hstart : started s = unchanged s := started_of_quiet (by rw [hi]; rfl) (by rw [hi]; rfl)
  have hlink (hc : s.chan ≠ .opened) : step s = .next (linkEvent (unchanged s)) := by
    rw [step_of_quiet hi (.inl (rxReady_of_not_opened hc)), hstart]
  refine ⟨fun hc hp => ?_, fun hc hp => ?_, fun hc => ?_, fun h hl t ht => ?_⟩
  · rw [hlink (by simp [hc]), linkEvent_of_opening (s := unchanged s) rfl hc hp]
  · rw [hlink (by simp [hc]), linkEvent_of_not_opening (s := unchanged s) rfl fun _ => hp]
  · rw [hlink (by simp [hc]), linkEvent_of_not_opening (s := unchanged s) rfl fun e => by cases hc.symm.trans e]
  · have hq : (unchanged s).rxq = [] := h.queue hl
    rw [step_of_quiet hi (.inr (hstart ▸ hq)), hstart] at ht
    rw [← Host.Outcome.next.inj ht, linkEvent_rxq, hq]

/-- Settles O36: in SENDING the error ends the operation before the TX step; in any other phase nothing reads it. -/
theorem transportErrorFailsASend : Obligations.TransportErrorFailsASend := by
  unfold Obligations.TransportErrorFailsASend
  refine ⟨fun s ready hc hs hi => ?_, fun s inp hs => ?_⟩
  · have herr : txErrEvent (nextInput s).txErr (linkEvent (started s)) = fail .connectionError (unchanged s) := by
      rw [started_of_quiet (by rw [hi]; rfl) (by rw [hi]; rfl), linkEvent_of_opened (s := unchanged s) rfl hc, hi]
      exact txErrEvent_of_sending (s := unchanged s) hs
    rw [step_of_engineEvents (by rw [hi]; rfl) (by rw [hi]; rfl) (by rw [hi]; rfl)
      (engineEvents_of_ended (by rw [herr]; rfl)), herr]
    rfl
  · have hev : engineEvents { inp with txErr := true } (environmentEvent { inp with txErr := true } s) =
        engineEvents { inp with txErr := false } (environmentEvent { inp with txErr := false } s) :=
      engineEvents_txErr (s := environmentEvent inp s) inp true hs
    simp only [cycle, hev]
    rfl

/-! ### A channel that is closing (R219, R251) -/

/-- With the link up and no operation in flight a closing channel waits. -/
theorem step_of_closing {s : State} (hb : s.phase.busy = false) (hc : s.chan = .closing)
    (hi : (nextInput s).rst = false ∧ (nextInput s).linkUp = true ∧ (nextInput s).host = none ∧
      (nextInput s).payloadWrite = none) : step s = .next (started s) := by
  obtain ⟨hr, hl, hh, hp⟩ := hi
  have hlink : linkEvent (started s) = started s :=
    linkEvent_of_not_opening (s := started s) hl fun e => by cases hc.symm.trans e
  have hev : engineEvents (nextInput s) (started s) = .ok (linkEvent (started s)) := engineEvents_of_not_busy _ hb
  exact step_of_engineEvents hr hh hp (hev.trans (congrArg _ hlink))

/-- Settles O39, by induction on the cycles. -/
theorem closingWaitsForTheLinkToFall : Obligations.ClosingWaitsForTheLinkToFall := by
  unfold Obligations.ClosingWaitsForTheLinkToFall
  intro s is rest hb hc hi hall
  induction is generalizing s with
  | nil => exact ⟨s, rfl, hc, rfl, hi⟩
  | cons i is ih =>
    obtain ⟨hhead, htail⟩ := List.forall_mem_cons.1 hall
    have hnext : nextInput s = i := by
      rw [nextInput, hi]
      rfl
    obtain ⟨t, hrun, ht⟩ := ih (started s) hb hc (congrArg List.tail hi) htail
    exact ⟨t, (run_of_step (step_of_closing hb hc (hnext ▸ hhead)) is.length).trans hrun, ht⟩

/-! ### The way out of FAILED (R222, R223) -/

/-- Settles O52: the engine's events write CHAN alone, and of the host's only the write of QUIT to CMD ends the
failure. -/
theorem failedIsLeftOnlyByQuitOrReset : Obligations.FailedIsLeftOnlyByQuitOrReset := by
  unfold Obligations.FailedIsLeftOnlyByQuitOrReset
  intro s t hf ht hr
  have hb : (started s).phase.busy = false := by rw [show (started s).phase = .failed from hf]; rfl
  obtain ⟨x, hlink⟩ := linkEvent_of_not_busy hb
  have hhost : hostEvents (nextInput s) { started s with chan := x } = .next t := by
    rw [← hlink, ← ht]
    exact (cycle_of_engineEvents hr (engineEvents_of_not_busy (nextInput s) hb)).symm
  have hframe := hostFrame_hostEvents hhost
  obtain ⟨u, hu, hp⟩ := hostEvents_cases hhost
  obtain ⟨⟨hres, hoff, hidx⟩, hphase⟩ := hostEvent_of_failed (s := { started s with chan := x }) hf hu
  refine ⟨?_, ?_, ?_, hframe.txh, hframe.rxh, ?_⟩ <;> rw [payloadEvent_eq hp]
  · exact hres
  · exact hoff
  · exact hidx
  · exact hphase.imp_right fun ⟨hquit, hidle, hnone, hchan⟩ => ⟨hidle, hnone, hchan, hquit⟩

end Sys2Proof.Safety
end

section
/-! Reset and the hazards of the host's writes (spec/70_reset_and_hazards.md): what the reset cycle leaves, and the
writes that a model refuses. -/

namespace Sys2Proof.Machine

/-! ### The reset cycle (R240, R241) -/

/-- Reset comes before every event of the cycle (R220). -/
theorem step_of_rst {s : State} (hr : (nextInput s).rst = true) :
    step s = .next (resetEvent (environmentEvent (nextInput s) (consumeInput s))) :=
  if_pos hr

/-- No byte is written right after reset, so each is the free value of the new reset number (R240, U7). -/
theorem resetEvent_readByte (s : State) (r : Region) (a : Nat) :
    (resetEvent s).readByte r a = Config.freeByte r (s.resets + 1) a := by
  have hmem : (resetEvent s).mem r = [] := by cases r <;> rfl
  rw [State.readByte, hmem]
  rfl

/-! ### Hazardous writes (R244) -/

theorem payloadLocked_of_transfer {a : Word} {s : State} (hk : s.opkind = some .image ∨ s.opkind = some .firmware)
    (hb : s.phase.busy = true) (ha : a.toNat < s.totalLen.toNat) : payloadLocked a s = true := by
  simp [payloadLocked, hk, hb, ha]

theorem payloadEvent_of_locked {p : PayloadWrite} {s : State} (h : payloadLocked p.addr s = true) :
    payloadEvent (some p) s = .refused .payloadWriteDuringTransfer :=
  if_pos h

theorem rawBufLocked_of_raw_sending {s : State} (hk : s.opkind = some .raw) (hp : s.phase = .sending) :
    rawBufLocked s = true := by
  simp [rawBufLocked, hk, hp]

theorem hostEvent_write_of_locked {size : Size} {a : BitVec 12} {tg : Target} {s : State} (h : target? size a = some tg)
    (hbuf : tg.inRawCmdBuf = true) (hl : rawBufLocked s = true) (w : Word) :
    hostEvent (some (.write size a w)) s = .refused .rawBufWriteWhileSending := by
  simp [hostEvent, accessRefusal?, HostAccess.target?, h, hbuf, hl]

end Sys2Proof.Machine

namespace Sys2Proof.Safety

open Sys2Proof.Machine

/-- STATUS right after reset shows CLOSING and the link (R52). -/
theorem statusWord_resetEvent (s : State) :
    statusWord (resetEvent s) = if s.linkUp then 0x01000200 else 0x00000200 := by
  obtain ⟨_, hdown, hup, _⟩ := statusFields
  change statusWord { State.reset with linkUp := s.linkUp } = _
  cases s.linkUp with
  | false => exact hdown
  | true => exact hup

/-- Settles O40: the cycle is its reset event alone, each register of R240 is a field of the reset state, and the words
made of fields are those of the reset state. -/
theorem resetSetsEveryRegister : Obligations.ResetSetsEveryRegister := by
  unfold Obligations.ResetSetsEveryRegister
  intro s hr
  obtain ⟨_, hframePos, hrxStat, _⟩ := positionRegisterFields
  refine ⟨_, step_of_rst hr, ?_⟩
  iterate 25 refine ⟨rfl, ?_⟩
  exact ⟨fun r a => resetEvent_readByte _ r a, rfl, rfl, statusWord_resetEvent _, hframePos, hrxStat⟩

/-- Settles O49: the payload and the buffer are locked in the states named, and a write to what is locked is refused. -/
theorem hazardousWritesAreRefused : Obligations.HazardousWritesAreRefused := by
  unfold Obligations.HazardousWritesAreRefused
  refine ⟨fun s p hk hb ha => payloadEvent_of_locked (payloadLocked_of_transfer hk hb ha), ?_⟩
  intro s size a w tg hk hp htg hbuf
  have hin : tg.inRawCmdBuf = true := by
    rcases hbuf with ⟨i, rfl | rfl⟩ <;> rfl
  exact hostEvent_write_of_locked htg hin (rawBufLocked_of_raw_sending hk hp) w

/-- Settles O54: `inv_reset`, from the engine's invariant after the reset event with the reset number set back. -/
theorem invariantHoldsAtReset : Obligations.InvariantHoldsAtReset := by
  unfold Obligations.InvariantHoldsAtReset
  exact inv_reset

end Sys2Proof.Safety
end
